-- ==== Sys2Proof/Word.lean ====
section
/-!
DEFINITION. The types the IntN ALU's spec counts in: bytes (10_state R20), 32-bit words (00_scope R5), the 128-bit
command descriptor (30_encoding R70) and value-register numbers (10_state R22).
-/
namespace Sys2Proof

/-- A byte of a value or of BUF (R20, R30). -/
abbrev Byte := BitVec 8

/-- A 32-bit word: the machine integer, RES, STATUS and CFG (R5, R25, R26, R29). -/
abbrev Word := BitVec 32

/-- One command descriptor `D[127:0]` (R70). -/
abbrev Descriptor := BitVec 128

/-- The number of a value register, 0 to 15 (R22). -/
abbrev Reg := Fin 16

end Sys2Proof
end

