-- ==== Sys2Proof/Syntax.lean ====
section
/-!
DEFINITION. The 37 commands of the command set IntN-ALU-cmd-1 as syntax: one constructor per row of
spec/opcode_table.json (30_encoding R73, R74). A constructor carries exactly the fields its format uses, read as R72
says; a field a command does not use is no argument of it.
-/
namespace Sys2Proof

/-- The constant ids of `LDC`, numbered 0 to 7 in this order (41_width_cast R120). -/
inductive ConstId where
  | zero | uzero | one | uone | minValue | maxValue | maxUnsignedValue | negOne
  deriving DecidableEq, Repr

/-- A command. Registers are `rd`, `rd2` (destinations) and `ra`, `rb` (sources); `u` is the sign mode of a constructed
value (`true` unsigned); `mode` is the sign-mode override of `CAST` and `TOINT`: `none` inherits, `some false` is
signed, `some true` unsigned (R72). -/
inductive Instr where
  /-- `LDC vD, nbits, CONST` (R120) -/
  | ldc (rd : Reg) (nbits : BitVec 16) (c : ConstId)
  /-- `CAST vD, vA, nbits [, s|u]` (R122) -/
  | cast (rd ra : Reg) (mode : Option Bool) (nbits : BitVec 16)
  /-- `CMP vA, vB` (R130) -/
  | cmp (ra rb : Reg)
  /-- `EQ vA, vB` (R131) -/
  | eq (ra rb : Reg)
  /-- `NE vA, vB` (R132) -/
  | ne (ra rb : Reg)
  /-- `LT vA, vB` (R133) -/
  | lt (ra rb : Reg)
  /-- `LE vA, vB` (R134) -/
  | le (ra rb : Reg)
  /-- `GT vA, vB` (R135) -/
  | gt (ra rb : Reg)
  /-- `GE vA, vB` (R136) -/
  | ge (ra rb : Reg)
  /-- `NOT vD, vA` (R140) -/
  | not (rd ra : Reg)
  /-- `AND vD, vA, vB` (R141) -/
  | and (rd ra rb : Reg)
  /-- `OR vD, vA, vB` (R142) -/
  | or (rd ra rb : Reg)
  /-- `XOR vD, vA, vB` (R143) -/
  | xor (rd ra rb : Reg)
  /-- `SHL vD, vA, k` (R144) -/
  | shl (rd ra : Reg) (k : Word)
  /-- `SHR vD, vA, k` (R145) -/
  | shr (rd ra : Reg) (k : Word)
  /-- `SHRU vD, vA, k` (R146) -/
  | shru (rd ra : Reg) (k : Word)
  /-- `ISSET vA, i` (R147) -/
  | isset (ra : Reg) (i : Word)
  /-- `SETBIT vD, vA, i, 0|1` (R148) -/
  | setbit (rd ra : Reg) (bv : Bool) (i : Word)
  /-- `BITLEN vA` (R149) -/
  | bitlen (ra : Reg)
  /-- `ADD vD, vA, vB` (R160) -/
  | add (rd ra rb : Reg)
  /-- `NEG vD, vA` (R161) -/
  | neg (rd ra : Reg)
  /-- `SUB vD, vA, vB` (R162) -/
  | sub (rd ra rb : Reg)
  /-- `ABS vD, vA` (R163) -/
  | abs (rd ra : Reg)
  /-- `MUL vD, vA, vB` (R164) -/
  | mul (rd ra rb : Reg)
  /-- `DIVMOD vQ, vR, vA, vB` (R166) -/
  | divmod (rd rd2 ra rb : Reg)
  /-- `DIV vD, vA, vB` (R167) -/
  | div (rd ra rb : Reg)
  /-- `MOD vD, vA, vB` (R168) -/
  | mod (rd ra rb : Reg)
  /-- `FROMINT vD, nbits, s|u, value` (R180) -/
  | fromint (rd : Reg) (u : Bool) (nbits : BitVec 16) (imm : Word)
  /-- `TOINT vA [, s|u]` (R181) -/
  | toint (ra : Reg) (mode : Option Bool)
  /-- `FROMW vD, nbits, s|u, addr, nwords` (R182) -/
  | fromw (rd : Reg) (u : Bool) (nbits addr len : BitVec 16)
  /-- `TOW vA, addr` (R183) -/
  | tow (ra : Reg) (addr : BitVec 16)
  /-- `FROMB vD, nbits, s|u, addr, nbytes` (R184) -/
  | fromb (rd : Reg) (u : Bool) (nbits addr len : BitVec 16)
  /-- `TOB vA, addr` (R185) -/
  | tob (ra : Reg) (addr : BitVec 16)
  /-- `PARSE vD, nbits, s|u, radix, addr, len` (R190) -/
  | parse (rd : Reg) (u : Bool) (nbits : BitVec 16) (radix : BitVec 8) (addr len : BitVec 16)
  /-- `FMT vA, radix, addr` (R195) -/
  | fmt (ra : Reg) (radix : BitVec 8) (addr : BitVec 16)
  /-- `DBG vA, addr [, sp]` (R199) -/
  | dbg (ra : Reg) (sp : Bool) (addr : BitVec 16)
  /-- `CLRE` (R210) -/
  | clre
  deriving DecidableEq, Repr

end Sys2Proof
end

