-- ==== Sys2Proof/WellFormed.lean ====
section
/-!
DEFINITION. Which terms of `Instr` are commands. The types of the fields already exclude the other illegal values of
30_encoding R80 (a constant id above 7, `uov = 0` with `uval = 1`, a non-zero unused field); what is left is
condition (6): `DIVMOD` with `rd = rd2` is illegal (R80, D30).
-/
namespace Sys2Proof

/-- The check a term must pass to be a command (R80). -/
def Instr.wellFormed : Instr → Bool
  | .divmod rd rd2 _ _ => rd != rd2
  | .ldc _ _ _ | .cast _ _ _ _ | .cmp _ _ | .eq _ _ | .ne _ _ | .lt _ _ | .le _ _ | .gt _ _ | .ge _ _ => true
  | .not _ _ | .and _ _ _ | .or _ _ _ | .xor _ _ _ | .shl _ _ _ | .shr _ _ _ | .shru _ _ _ => true
  | .isset _ _ | .setbit _ _ _ _ | .bitlen _ => true
  | .add _ _ _ | .neg _ _ | .sub _ _ _ | .abs _ _ | .mul _ _ _ | .div _ _ _ | .mod _ _ _ => true
  | .fromint _ _ _ _ | .toint _ _ | .fromw _ _ _ _ _ | .tow _ _ | .fromb _ _ _ _ _ | .tob _ _ => true
  | .parse _ _ _ _ _ _ | .fmt _ _ _ | .dbg _ _ _ | .clre => true

end Sys2Proof
end

