-- ==== Sys2Proof/Decode.lean ====
section
/-!
DEFINITION. The descriptor's fields (30_encoding R71), the decoder from 128 bits to a command, total and rejecting by
name (R73 to R75, R80), and after it the encoder, written from the same tables.
-/
namespace Sys2Proof

/-- The fields of a descriptor, at the positions of R71; `rsvLow` is `D[31:29]`, `rsvHigh` is `D[63:56]`. -/
structure Fields where
  op      : BitVec 8
  rd      : Reg
  rd2     : Reg
  ra      : Reg
  rb      : Reg
  u       : Bool
  uov     : Bool
  uval    : Bool
  bv      : Bool
  sp      : Bool
  rsvLow  : BitVec 3
  nbits   : BitVec 16
  radix   : BitVec 8
  rsvHigh : BitVec 8
  imm     : Word
  addr    : BitVec 16
  len     : BitVec 16
  deriving DecidableEq, Repr

/-- The formats of R73. -/
inductive Format where
  | k | c | p | u | b | q | s | t | g | l | fi | ti | ld | st | pa | fm | db | z
  deriving DecidableEq, Repr

/-- Why a descriptor is illegal: the conditions (1) to (6) of R80. -/
inductive DecodeError where
  /-- (1) `op` is none of the 37 opcodes -/
  | unassignedOpcode
  /-- (2) a field the command's format does not use is not zero -/
  | unusedField
  /-- (3) a bit of `D[31:29]` or `D[63:56]` is not zero -/
  | reservedBit
  /-- (4) `uov = 0` and `uval = 1` in `CAST` or `TOINT` -/
  | badOverride
  /-- (5) `imm > 7` in `LDC` -/
  | badConstId
  /-- (6) `rd = rd2` in `DIVMOD` -/
  | sameDestinations
  deriving DecidableEq, Repr

/-- A descriptor's fields, none split, scaled or shifted (R71, R72). -/
def Fields.ofDescriptor (d : Descriptor) : Fields where
  op      := d.extractLsb' 0 8
  rd      := (d.extractLsb' 8 4).toFin
  rd2     := (d.extractLsb' 12 4).toFin
  ra      := (d.extractLsb' 16 4).toFin
  rb      := (d.extractLsb' 20 4).toFin
  u       := d.getLsbD 24
  uov     := d.getLsbD 25
  uval    := d.getLsbD 26
  bv      := d.getLsbD 27
  sp      := d.getLsbD 28
  rsvLow  := d.extractLsb' 29 3
  nbits   := d.extractLsb' 32 16
  radix   := d.extractLsb' 48 8
  rsvHigh := d.extractLsb' 56 8
  imm     := d.extractLsb' 64 32
  addr    := d.extractLsb' 96 16
  len     := d.extractLsb' 112 16

/-- The descriptor with the given fields, `D[127:112]` first (R71). -/
def Fields.toDescriptor (f : Fields) : Descriptor :=
  f.len ++ f.addr ++ f.imm ++ f.rsvHigh ++ f.radix ++ f.nbits ++ f.rsvLow ++ BitVec.ofBool f.sp ++
    BitVec.ofBool f.bv ++ BitVec.ofBool f.uval ++ BitVec.ofBool f.uov ++ BitVec.ofBool f.u ++
    BitVec.ofFin (w := 4) f.rb ++ BitVec.ofFin (w := 4) f.ra ++ BitVec.ofFin (w := 4) f.rd2 ++
    BitVec.ofFin (w := 4) f.rd ++ f.op

/-- Every field zero. -/
def Fields.zero : Fields :=
  ⟨0, 0, 0, 0, 0, false, false, false, false, false, 0, 0, 0, 0, 0, 0, 0⟩

/-- The fields a format uses, kept from `f`, and every other field zero (R73). -/
def Format.keep (f : Fields) : Format → Fields
  | .k => { Fields.zero with op := f.op, rd := f.rd, nbits := f.nbits, imm := f.imm }
  | .c => { Fields.zero with op := f.op, rd := f.rd, ra := f.ra, uov := f.uov, uval := f.uval, nbits := f.nbits }
  | .p => { Fields.zero with op := f.op, ra := f.ra, rb := f.rb }
  | .u => { Fields.zero with op := f.op, rd := f.rd, ra := f.ra }
  | .b => { Fields.zero with op := f.op, rd := f.rd, ra := f.ra, rb := f.rb }
  | .q => { Fields.zero with op := f.op, rd := f.rd, rd2 := f.rd2, ra := f.ra, rb := f.rb }
  | .s => { Fields.zero with op := f.op, rd := f.rd, ra := f.ra, imm := f.imm }
  | .t => { Fields.zero with op := f.op, ra := f.ra, imm := f.imm }
  | .g => { Fields.zero with op := f.op, rd := f.rd, ra := f.ra, bv := f.bv, imm := f.imm }
  | .l => { Fields.zero with op := f.op, ra := f.ra }
  | .fi => { Fields.zero with op := f.op, rd := f.rd, u := f.u, nbits := f.nbits, imm := f.imm }
  | .ti => { Fields.zero with op := f.op, ra := f.ra, uov := f.uov, uval := f.uval }
  | .ld => { Fields.zero with op := f.op, rd := f.rd, u := f.u, nbits := f.nbits, addr := f.addr, len := f.len }
  | .st => { Fields.zero with op := f.op, ra := f.ra, addr := f.addr }
  | .pa => { Fields.zero with op := f.op, rd := f.rd, u := f.u, nbits := f.nbits, radix := f.radix, addr := f.addr, len := f.len }
  | .fm => { Fields.zero with op := f.op, ra := f.ra, radix := f.radix, addr := f.addr }
  | .db => { Fields.zero with op := f.op, ra := f.ra, sp := f.sp, addr := f.addr }
  | .z => { Fields.zero with op := f.op }

/-- A sign-mode override (R72): absent, signed or unsigned; `uov = 0` with `uval = 1` is illegal (R80 (4)). -/
def decodeMode (uov uval : Bool) : Except DecodeError (Option Bool) :=
  match uov, uval with
  | false, false => .ok none
  | true, m => .ok (some m)
  | false, true => .error .badOverride

/-- The constant id of `LDC`: 0 to 7 (R72, R120); above 7 is illegal (R80 (5)). -/
def decodeConst (imm : Word) : Except DecodeError ConstId :=
  match imm.toNat with
  | 0 => .ok .zero
  | 1 => .ok .uzero
  | 2 => .ok .one
  | 3 => .ok .uone
  | 4 => .ok .minValue
  | 5 => .ok .maxValue
  | 6 => .ok .maxUnsignedValue
  | 7 => .ok .negOne
  | _ => .error .badConstId

/-- `x` if the reserved bits and the fields that format `fmt` does not use are all zero (R73, R80 (2), (3)). -/
def Fields.checked (f : Fields) (fmt : Format) (x : Except DecodeError Instr) : Except DecodeError Instr :=
  if f.rsvLow ≠ 0 ∨ f.rsvHigh ≠ 0 then .error .reservedBit
  else if fmt.keep f ≠ f then .error .unusedField
  else x

/-- The command the fields spell: the opcode map of R74, selected by `op` alone, with the legality conditions of R80. -/
def decodeFields (f : Fields) : Except DecodeError Instr :=
  match f.op.toNat with
  | 0x01 => f.checked .k ((decodeConst f.imm).map (.ldc f.rd f.nbits ·))
  | 0x02 => f.checked .c ((decodeMode f.uov f.uval).map (.cast f.rd f.ra · f.nbits))
  | 0x10 => f.checked .p (.ok (.cmp f.ra f.rb))
  | 0x11 => f.checked .p (.ok (.eq f.ra f.rb))
  | 0x12 => f.checked .p (.ok (.ne f.ra f.rb))
  | 0x13 => f.checked .p (.ok (.lt f.ra f.rb))
  | 0x14 => f.checked .p (.ok (.le f.ra f.rb))
  | 0x15 => f.checked .p (.ok (.gt f.ra f.rb))
  | 0x16 => f.checked .p (.ok (.ge f.ra f.rb))
  | 0x20 => f.checked .u (.ok (.not f.rd f.ra))
  | 0x21 => f.checked .b (.ok (.and f.rd f.ra f.rb))
  | 0x22 => f.checked .b (.ok (.or f.rd f.ra f.rb))
  | 0x23 => f.checked .b (.ok (.xor f.rd f.ra f.rb))
  | 0x24 => f.checked .s (.ok (.shl f.rd f.ra f.imm))
  | 0x25 => f.checked .s (.ok (.shr f.rd f.ra f.imm))
  | 0x26 => f.checked .s (.ok (.shru f.rd f.ra f.imm))
  | 0x27 => f.checked .t (.ok (.isset f.ra f.imm))
  | 0x28 => f.checked .g (.ok (.setbit f.rd f.ra f.bv f.imm))
  | 0x29 => f.checked .l (.ok (.bitlen f.ra))
  | 0x30 => f.checked .b (.ok (.add f.rd f.ra f.rb))
  | 0x31 => f.checked .u (.ok (.neg f.rd f.ra))
  | 0x32 => f.checked .b (.ok (.sub f.rd f.ra f.rb))
  | 0x33 => f.checked .u (.ok (.abs f.rd f.ra))
  | 0x34 => f.checked .b (.ok (.mul f.rd f.ra f.rb))
  | 0x35 => f.checked .q (if f.rd = f.rd2 then .error .sameDestinations else .ok (.divmod f.rd f.rd2 f.ra f.rb))
  | 0x36 => f.checked .b (.ok (.div f.rd f.ra f.rb))
  | 0x37 => f.checked .b (.ok (.mod f.rd f.ra f.rb))
  | 0x40 => f.checked .fi (.ok (.fromint f.rd f.u f.nbits f.imm))
  | 0x41 => f.checked .ti ((decodeMode f.uov f.uval).map (.toint f.ra ·))
  | 0x42 => f.checked .ld (.ok (.fromw f.rd f.u f.nbits f.addr f.len))
  | 0x43 => f.checked .st (.ok (.tow f.ra f.addr))
  | 0x44 => f.checked .ld (.ok (.fromb f.rd f.u f.nbits f.addr f.len))
  | 0x45 => f.checked .st (.ok (.tob f.ra f.addr))
  | 0x50 => f.checked .pa (.ok (.parse f.rd f.u f.nbits f.radix f.addr f.len))
  | 0x51 => f.checked .fm (.ok (.fmt f.ra f.radix f.addr))
  | 0x52 => f.checked .db (.ok (.dbg f.ra f.sp f.addr))
  | 0x7f => f.checked .z (.ok .clre)
  | _ => .error .unassignedOpcode

/-- The command a descriptor spells, or why it is illegal (R75, R80). -/
def decode (d : Descriptor) : Except DecodeError Instr := decodeFields (Fields.ofDescriptor d)

/-- The field `imm` of a constant id (R120). -/
def ConstId.imm : ConstId → Word
  | .zero => 0 | .uzero => 1 | .one => 2 | .uone => 3
  | .minValue => 4 | .maxValue => 5 | .maxUnsignedValue => 6 | .negOne => 7

/-- The fields of a command (R71 to R74): its opcode, the fields its format uses, and zero elsewhere. -/
def encodeFields : Instr → Fields
  | .ldc rd nbits c => { Fields.zero with op := 0x01, rd := rd, nbits := nbits, imm := c.imm }
  | .cast rd ra m nbits =>
    { Fields.zero with op := 0x02, rd := rd, ra := ra, uov := m.isSome, uval := m.getD false, nbits := nbits }
  | .cmp ra rb => { Fields.zero with op := 0x10, ra := ra, rb := rb }
  | .eq ra rb => { Fields.zero with op := 0x11, ra := ra, rb := rb }
  | .ne ra rb => { Fields.zero with op := 0x12, ra := ra, rb := rb }
  | .lt ra rb => { Fields.zero with op := 0x13, ra := ra, rb := rb }
  | .le ra rb => { Fields.zero with op := 0x14, ra := ra, rb := rb }
  | .gt ra rb => { Fields.zero with op := 0x15, ra := ra, rb := rb }
  | .ge ra rb => { Fields.zero with op := 0x16, ra := ra, rb := rb }
  | .not rd ra => { Fields.zero with op := 0x20, rd := rd, ra := ra }
  | .and rd ra rb => { Fields.zero with op := 0x21, rd := rd, ra := ra, rb := rb }
  | .or rd ra rb => { Fields.zero with op := 0x22, rd := rd, ra := ra, rb := rb }
  | .xor rd ra rb => { Fields.zero with op := 0x23, rd := rd, ra := ra, rb := rb }
  | .shl rd ra k => { Fields.zero with op := 0x24, rd := rd, ra := ra, imm := k }
  | .shr rd ra k => { Fields.zero with op := 0x25, rd := rd, ra := ra, imm := k }
  | .shru rd ra k => { Fields.zero with op := 0x26, rd := rd, ra := ra, imm := k }
  | .isset ra i => { Fields.zero with op := 0x27, ra := ra, imm := i }
  | .setbit rd ra bv i => { Fields.zero with op := 0x28, rd := rd, ra := ra, bv := bv, imm := i }
  | .bitlen ra => { Fields.zero with op := 0x29, ra := ra }
  | .add rd ra rb => { Fields.zero with op := 0x30, rd := rd, ra := ra, rb := rb }
  | .neg rd ra => { Fields.zero with op := 0x31, rd := rd, ra := ra }
  | .sub rd ra rb => { Fields.zero with op := 0x32, rd := rd, ra := ra, rb := rb }
  | .abs rd ra => { Fields.zero with op := 0x33, rd := rd, ra := ra }
  | .mul rd ra rb => { Fields.zero with op := 0x34, rd := rd, ra := ra, rb := rb }
  | .divmod rd rd2 ra rb => { Fields.zero with op := 0x35, rd := rd, rd2 := rd2, ra := ra, rb := rb }
  | .div rd ra rb => { Fields.zero with op := 0x36, rd := rd, ra := ra, rb := rb }
  | .mod rd ra rb => { Fields.zero with op := 0x37, rd := rd, ra := ra, rb := rb }
  | .fromint rd u nbits imm => { Fields.zero with op := 0x40, rd := rd, u := u, nbits := nbits, imm := imm }
  | .toint ra m => { Fields.zero with op := 0x41, ra := ra, uov := m.isSome, uval := m.getD false }
  | .fromw rd u nbits addr len =>
    { Fields.zero with op := 0x42, rd := rd, u := u, nbits := nbits, addr := addr, len := len }
  | .tow ra addr => { Fields.zero with op := 0x43, ra := ra, addr := addr }
  | .fromb rd u nbits addr len =>
    { Fields.zero with op := 0x44, rd := rd, u := u, nbits := nbits, addr := addr, len := len }
  | .tob ra addr => { Fields.zero with op := 0x45, ra := ra, addr := addr }
  | .parse rd u nbits radix addr len =>
    { Fields.zero with op := 0x50, rd := rd, u := u, nbits := nbits, radix := radix, addr := addr, len := len }
  | .fmt ra radix addr => { Fields.zero with op := 0x51, ra := ra, radix := radix, addr := addr }
  | .dbg ra sp addr => { Fields.zero with op := 0x52, ra := ra, sp := sp, addr := addr }
  | .clre => { Fields.zero with op := 0x7f }

/-- The descriptor of a command (R70, R71). -/
def encode (i : Instr) : Descriptor := (encodeFields i).toDescriptor

/-- The descriptor whose bits are `w`, of which the table gives the low `nbits`; the bits above are zero. -/
def descriptorOfWord (nbits w : Nat) : Descriptor := BitVec.ofNat 128 (w % 2 ^ nbits)

/-- What the decoder reads from a table word: every row has 128 bits, numbered as R71 numbers them. -/
def decodeTableWord (nbits w : Nat) : Option Instr := (decode (descriptorOfWord nbits w)).toOption

end Sys2Proof
end

