-- ==== Sys2Proof/Config.lean ====
section
/-!
DEFINITION. What an implementation fixes, and the one free value. The two OPEN parameters of 00_scope R5 are not
constants here: the machine holds them in CFG (10_state R29), so a statement about every state is a statement about
every choice of them. This file names the suggested values, which only `State.reset` uses.
-/
namespace Sys2Proof

/-- R5: the suggested MAXBITS. DESIGN CHOICE (log 4): unsafe for statements about `State.reset` alone. -/
def Config.suggestedMaxBits : Nat := 128

/-- R5: the suggested BUFSIZE. DESIGN CHOICE (log 4): unsafe for statements about `State.reset` alone. -/
def Config.suggestedBufSize : Nat := 65536

/-- The byte a BUF address holds when nothing has written it since reset number `draw`: "any byte values, not
necessarily the same after each reset" (R37), "a free draw, fixed once drawn" (93_implementation_defined U1). It has
no body: nothing can be proved of its value. Safe (log 3). -/
opaque Config.freeByte (draw addr : Nat) : Byte

end Sys2Proof
end

