-- ==== Sys2Proof/Machine/State.lean ====
section
/-!
DEFINITION. The machine's state as plain data: all that 10_state gives the unit (R34: V0 .. V15, RES, STATUS and BUF,
with the constant CFG of R29), and the host's side of the interface of R35 (the transactions to come and the latest
answer). Also the reasons a step can stop, and the state right after reset (R37).
-/
namespace Sys2Proof.Machine

/-- An Integer Value (R20): its bytes, least significant first, and the `unsigned` flag. The width tag is the byte
count: `N = 8 * bytes.length` (R20: "always exactly the width's byte count"; log 8, safe). -/
structure IntVal where
  bytes    : List Byte
  unsigned : Bool
  deriving DecidableEq, Repr

/-- The fields of STATUS (R26); its bits 31:6 are reserved, read as 0 and have no storage. -/
structure Status where
  /-- `ERR`, bits 3:0: the error code of the most recent command -/
  err : BitVec 4
  /-- `EF`, bit 4: the sticky error flag -/
  ef  : Bool
  /-- `RU`, bit 5: the sign mode of the most recent successful `TOINT` -/
  ru  : Bool
  deriving DecidableEq, Repr

/-- The registers the host can read: numbers 0, 1 and 2 (R26, R25, R29, R35). -/
inductive HostReg where
  | status | res | cfg
  deriving DecidableEq, Repr

/-- The five host transactions (R35). -/
inductive Transaction where
  | issue (d : Descriptor)
  | readReg (r : HostReg)
  | readBuf (a : Nat)
  | writeBuf (a : Nat) (b : Byte)
  | reset
  deriving DecidableEq, Repr

/-- What a read transaction returned to the host (R35). -/
inductive Reply where
  | reg (w : Word)
  | byte (b : Byte)
  deriving DecidableEq, Repr

/-- The state of the unit and of its host. -/
structure State where
  /-- V0 .. V15, each empty or one Integer Value (R22) -/
  v       : Vector (Option IntVal) 16
  /-- RES (R25) -/
  res     : Word
  /-- STATUS (R26) -/
  status  : Status
  /-- CFG (R29): MAXBITS in bits 15:0, BUFSIZE - 1 in bits 31:16; no step changes it -/
  cfg     : Word
  /-- BUF (R30): the bytes written since the last reset, by rising address -/
  buf     : List Host.Cell
  /-- the model's own: which draw of the unspecified BUF contents is in force (R37, U1; log 3) -/
  draw    : Nat
  /-- the host's: the transactions to come, the next one first (R27, R35; log 1) -/
  pending : List Transaction
  /-- the host's: what its latest read transaction returned (R35; log 2) -/
  reply   : Option Reply
  deriving DecidableEq, Repr

/-- Why the machine can stop. No command stops it: an error of a command is a next state (R224, R226). -/
inductive Fault where
  /-- Raised by the transactions `ReadBuf` and `WriteBuf` on an address at or above BUFSIZE, which does not exist (R30,
  R35 give them only for `0 <= a < BUFSIZE`; log 6). Safe: the model stops where the spec gives no behaviour. -/
  | hostBufAddress
  deriving DecidableEq, Repr

/-- Why a command has no meaning. -/
inductive Refusal where
  /-- Answered by `exec` for a command that has no meaning yet. Safe; no command is refused in this model. -/
  | notModelled (mnemonic : String)
  deriving DecidableEq, Repr

/-- CFG of a unit with the given parameters (R29). -/
def cfgWord (maxBits bufSize : Nat) : Word := BitVec.ofNat 16 (bufSize - 1) ++ BitVec.ofNat 16 maxBits

/-- The machine right after reset (R37, R240): every value register empty, RES and STATUS zero, CFG its constant, BUF
unspecified. DESIGN CHOICE: the parameters in CFG (log 4), the first draw of BUF (log 3), no transaction pending
(log 1), nothing answered yet (log 2). -/
def State.reset : State where
  v       := Vector.replicate 16 none
  res     := 0
  status  := ⟨0, false, false⟩
  cfg     := cfgWord Config.suggestedMaxBits Config.suggestedBufSize
  buf     := []
  draw    := 0
  pending := []
  reply   := none

end Sys2Proof.Machine
end

