-- ==== Sys2Proof/Machine/Flags.lean ====
section
/-!
DEFINITION. The error codes and every update of STATUS (10_state R26, 60_exceptions R220, R224), and the numbers in
which RES holds scalar results (42_compare R130 to R136, 92_eei_decisions D27).
-/
namespace Sys2Proof.Machine

/-- The seven errors (R220). -/
inductive Error where
  | illegalCommand | invalidWidth | invalidOperand | radixOutOfRange | bufRange | divisionByZero | invalidDigit
  deriving DecidableEq, Repr

/-- The code of an error in `STATUS.ERR` (R220); codes 8 to 15 are never produced. -/
def Error.code : Error → BitVec 4
  | .illegalCommand  => 1
  | .invalidWidth    => 2
  | .invalidOperand  => 3
  | .radixOutOfRange => 4
  | .bufRange        => 5
  | .divisionByZero  => 6
  | .invalidDigit    => 7

/-- STATUS after a command that succeeds: `ERR <- 0`, the rest unchanged (R100 step 8). -/
def Status.succeeded (st : Status) : Status := { st with err := 0 }

/-- STATUS after a command that raises `e`: `ERR <- code`, `EF <- 1`, `RU` unchanged (R224). -/
def Status.raised (st : Status) (e : Error) : Status := { st with err := e.code, ef := true }

/-- STATUS with the sticky error flag cleared (R210). -/
def Status.cleared (st : Status) : Status := { st with ef := false }

/-- STATUS with the sign mode a `TOINT` requested (R181). -/
def Status.withRu (st : Status) (u : Bool) : Status := { st with ru := u }

/-- STATUS as the host reads it: bits 31:6 read as 0 (R26). -/
def Status.word (st : Status) : Word := (0 : BitVec 26) ++ BitVec.ofBool st.ru ++ BitVec.ofBool st.ef ++ st.err

/-- The number `CMP` leaves in RES: -1, 0 or +1 modulo `2^32` (R130). -/
def orderWord : Ordering → Word
  | .lt => 0xffffffff
  | .eq => 0
  | .gt => 1

/-- The number a predicate leaves in RES: 1 or 0 (R131 to R136, R147). -/
def boolWord (b : Bool) : Word := if b then 1 else 0

end Sys2Proof.Machine
end

