-- ==== Sys2Proof/Machine/Ops.lean ====
section
/-!
DEFINITION. The named operations over the state: the parameters in CFG, the value registers, BUF, raising an error
(the machine's one way to take an exception, 60_exceptions R224) and ending a command (40_common R100 step 8).
-/
namespace Sys2Proof.Machine

/-- MAXBITS, from CFG bits 15:0 (R29). -/
def State.maxBits (s : State) : Nat := (s.cfg.extractLsb' 0 16).toNat

/-- BUFSIZE, from CFG bits 31:16, which hold BUFSIZE - 1 (R29). -/
def State.bufSize (s : State) : Nat := (s.cfg.extractLsb' 16 16).toNat + 1

/-- `V[r] <- x`: the whole register is replaced (R23). -/
def State.setV (s : State) (r : Reg) (x : IntVal) : State := { s with v := s.v.set r (some x) }

/-- `RES <- x mod 2^32` (R8, R25). -/
def State.setRes (s : State) (x : Word) : State := { s with res := x }

/-- `STATUS.RU <- u` (R181). -/
def State.setRu (s : State) (u : Bool) : State := { s with status := s.status.withRu u }

/-- `STATUS.EF <- 0` (R210). -/
def State.clearEf (s : State) : State := { s with status := s.status.cleared }

/-- The canonical form of BUF's list: addresses strictly rising, so each written byte is listed once. A byte that
nothing has written since reset is not listed and has no fixed value (log 3). -/
abbrev Memory.wf (m : List Host.Cell) : Prop := m.Pairwise (fun x y => x.1 < y.1)

/-- The byte written at `a`, if one has been. -/
def Memory.read? : List Host.Cell → Nat → Option Byte
  | [], _ => none
  | (x, b) :: m, a => if x = a then some b else Memory.read? m a

/-- `m` with byte `b` at `a`. -/
def Memory.write : List Host.Cell → Nat → Byte → List Host.Cell
  | [], a, b => [(a, b)]
  | (x, c) :: m, a, b =>
    if a < x then (a, b) :: (x, c) :: m
    else if a = x then (a, b) :: m
    else (x, c) :: Memory.write m a b

/-- `m` with the bytes `bs` at `a`, `a + 1`, …, lowest address first (R8). -/
def Memory.writeBytes : List Host.Cell → Nat → List Byte → List Host.Cell
  | m, _, [] => m
  | m, a, b :: bs => Memory.writeBytes (Memory.write m a b) (a + 1) bs

/-- `BUF[a]`: the last byte written to it (R54), and where nothing has been written since reset the free byte of the
draw in force (R37, U1). -/
def State.bufByte (s : State) (a : Nat) : Byte := (Memory.read? s.buf a).getD (Config.freeByte s.draw a)

/-- `BUF[a .. a+n-1]`, lowest address first (R8). -/
def State.bufBytes (s : State) (a n : Nat) : List Byte := (List.range n).map fun i => s.bufByte (a + i)

/-- `BUF[a ..] <- bs`, lowest address first (R8). -/
def State.setBuf (s : State) (a : Nat) (bs : List Byte) : State := { s with buf := Memory.writeBytes s.buf a bs }

/-- The range check of R55: the access `[a, a+n)` stays within BUF; `n = 0` never fails, whatever `a` is. -/
def State.inBuf (s : State) (a n : Nat) : Bool := n == 0 || decide (a + n ≤ s.bufSize)

/-- `raise e`: `STATUS.ERR <- code`, `STATUS.EF <- 1`, and nothing else (R224). -/
def State.raise (s : State) (e : Error) : State := { s with status := s.status.raised e }

/-- A command that succeeds ends with `STATUS.ERR <- 0` (R100 step 8). -/
def State.succeed (s : State) : State := { s with status := s.status.succeeded }

/-- The end of a command issued in `s` whose rule gave `r`: its writes, all at once, or the error it raised and none of
them (R9, R100 step 8, R224). There is no return to make: the unit accepts the next command either way (R226). -/
def State.finish (s : State) (r : Except Error State) : Host.Outcome State Fault Refusal :=
  match r with
  | .ok t    => .next t.succeed
  | .error e => .next (s.raise e)

/-- The unit after the transaction `Reset` (R37, R240): every register and BUF as after reset, BUF under a fresh draw
(U8), CFG its constant; what is the host's stays (log 11). -/
def State.resetUnit (s : State) : State :=
  { State.reset with cfg := s.cfg, draw := s.draw + 1, pending := s.pending, reply := s.reply }

end Sys2Proof.Machine
end

