-- ==== Sys2Proof/Machine/Value.lean ====
section
/-!
DEFINITION. The value functions of 00_scope R6 and R7 and the constructors of 10_state R20 and R21, on which every
command's rule is written.
-/
namespace Sys2Proof.Machine

/-- The natural number a list of bytes spells, least significant byte first: the sum of `bytes[i] * 256^i` (R7). -/
def natOfBytes : List Byte → Nat
  | [] => 0
  | b :: bs => b.toNat + 256 * natOfBytes bs

/-- The `nb` little-endian bytes of `x mod 256^nb` (R21). -/
def bytesOfNat : Nat → Nat → List Byte
  | 0, _ => []
  | nb + 1, x => BitVec.ofNat 8 x :: bytesOfNat nb (x / 256)

/-- `nb`, the byte count of a value (R6). -/
def IntVal.nb (v : IntVal) : Nat := v.bytes.length

/-- `N`, the width of a value in bits (R20). -/
def IntVal.width (v : IntVal) : Nat := 8 * v.nb

/-- `bytes[i]`, zero at or beyond `nb` (R51 reads bytes beyond the width as 0). -/
def IntVal.byteAt (v : IntVal) (i : Nat) : Byte := v.bytes.getD i 0

/-- Bit `i` of the value: bit `i mod 8` of `bytes[i div 8]` (R6). -/
def IntVal.bit (v : IntVal) (i : Nat) : Bool := (v.byteAt (i / 8)).getLsbD (i % 8)

/-- `ubits(v)` (R7). -/
def IntVal.ubits (v : IntVal) : Nat := natOfBytes v.bytes

/-- `isNeg(v)`: signed, with bit `N-1` set (R7). -/
def IntVal.isNeg (v : IntVal) : Bool := !v.unsigned && v.bit (v.width - 1)

/-- `val(v)`: the integer the value denotes under its own flag (R7). -/
def IntVal.val (v : IntVal) : Int := if v.isNeg then (v.ubits : Int) - 2 ^ v.width else v.ubits

/-- `isZero(v)` (R7). -/
def IntVal.isZero (v : IntVal) : Bool := v.ubits == 0

/-- `retag(v, u)` (R7). -/
def IntVal.retag (v : IntVal) (u : Bool) : IntVal := { v with unsigned := u }

/-- `fromBytes(8*nb, bs, u)`: `bs` truncated or zero-padded to `nb` bytes (R21). -/
def IntVal.fromBytes (nb : Nat) (bs : List Byte) (u : Bool) : IntVal :=
  ⟨bs.take nb ++ List.replicate (nb - bs.length) 0, u⟩

/-- `mk(8*nb, x, u)` for a natural number `x` (R7, R21). -/
def IntVal.ofNat (nb x : Nat) (u : Bool) : IntVal := ⟨bytesOfNat nb x, u⟩

/-- `mk(8*nb, x, u)` for any integer `x`: `ubits = x mod 2^(8*nb)` (R7). -/
def IntVal.ofInt (nb : Nat) (x : Int) (u : Bool) : IntVal := IntVal.ofNat nb (x % 2 ^ (8 * nb)).toNat u

/-- `coerce(v, 8*nb)`: truncated or zero-padded, not sign-aware, its own flag kept (40_common R105). -/
def IntVal.coerce (v : IntVal) (nb : Nat) : IntVal := IntVal.fromBytes nb v.bytes v.unsigned

end Sys2Proof.Machine
end

