-- ==== Sys2Proof/Machine/Operands.lean ====
section
/-!
DEFINITION. Every operand form of a descriptor and the checks that come before every operation, each raising its error
in the order in which a meaning calls them (40_common R100 steps 2 to 7).
-/
namespace Sys2Proof.Machine

/-- `WidthOK(nbits)` (R103). -/
def State.widthOk (s : State) (nbits : BitVec 16) : Bool :=
  decide (0 < nbits.toNat) && decide (nbits.toNat % 8 = 0) && decide (nbits.toNat ≤ s.maxBits)

/-- The byte count of the width `nbits`, or `InvalidWidth` (R100 step 2, R103). -/
def State.widthOf (s : State) (nbits : BitVec 16) : Except Error Nat :=
  if s.widthOk nbits then .ok (nbits.toNat / 8) else .error .invalidWidth

/-- The value in a source register, or `InvalidOperand` when it is empty (R100 step 3, R104). -/
def State.operand (s : State) (r : Reg) : Except Error IntVal :=
  match s.v.get r with
  | some x => .ok x
  | none   => .error .invalidOperand

/-- The two operands of a binary command: the receiver, and the second operand coerced to its width (R105). -/
def State.operands (s : State) (ra rb : Reg) : Except Error (IntVal × IntVal) := do
  let a ← s.operand ra
  let b ← s.operand rb
  return (a, b.coerce a.nb)

/-- A radix of the string codec, 2 to 36, or `RadixOutOfRange` (R100 step 4). -/
def radixOf (radix : BitVec 8) : Except Error Nat :=
  if radix.toNat < 2 ∨ 36 < radix.toNat then .error .radixOutOfRange else .ok radix.toNat

/-- `MemRead(addr, n)`, or `BufRange` (R8, R55, R100 step 5). -/
def State.load (s : State) (addr : BitVec 16) (n : Nat) : Except Error (List Byte) :=
  if s.inBuf addr.toNat n then .ok (s.bufBytes addr.toNat n) else .error .bufRange

/-- `MemWrite(addr, length bs, bs)`, or `BufRange` and no byte written (R8, R55, R100 step 7). -/
def State.store (s : State) (addr : BitVec 16) (bs : List Byte) : Except Error State :=
  if s.inBuf addr.toNat bs.length then .ok (s.setBuf addr.toNat bs) else .error .bufRange

/-- The sign mode an override asks for, or the inherited one (R72, R122, R181). -/
def signMode (mode : Option Bool) (inherited : Bool) : Bool := mode.getD inherited

/-- A shift count: `imm` as an unsigned number, reduced modulo the width (43_bitwise, R144 to R146). -/
def shiftCount (a : IntVal) (imm : Word) : Nat := imm.toNat % a.width

end Sys2Proof.Machine
end

