-- ==== Sys2Proof/Machine/Bitwise.lean ====
section
/-!
DEFINITION. The bitwise engine (43_bitwise): NOT, AND, OR, XOR, SHL, SHR, SHRU, ISSET, SETBIT, BITLEN. Results take the
receiver's width and flag (40_common R106).
-/
namespace Sys2Proof.Machine

/-- `not(a)`: every byte complemented (R140). -/
def IntVal.not (a : IntVal) : IntVal := { a with bytes := a.bytes.map fun b => ~~~b }

/-- `and(a, b)`, byte by byte (R141). -/
def IntVal.and (a b : IntVal) : IntVal := { a with bytes := List.zipWith (fun x y => x &&& y) a.bytes b.bytes }

/-- `or(a, b)`, byte by byte (R142). -/
def IntVal.or (a b : IntVal) : IntVal := { a with bytes := List.zipWith (fun x y => x ||| y) a.bytes b.bytes }

/-- `xor(a, b)`, byte by byte (R143). -/
def IntVal.xor (a b : IntVal) : IntVal := { a with bytes := List.zipWith (fun x y => x ^^^ y) a.bytes b.bytes }

/-- Byte `j` of `shl(a, k)` (R144): the low byte of `a.bytes[j-q] << r` joined with the spill of `a.bytes[j-q-1] << r`,
for `q = k div 8`, `r = k mod 8`. -/
def IntVal.shlByte (a : IntVal) (k j : Nat) : Byte :=
  (if k / 8 ≤ j then a.byteAt (j - k / 8) <<< (k % 8) else 0) |||
  (if k / 8 + 1 ≤ j then a.byteAt (j - (k / 8 + 1)) >>> (8 - k % 8) else 0)

/-- `shl(a, k)` for a count already reduced (R144). -/
def IntVal.shl (a : IntVal) (k : Nat) : IntVal := { a with bytes := (List.range a.nb).map (a.shlByte k) }

/-- Byte `j` of a right shift (R145): `byte(x)` is `a.bytes[x]` below `nb` and `fill` from there on. -/
def IntVal.shrByte (a : IntVal) (fill : Byte) (k j : Nat) : Byte :=
  (a.bytes.getD (j + k / 8) fill >>> (k % 8)) ||| (a.bytes.getD (j + k / 8 + 1) fill <<< (8 - k % 8))

/-- A right shift whose vacated bytes and bits come from `fill` (R145, R146). -/
def IntVal.shiftRight (a : IntVal) (fill : Byte) (k : Nat) : IntVal :=
  { a with bytes := (List.range a.nb).map (a.shrByte fill k) }

/-- `shr(a, k)`: 1s enter exactly when `a` is negative under its own flag (R145, R107). -/
def IntVal.shr (a : IntVal) (k : Nat) : IntVal := a.shiftRight (if a.isNeg then 0xff else 0x00) k

/-- `shru(a, k)`: 0s enter (R146). -/
def IntVal.shru (a : IntVal) (k : Nat) : IntVal := a.shiftRight 0x00 k

/-- Bit `i` of the value, 0 at or beyond the width (R147). -/
def IntVal.isSet (a : IntVal) (i : Nat) : Bool := if i < a.width then a.bit i else false

/-- `setbit(a, i, bv)`: beyond the width the value itself (R148). -/
def IntVal.setBit (a : IntVal) (i : Nat) (bv : Bool) : IntVal :=
  if a.width ≤ i then a
  else if bv then { a with bytes := a.bytes.set (i / 8) (a.byteAt (i / 8) ||| ((1 : Byte) <<< (i % 8))) }
  else { a with bytes := a.bytes.set (i / 8) (a.byteAt (i / 8) &&& ~~~((1 : Byte) <<< (i % 8))) }

/-- `bitLength(a)`: one more than the highest set bit, 0 for zero (R149). -/
def IntVal.bitLength (a : IntVal) : Nat :=
  (List.range a.width).foldl (fun l i => if a.bit i then i + 1 else l) 0

/-- The shape of `AND`, `OR` and `XOR` and of the binary arithmetic commands: read both operands, write `V[rd]`. -/
def binaryCommand (op : IntVal → IntVal → IntVal) (rd ra rb : Reg) (s : State) : Except Error State := do
  let (a, b) ← s.operands ra rb
  return s.setV rd (op a b)

/-- The shape of a command with one source and a destination. -/
def unaryCommand (op : IntVal → IntVal) (rd ra : Reg) (s : State) : Except Error State := do
  let a ← s.operand ra
  return s.setV rd (op a)

/-- The shape of a command with one source whose result goes to RES. -/
def scalarCommand (op : IntVal → Word) (ra : Reg) (s : State) : Except Error State := do
  let a ← s.operand ra
  return s.setRes (op a)

/-- `NOT` (R140). -/
def execNot (rd ra : Reg) (s : State) : Host.Outcome State Fault Refusal :=
  s.finish (unaryCommand IntVal.not rd ra s)

/-- `AND` (R141). -/
def execAnd (rd ra rb : Reg) (s : State) : Host.Outcome State Fault Refusal :=
  s.finish (binaryCommand IntVal.and rd ra rb s)

/-- `OR` (R142). -/
def execOr (rd ra rb : Reg) (s : State) : Host.Outcome State Fault Refusal :=
  s.finish (binaryCommand IntVal.or rd ra rb s)

/-- `XOR` (R143). -/
def execXor (rd ra rb : Reg) (s : State) : Host.Outcome State Fault Refusal :=
  s.finish (binaryCommand IntVal.xor rd ra rb s)

/-- `SHL` (R144). -/
def execShl (rd ra : Reg) (k : Word) (s : State) : Host.Outcome State Fault Refusal :=
  s.finish (unaryCommand (fun a => a.shl (shiftCount a k)) rd ra s)

/-- `SHR` (R145). -/
def execShr (rd ra : Reg) (k : Word) (s : State) : Host.Outcome State Fault Refusal :=
  s.finish (unaryCommand (fun a => a.shr (shiftCount a k)) rd ra s)

/-- `SHRU` (R146). -/
def execShru (rd ra : Reg) (k : Word) (s : State) : Host.Outcome State Fault Refusal :=
  s.finish (unaryCommand (fun a => a.shru (shiftCount a k)) rd ra s)

/-- `ISSET` (R147). -/
def execIsset (ra : Reg) (i : Word) (s : State) : Host.Outcome State Fault Refusal :=
  s.finish (scalarCommand (fun a => boolWord (a.isSet i.toNat)) ra s)

/-- `SETBIT` (R148). -/
def execSetbit (rd ra : Reg) (bv : Bool) (i : Word) (s : State) : Host.Outcome State Fault Refusal :=
  s.finish (unaryCommand (fun a => a.setBit i.toNat bv) rd ra s)

/-- `BITLEN` (R149). -/
def execBitlen (ra : Reg) (s : State) : Host.Outcome State Fault Refusal :=
  s.finish (scalarCommand (fun a => BitVec.ofNat 32 a.bitLength) ra s)

end Sys2Proof.Machine
end

