-- ==== Sys2Proof/Machine/Arithmetic.lean ====
section
/-!
DEFINITION. The arithmetic engine (44_arithmetic): ADD, NEG, SUB, ABS, MUL, DIVMOD, DIV, MOD. Only results are
observable (no timing is architectural, 70_reset_and_hazards R250), so addition, multiplication and division are
written in the closed form their rules state; the iterative pseudocode of the same rules is Machine/Algorithms.lean
(log 9, safe).
-/
namespace Sys2Proof.Machine

/-- `add(a, b)`: `(ubits(a) + ubits(b)) mod 2^N`, flag of `a` (R160). -/
def IntVal.add (a b : IntVal) : IntVal := IntVal.ofNat a.nb (a.ubits + b.ubits) a.unsigned

/-- `negate(a) = add(not(a), ONE_N)`, flag of `a` (R161). -/
def IntVal.negate (a : IntVal) : IntVal := a.not.add (IntVal.fromBytes a.nb [0x01] false)

/-- `sub(a, b) = add(a, negate(b))` (R162). -/
def IntVal.sub (a b : IntVal) : IntVal := a.add b.negate

/-- `absolute(a)`: always unsigned (R163). -/
def IntVal.absolute (a : IntVal) : IntVal :=
  if a.unsigned then a else if a.isNeg then a.negate.retag true else a.retag true

/-- `multiply(a, b)`: the low `N` bits of the product, flag of `a` (R164). -/
def IntVal.mul (a b : IntVal) : IntVal := IntVal.ofNat a.nb (a.ubits * b.ubits) a.unsigned

/-- The quotient of R165: truncated toward zero, in the dividend's mode; zero dividend short-circuits to zero. -/
def IntVal.quot (a b : IntVal) : IntVal :=
  if a.isZero then IntVal.ofNat a.nb 0 a.unsigned else IntVal.ofInt a.nb (a.val.tdiv b.val) a.unsigned

/-- The remainder of R165: it has the dividend's sign; zero dividend short-circuits to the dividend. -/
def IntVal.rem (a b : IntVal) : IntVal :=
  if a.isZero then a else IntVal.ofInt a.nb (a.val.tmod b.val) a.unsigned

/-- `divmod(a, b)`: a zero divisor raises `DivisionByZero`, whatever the dividend (R165, 90_conflicts C5). -/
def IntVal.divmod (a b : IntVal) : Except Error (IntVal × IntVal) :=
  if b.isZero then .error .divisionByZero else .ok (a.quot b, a.rem b)

/-- `ADD` (R160). -/
def execAdd (rd ra rb : Reg) (s : State) : Host.Outcome State Fault Refusal :=
  s.finish (binaryCommand IntVal.add rd ra rb s)

/-- `NEG` (R161). -/
def execNeg (rd ra : Reg) (s : State) : Host.Outcome State Fault Refusal :=
  s.finish (unaryCommand IntVal.negate rd ra s)

/-- `SUB` (R162). -/
def execSub (rd ra rb : Reg) (s : State) : Host.Outcome State Fault Refusal :=
  s.finish (binaryCommand IntVal.sub rd ra rb s)

/-- `ABS` (R163). -/
def execAbs (rd ra : Reg) (s : State) : Host.Outcome State Fault Refusal :=
  s.finish (unaryCommand IntVal.absolute rd ra s)

/-- `MUL` (R164). -/
def execMul (rd ra rb : Reg) (s : State) : Host.Outcome State Fault Refusal :=
  s.finish (binaryCommand IntVal.mul rd ra rb s)

/-- `DIVMOD` (R166). The decoder refuses `rd = rd2`; a term with `rd = rd2` raises `IllegalCommand` here too (R80 (6),
log 12). -/
def execDivmod (rd rd2 ra rb : Reg) (s : State) : Host.Outcome State Fault Refusal :=
  s.finish do
    if rd = rd2 then throw .illegalCommand
    let (a, b) ← s.operands ra rb
    let (q, r) ← a.divmod b
    return (s.setV rd q).setV rd2 r

/-- `DIV` (R167). -/
def execDiv (rd ra rb : Reg) (s : State) : Host.Outcome State Fault Refusal :=
  s.finish do
    let (a, b) ← s.operands ra rb
    let (q, _) ← a.divmod b
    return s.setV rd q

/-- `MOD` (R168). -/
def execMod (rd ra rb : Reg) (s : State) : Host.Outcome State Fault Refusal :=
  s.finish do
    let (a, b) ← s.operands ra rb
    let (_, r) ← a.divmod b
    return s.setV rd r

end Sys2Proof.Machine
end

