-- ==== Sys2Proof/Machine/Codec.lean ====
section
/-!
DEFINITION. The string codec (46_string_codec): PARSE, FMT, DBG. A string is the list of its ASCII bytes, first
character first (20_memory R52, R62).
-/
namespace Sys2Proof.Machine

/-- `digit(c)`: the value of a character of the alphabet `0-9a-z`, or none (R62). -/
def digitOf (c : Byte) : Option Nat :=
  if 0x30 ≤ c.toNat ∧ c.toNat ≤ 0x39 then some (c.toNat - 0x30)
  else if 0x61 ≤ c.toNat ∧ c.toNat ≤ 0x7a then some (c.toNat - 0x61 + 10)
  else none

/-- `digitchar(d)` for `0 <= d <= 35` (R62). -/
def digitChar (d : Nat) : Byte := if d ≤ 9 then BitVec.ofNat 8 (0x30 + d) else BitVec.ofNat 8 (0x61 + d - 10)

/-- The character `-` (R62). -/
def charMinus : Byte := 0x2d
/-- The character `+` (R62). -/
def charPlus : Byte := 0x2b
/-- The space (R62). -/
def charSpace : Byte := 0x20
/-- The character `U` (R62), the marker of an unsigned value (R199). -/
def charU : Byte := 0x55

/-- The text `"0"` (R190). -/
def textZero : List Byte := [0x30]
/-- The text `"NaN"` (R62). -/
def textNaN : List Byte := [0x4e, 0x61, 0x4e]
/-- The text `"Infinity"` (R62). -/
def textInfinity : List Byte := [0x49, 0x6e, 0x66, 0x69, 0x6e, 0x69, 0x74, 0x79]

/-- The digit loop of `PARSE` over the characters from the last to the first: `pw` is the running power of the radix
`r`; a character that is no digit below the radix raises `InvalidDigit` (R190). -/
def parseDigits (r : IntVal) (radix : Nat) : List Byte → IntVal → IntVal → Except Error IntVal
  | [], result, _ => .ok result
  | c :: cs, result, pw =>
    match digitOf c with
    | some d =>
      if radix ≤ d then .error .invalidDigit
      else parseDigits r radix cs
        (result.add ((IntVal.ofNat r.nb d r.unsigned).mul pw)) (pw.mul r)
    | none => .error .invalidDigit

/-- A text without leading sign: the three short-circuit strings, then the digit loop (R190, 90_conflicts C9). -/
def parseUnsigned (nb : Nat) (u : Bool) (radix : Nat) (t : List Byte) : Except Error IntVal :=
  if t = textZero ∨ t = textNaN ∨ t = textInfinity then .ok (IntVal.ofNat nb 0 u)
  else parseDigits (IntVal.ofNat nb radix u) radix t.reverse (IntVal.ofNat nb 0 u) (IntVal.ofNat nb 1 u)

/-- `parse(t)`: each leading `-` negates the rest, each leading `+` is dropped (R190). -/
def parse (nb : Nat) (u : Bool) (radix : Nat) : List Byte → Except Error IntVal
  | [] => parseUnsigned nb u radix []
  | c :: t =>
    if c = charMinus then (parse nb u radix t).map IntVal.negate
    else if c = charPlus then parse nb u radix t
    else parseUnsigned nb u radix (c :: t)

/-- The digit loop of `FMT` on a value that is not negative: divide by the radix `r`, prepend the digit of the
remainder, until the quotient is zero (R195). `fuel` bounds the passes: a width of `N` bits has at most `N` digits. -/
def formatDigits (r : IntVal) : (fuel : Nat) → IntVal → List Byte → List Byte
  | 0, _, str => str
  | fuel + 1, a, str =>
    if a.isZero then str
    else formatDigits r fuel (a.quot r) (digitChar (a.rem r).val.toNat :: str)

/-- `format(a)` for `a` positive, or negative and not `MIN_VALUE` (R195). -/
def IntVal.formatPlain (a r : IntVal) : List Byte :=
  if a.isNeg then charMinus :: formatDigits r a.width a.negate [] else formatDigits r a.width a []

/-- `format(a)`: zero, `MIN_VALUE` through its quotient and remainder, and every other value (R195). -/
def IntVal.format (a : IntVal) (radix : Nat) : List Byte :=
  let r := IntVal.ofNat a.nb radix a.unsigned
  if a.isZero then textZero
  else if a.isNeg ∧ a.bytes = List.replicate (a.nb - 1) 0x00 ++ [0x80] then
    let q := a.quot r
    q.formatPlain r ++ [digitChar ((q.mul r).sub a).val.toNat]
  else a.formatPlain r

/-- The eight characters of a byte, bit 7 first (R199). -/
def bitChars (b : Byte) : List Byte :=
  [7, 6, 5, 4, 3, 2, 1, 0].map fun i => if b.getLsbD i then (0x31 : Byte) else 0x30

/-- The characters of bytes given from the most significant down, with a space between bytes if `sp` (R199). -/
def dbgChars (sp : Bool) : List Byte → List Byte
  | [] => []
  | [b] => bitChars b
  | b :: bs => bitChars b ++ (if sp then [charSpace] else []) ++ dbgChars sp bs

/-- The debug rendering: the bits, and after an unsigned value the marker (R199). -/
def IntVal.debugText (a : IntVal) (sp : Bool) : List Byte :=
  dbgChars sp a.bytes.reverse ++ (if a.unsigned then (if sp then [charSpace, charU] else [charU]) else [])

/-- `PARSE` (R190). -/
def execParse (rd : Reg) (u : Bool) (nbits : BitVec 16) (radix : BitVec 8) (addr len : BitVec 16) (s : State) :
    Host.Outcome State Fault Refusal :=
  s.finish do
    let nb ← s.widthOf nbits
    let r ← radixOf radix
    let t ← s.load addr len.toNat
    let x ← parse nb u r t
    return s.setV rd x

/-- `FMT` (R195). -/
def execFmt (ra : Reg) (radix : BitVec 8) (addr : BitVec 16) (s : State) : Host.Outcome State Fault Refusal :=
  s.finish do
    let a ← s.operand ra
    let r ← radixOf radix
    let str := a.format r
    let t ← s.store addr str
    return t.setRes (BitVec.ofNat 32 str.length)

/-- `DBG` (R199). -/
def execDbg (ra : Reg) (sp : Bool) (addr : BitVec 16) (s : State) : Host.Outcome State Fault Refusal :=
  s.finish do
    let a ← s.operand ra
    let str := a.debugText sp
    let t ← s.store addr str
    return t.setRes (BitVec.ofNat 32 str.length)

end Sys2Proof.Machine
end

