-- ==== Sys2Proof/Machine/Compare.lean ====
section
/-!
DEFINITION. The comparator (42_compare): CMP, EQ, NE, LT, LE, GT, GE. All seven write RES only.
-/
namespace Sys2Proof.Machine

/-- Byte sequences of one length compared from the most significant byte down; the first unequal byte decides (R130). -/
def compareBytes : List Byte → List Byte → Ordering
  | x :: xs, y :: ys => (compareBytes xs ys).then (compare x.toNat y.toNat)
  | _, _ => .eq

/-- `compare(a, b)`: if exactly one operand is negative, under its own flag, it is the smaller (R130). -/
def IntVal.compare (a b : IntVal) : Ordering :=
  if a.isNeg != b.isNeg then (if a.isNeg then .lt else .gt) else compareBytes a.bytes b.bytes

/-- The shape of the seven commands: compare the receiver with the coerced second operand, write RES. -/
def compareCommand (result : Ordering → Word) (ra rb : Reg) (s : State) : Except Error State := do
  let (a, b) ← s.operands ra rb
  return s.setRes (result (a.compare b))

/-- `CMP` (R130). -/
def execCmp (ra rb : Reg) (s : State) : Host.Outcome State Fault Refusal :=
  s.finish (compareCommand orderWord ra rb s)

/-- `EQ` (R131). -/
def execEq (ra rb : Reg) (s : State) : Host.Outcome State Fault Refusal :=
  s.finish (compareCommand (fun c => boolWord (c == .eq)) ra rb s)

/-- `NE` (R132). -/
def execNe (ra rb : Reg) (s : State) : Host.Outcome State Fault Refusal :=
  s.finish (compareCommand (fun c => boolWord (c != .eq)) ra rb s)

/-- `LT` (R133). -/
def execLt (ra rb : Reg) (s : State) : Host.Outcome State Fault Refusal :=
  s.finish (compareCommand (fun c => boolWord (c == .lt)) ra rb s)

/-- `LE` (R134). -/
def execLe (ra rb : Reg) (s : State) : Host.Outcome State Fault Refusal :=
  s.finish (compareCommand (fun c => boolWord (c != .gt)) ra rb s)

/-- `GT` (R135). -/
def execGt (ra rb : Reg) (s : State) : Host.Outcome State Fault Refusal :=
  s.finish (compareCommand (fun c => boolWord (c == .gt)) ra rb s)

/-- `GE` (R136). -/
def execGe (ra rb : Reg) (s : State) : Host.Outcome State Fault Refusal :=
  s.finish (compareCommand (fun c => boolWord (c != .lt)) ra rb s)

end Sys2Proof.Machine
end

