-- ==== Sys2Proof/Machine/Conversion.lean ====
section
/-!
DEFINITION. Numeric conversion (45_numeric_conversion): FROMINT, TOINT, FROMW, TOW, FROMB, TOB.
-/
namespace Sys2Proof.Machine

/-- `fromInt(x)` at `nb` bytes with flag `u`: a negative integer goes through its magnitude, except `-2^31`, which is
taken directly (R180). -/
def fromMachineInt (nb : Nat) (u : Bool) (x : Int) : IntVal :=
  if 0 ≤ x then IntVal.fromBytes nb (bytesOfNat 4 x.toNat) u
  else if x = -2 ^ 31 then IntVal.ofInt nb x u
  else (IntVal.fromBytes nb (bytesOfNat 4 (-x).toNat) u).negate

/-- The number the low four bytes of a list spell, missing bytes being 0 (R181). -/
def wordOfBytes (bs : List Byte) : Word := BitVec.ofNat 32 (natOfBytes (bs.take 4))

/-- The 32 bits `TOINT` leaves in RES: a negative value is complemented, reassembled and complemented back (R181). -/
def IntVal.toMachineInt (a : IntVal) : Word :=
  if a.isNeg then ~~~wordOfBytes a.not.bytes else wordOfBytes a.bytes

/-- The number of 32-bit words of a value: `ceil(N / 32)` (R183). -/
def IntVal.wordCount (a : IntVal) : Nat := (a.nb + 3) / 4

/-- The word image of a value: its bytes and 0 to 3 bytes of padding, zero even for a negative value (R51, R183). -/
def IntVal.wordImage (a : IntVal) : List Byte := a.bytes ++ List.replicate (4 * a.wordCount - a.nb) 0x00

/-- `FROMINT` (R180). -/
def execFromint (rd : Reg) (u : Bool) (nbits : BitVec 16) (imm : Word) (s : State) :
    Host.Outcome State Fault Refusal :=
  s.finish do
    let nb ← s.widthOf nbits
    return s.setV rd (fromMachineInt nb u imm.toInt)

/-- `TOINT` (R181). -/
def execToint (ra : Reg) (mode : Option Bool) (s : State) : Host.Outcome State Fault Refusal :=
  s.finish do
    let a ← s.operand ra
    return (s.setRes a.toMachineInt).setRu (signMode mode a.unsigned)

/-- `FROMW` (R182). -/
def execFromw (rd : Reg) (u : Bool) (nbits addr len : BitVec 16) (s : State) : Host.Outcome State Fault Refusal :=
  s.finish do
    let nb ← s.widthOf nbits
    let bs ← s.load addr (4 * len.toNat)
    return s.setV rd (IntVal.fromBytes nb bs u)

/-- `TOW` (R183). -/
def execTow (ra : Reg) (addr : BitVec 16) (s : State) : Host.Outcome State Fault Refusal :=
  s.finish do
    let a ← s.operand ra
    let t ← s.store addr a.wordImage
    return t.setRes (BitVec.ofNat 32 a.wordCount)

/-- `FROMB` (R184). -/
def execFromb (rd : Reg) (u : Bool) (nbits addr len : BitVec 16) (s : State) : Host.Outcome State Fault Refusal :=
  s.finish do
    let nb ← s.widthOf nbits
    let bs ← s.load addr len.toNat
    return s.setV rd (IntVal.fromBytes nb bs u)

/-- `TOB` (R185). -/
def execTob (ra : Reg) (addr : BitVec 16) (s : State) : Host.Outcome State Fault Refusal :=
  s.finish do
    let a ← s.operand ra
    let t ← s.store addr a.bytes
    return t.setRes (BitVec.ofNat 32 a.nb)

end Sys2Proof.Machine
end

