-- ==== Sys2Proof/Machine/System.lean ====
section
/-!
DEFINITION. The system command (47_system): CLRE. There is no other (R211).
-/
namespace Sys2Proof.Machine

/-- `CLRE`: `EF <- 0`, and `ERR <- 0` as after every success (R210). -/
def execClre (s : State) : Host.Outcome State Fault Refusal := s.finish (.ok s.clearEf)

end Sys2Proof.Machine
end

