-- ==== Sys2Proof/Machine/WidthCast.lean ====
section
/-!
DEFINITION. The width factory's constants and the sign-aware cast (41_width_cast): LDC, CAST.
-/
namespace Sys2Proof.Machine

/-- The constants of a width of `nb` bytes (R120). -/
def constant (nb : Nat) : ConstId → IntVal
  | .zero             => IntVal.fromBytes nb [] false
  | .uzero            => IntVal.fromBytes nb [] true
  | .one              => IntVal.fromBytes nb [0x01] false
  | .uone             => IntVal.fromBytes nb [0x01] true
  | .minValue         => ⟨List.replicate (nb - 1) 0x00 ++ [0x80], false⟩
  | .maxValue         => ⟨List.replicate (nb - 1) 0xff ++ [0x7f], false⟩
  | .maxUnsignedValue => ⟨List.replicate nb 0xff, true⟩
  | .negOne           => ⟨List.replicate nb 0xff, false⟩

/-- `cast(a, 8*nb)` with the result's flag `u`: a negative value is complemented, padded or truncated, and complemented
back (R122). -/
def IntVal.cast (a : IntVal) (nb : Nat) (u : Bool) : IntVal :=
  if a.isNeg then (IntVal.fromBytes nb a.not.bytes u).not else IntVal.fromBytes nb a.bytes u

/-- `LDC` (R120). -/
def execLdc (rd : Reg) (nbits : BitVec 16) (c : ConstId) (s : State) : Host.Outcome State Fault Refusal :=
  s.finish do
    let nb ← s.widthOf nbits
    return s.setV rd (constant nb c)

/-- `CAST` (R122). -/
def execCast (rd ra : Reg) (mode : Option Bool) (nbits : BitVec 16) (s : State) : Host.Outcome State Fault Refusal :=
  s.finish do
    let nb ← s.widthOf nbits
    let a ← s.operand ra
    return s.setV rd (a.cast nb (signMode mode a.unsigned))

end Sys2Proof.Machine
end

