-- ==== Sys2Proof/Machine/Dispatch.lean ====
section
/-!
DEFINITION. The dispatch: one arm per command, each one direct call of its meaning (30_encoding R74).
-/
namespace Sys2Proof.Machine

-- The meaning of a command issued in state `s` (40_common R100 steps 2 to 8).
def exec (i : Instr) (s : State) : Host.Outcome State Fault Refusal :=
  match i with
  | .ldc rd nbits c => Sys2Proof.Machine.execLdc rd nbits c s
  | .cast rd ra mode nbits => Sys2Proof.Machine.execCast rd ra mode nbits s
  | .cmp ra rb => Sys2Proof.Machine.execCmp ra rb s
  | .eq ra rb => Sys2Proof.Machine.execEq ra rb s
  | .ne ra rb => Sys2Proof.Machine.execNe ra rb s
  | .lt ra rb => Sys2Proof.Machine.execLt ra rb s
  | .le ra rb => Sys2Proof.Machine.execLe ra rb s
  | .gt ra rb => Sys2Proof.Machine.execGt ra rb s
  | .ge ra rb => Sys2Proof.Machine.execGe ra rb s
  | .not rd ra => Sys2Proof.Machine.execNot rd ra s
  | .and rd ra rb => Sys2Proof.Machine.execAnd rd ra rb s
  | .or rd ra rb => Sys2Proof.Machine.execOr rd ra rb s
  | .xor rd ra rb => Sys2Proof.Machine.execXor rd ra rb s
  | .shl rd ra k => Sys2Proof.Machine.execShl rd ra k s
  | .shr rd ra k => Sys2Proof.Machine.execShr rd ra k s
  | .shru rd ra k => Sys2Proof.Machine.execShru rd ra k s
  | .isset ra k => Sys2Proof.Machine.execIsset ra k s
  | .setbit rd ra bv k => Sys2Proof.Machine.execSetbit rd ra bv k s
  | .bitlen ra => Sys2Proof.Machine.execBitlen ra s
  | .add rd ra rb => Sys2Proof.Machine.execAdd rd ra rb s
  | .neg rd ra => Sys2Proof.Machine.execNeg rd ra s
  | .sub rd ra rb => Sys2Proof.Machine.execSub rd ra rb s
  | .abs rd ra => Sys2Proof.Machine.execAbs rd ra s
  | .mul rd ra rb => Sys2Proof.Machine.execMul rd ra rb s
  | .divmod rd rd2 ra rb => Sys2Proof.Machine.execDivmod rd rd2 ra rb s
  | .div rd ra rb => Sys2Proof.Machine.execDiv rd ra rb s
  | .mod rd ra rb => Sys2Proof.Machine.execMod rd ra rb s
  | .fromint rd u nbits imm => Sys2Proof.Machine.execFromint rd u nbits imm s
  | .toint ra mode => Sys2Proof.Machine.execToint ra mode s
  | .fromw rd u nbits addr len => Sys2Proof.Machine.execFromw rd u nbits addr len s
  | .tow ra addr => Sys2Proof.Machine.execTow ra addr s
  | .fromb rd u nbits addr len => Sys2Proof.Machine.execFromb rd u nbits addr len s
  | .tob ra addr => Sys2Proof.Machine.execTob ra addr s
  | .parse rd u nbits radix addr len => Sys2Proof.Machine.execParse rd u nbits radix addr len s
  | .fmt ra radix addr => Sys2Proof.Machine.execFmt ra radix addr s
  | .dbg ra sp addr => Sys2Proof.Machine.execDbg ra sp addr s
  | .clre => Sys2Proof.Machine.execClre s

end Sys2Proof.Machine
end

