-- ==== Sys2Proof/Machine/Transactions.lean ====
section
/-!
DEFINITION. The five host transactions (10_state R35), each atomic, taken in the order in which the host makes them
(20_memory R58).
-/
namespace Sys2Proof.Machine

/-- `Issue(D)`: an illegal descriptor raises `IllegalCommand` with no other effect (R80, R100 step 1); a legal one is
executed to completion (R100). -/
def issue (d : Descriptor) (s : State) : Host.Outcome State Fault Refusal :=
  match decode d with
  | .ok i    => exec i s
  | .error _ => .next (s.raise .illegalCommand)

/-- The word `ReadReg` returns: STATUS (n = 0), RES (n = 1) or CFG (n = 2) (R35). -/
def State.hostReg (s : State) : HostReg → Word
  | .status => s.status.word
  | .res    => s.res
  | .cfg    => s.cfg

/-- One transaction in state `s` (R35). Reads change nothing of the unit's (R54); a BUF address at or above BUFSIZE does
not exist (log 6). -/
def transact (t : Transaction) (s : State) : Host.Outcome State Fault Refusal :=
  match t with
  | .issue d      => issue d s
  | .readReg r    => .next { s with reply := some (.reg (s.hostReg r)) }
  | .readBuf a    => if a < s.bufSize then .next { s with reply := some (.byte (s.bufByte a)) } else .fault .hostBufAddress
  | .writeBuf a b => if a < s.bufSize then .next (s.setBuf a [b]) else .fault .hostBufAddress
  | .reset        => .next s.resetUnit

/-- The next thing that happens: the host's next transaction; with none pending nothing acts on the unit, and the state
stays (R35; log 1). -/
def nextTransaction (s : State) : Host.Outcome State Fault Refusal :=
  match s.pending with
  | []      => .next s
  | t :: ts => transact t { s with pending := ts }

/-- `s` with a descriptor as the host's very next transaction: how the host hands the unit a command (R27, R35). -/
def State.withIssue (s : State) (d : Descriptor) : State := { s with pending := .issue d :: s.pending }

/-- `s` with a program, "a finite list of command descriptors" (R27), to be issued in order next. -/
def State.withProgram (s : State) (ds : List Descriptor) : State :=
  { s with pending := ds.map .issue ++ s.pending }

end Sys2Proof.Machine
end

