-- ==== Sys2Proof/Machine/Step.lean ====
section
/-!
DEFINITION. One step of the machine: the host's next transaction (10_state R35). The unit has no program counter and
fetches nothing (R27, 20_memory R61): a command is next when the host issues it next, and `withFetchWord` says so.
-/
namespace Sys2Proof.Machine

/-- One step: the next host transaction (R35, R58). -/
def step (s : State) : Host.Outcome State Fault Refusal := nextTransaction s

/-- `s` with the command whose descriptor bits are `w` (the table's numbering, R71) issued next. -/
def State.withFetchWord (s : State) (nbits w : Nat) : State := s.withIssue (descriptorOfWord nbits w)

end Sys2Proof.Machine
end

