-- ==== Sys2Proof/Machine/Assembler.lean ====
section
/-!
DEFINITION. The assembler's syntax (30_encoding R85, R86): from the characters of one line to the command it spells. A
line with nothing but spaces and a comment spells none. It is no part of the unit; it says which command a text names.
-/
namespace Sys2Proof.Assembler

/-- A line without its comment (R85). -/
def stripComment (l : List Char) : List Char := l.takeWhile fun c => c != ';'

/-- A space or a tab. -/
def isBlank (c : Char) : Bool := c == ' ' || c == '\t'

/-- Without the blanks around it. -/
def trim (l : List Char) : List Char := ((l.dropWhile isBlank).reverse.dropWhile isBlank).reverse

/-- The pieces of a text between commas, trimmed. -/
def splitCommas : List Char → List (List Char)
  | [] => [[]]
  | c :: cs =>
    match splitCommas cs with
    | [] => [[c]]
    | p :: ps => if c = ',' then [] :: p :: ps else (c :: p) :: ps

/-- An upper-case letter of a mnemonic; other characters as they are (R85). -/
def upper (c : Char) : Char := if 'a' ≤ c ∧ c ≤ 'z' then Char.ofNat (c.toNat - 32) else c

/-- The digits of a number in base `radix`. -/
def digits (radix : Nat) : Nat → List Char → Option Nat
  | acc, [] => some acc
  | acc, c :: cs =>
    let n := c.toNat
    let d := if '0' ≤ c ∧ c ≤ '9' then n - 48 else if 'a' ≤ c ∧ c ≤ 'f' then n - 87
      else if 'A' ≤ c ∧ c ≤ 'F' then n - 55 else radix
    if d < radix then digits radix (acc * radix + d) cs else none

/-- A decimal or `0x` hexadecimal number (R85). -/
def number : List Char → Option Nat
  | '0' :: 'x' :: c :: cs => digits 16 0 (c :: cs)
  | c :: cs => digits 10 0 (c :: cs)
  | [] => none

/-- A number that fits a field of `w` bits. -/
def field (w : Nat) (l : List Char) : Option (BitVec w) :=
  match number l with
  | some n => if n < 2 ^ w then some (BitVec.ofNat w n) else none
  | none => none

/-- The value of `FROMINT`: -2147483648 to 4294967295, modulo `2^32` (R85). -/
def machineInt : List Char → Option Word
  | '-' :: l =>
    match number l with
    | some n => if n ≤ 2 ^ 31 then some (-BitVec.ofNat 32 n) else none
    | none => none
  | l => field 32 l

/-- A register, `v0` to `v15` (R85). -/
def register : List Char → Option Reg
  | ['v', c] => if '0' ≤ c ∧ c ≤ '9' then some (Fin.ofNat 16 (c.toNat - 48)) else none
  | ['v', '1', c] => if '0' ≤ c ∧ c ≤ '5' then some (Fin.ofNat 16 (c.toNat - 38)) else none
  | _ => none

/-- A sign mode, `s` or `u` (R85). -/
def mode : List Char → Option Bool
  | ['s'] => some false
  | ['u'] => some true
  | _ => none

/-- The bit value of `SETBIT` (R85). -/
def bitValue : List Char → Option Bool
  | ['0'] => some false
  | ['1'] => some true
  | _ => none

/-- The names of the constants of `LDC`, ids 0 to 7 (R85). -/
def constantNames : List (List Char × ConstId) := [
  (['Z', 'E', 'R', 'O'], .zero),
  (['U', 'Z', 'E', 'R', 'O'], .uzero),
  (['O', 'N', 'E'], .one),
  (['U', 'O', 'N', 'E'], .uone),
  (['M', 'I', 'N', '_', 'V', 'A', 'L', 'U', 'E'], .minValue),
  (['M', 'A', 'X', '_', 'V', 'A', 'L', 'U', 'E'], .maxValue),
  (['M', 'A', 'X', '_', 'U', 'N', 'S', 'I', 'G', 'N', 'E', 'D', '_', 'V', 'A', 'L', 'U', 'E'], .maxUnsignedValue),
  (['N', 'E', 'G', '_', 'O', 'N', 'E'], .negOne)]

/-- A constant's id from its name. -/
def constId (l : List Char) : Option ConstId := (constantNames.find? fun p => p.1 == l).map fun p => p.2

/-- The commands with the operands `vA, vB` (R85). -/
def pairCommands : List (List Char × (Reg → Reg → Instr)) := [
  (['C', 'M', 'P'], .cmp), (['E', 'Q'], .eq), (['N', 'E'], .ne), (['L', 'T'], .lt), (['L', 'E'], .le),
  (['G', 'T'], .gt), (['G', 'E'], .ge), (['N', 'O', 'T'], .not), (['N', 'E', 'G'], .neg), (['A', 'B', 'S'], .abs)]

/-- The commands with the operands `vD, vA, vB`, and the aliases `+` and `-` (R85, R86). -/
def tripleCommands : List (List Char × (Reg → Reg → Reg → Instr)) := [
  (['A', 'N', 'D'], .and), (['O', 'R'], .or), (['X', 'O', 'R'], .xor), (['A', 'D', 'D'], .add), (['+'], .add),
  (['S', 'U', 'B'], .sub), (['-'], .sub), (['M', 'U', 'L'], .mul), (['D', 'I', 'V'], .div), (['M', 'O', 'D'], .mod)]

/-- The commands with the operands `vD, vA, k`, and the alias `<<` (R85, R86). -/
def shiftCommands : List (List Char × (Reg → Reg → Word → Instr)) := [
  (['S', 'H', 'L'], .shl), (['<', '<'], .shl), (['S', 'H', 'R'], .shr), (['S', 'H', 'R', 'U'], .shru)]

/-- The meaning of a mnemonic in a table. -/
def named {α : Type} (table : List (List Char × α)) (m : List Char) : Option α :=
  (table.find? fun p => p.1 == m).map fun p => p.2

/-- The command of a mnemonic, in upper case, with its operands, for the commands of one shape alone (R85). -/
def special (m : List Char) (ops : List (List Char)) : Option Instr :=
  match m, ops with
  | ['L', 'D', 'C'], [d, n, c] => do return .ldc (← register d) (← field 16 n) (← constId c)
  | ['C', 'A', 'S', 'T'], [d, a, n] => do return .cast (← register d) (← register a) none (← field 16 n)
  | ['C', 'A', 'S', 'T'], [d, a, n, u] => do
    return .cast (← register d) (← register a) (some (← mode u)) (← field 16 n)
  | ['D', 'I', 'V', 'M', 'O', 'D'], [q, r, a, b] => do
    return .divmod (← register q) (← register r) (← register a) (← register b)
  | ['I', 'S', 'S', 'E', 'T'], [a, i] => do return .isset (← register a) (← field 32 i)
  | ['S', 'E', 'T', 'B', 'I', 'T'], [d, a, i, b] => do
    return .setbit (← register d) (← register a) (← bitValue b) (← field 32 i)
  | ['B', 'I', 'T', 'L', 'E', 'N'], [a] => do return .bitlen (← register a)
  | ['F', 'R', 'O', 'M', 'I', 'N', 'T'], [d, n, u, x] => do
    return .fromint (← register d) (← mode u) (← field 16 n) (← machineInt x)
  | ['T', 'O', 'I', 'N', 'T'], [a] => do return .toint (← register a) none
  | ['T', 'O', 'I', 'N', 'T'], [a, u] => do return .toint (← register a) (some (← mode u))
  | ['F', 'R', 'O', 'M', 'W'], [d, n, u, p, l] => do
    return .fromw (← register d) (← mode u) (← field 16 n) (← field 16 p) (← field 16 l)
  | ['T', 'O', 'W'], [a, p] => do return .tow (← register a) (← field 16 p)
  | ['F', 'R', 'O', 'M', 'B'], [d, n, u, p, l] => do
    return .fromb (← register d) (← mode u) (← field 16 n) (← field 16 p) (← field 16 l)
  | ['T', 'O', 'B'], [a, p] => do return .tob (← register a) (← field 16 p)
  | ['P', 'A', 'R', 'S', 'E'], [d, n, u, r, p, l] => do
    return .parse (← register d) (← mode u) (← field 16 n) (← field 8 r) (← field 16 p) (← field 16 l)
  | ['F', 'M', 'T'], [a, r, p] => do return .fmt (← register a) (← field 8 r) (← field 16 p)
  | ['D', 'B', 'G'], [a, p] => do return .dbg (← register a) false (← field 16 p)
  | ['D', 'B', 'G'], [a, p, ['s', 'p']] => do return .dbg (← register a) true (← field 16 p)
  | ['C', 'L', 'R', 'E'], [] => some .clre
  | _, _ => none

/-- The command of a mnemonic with its operands (R85). -/
def command (m : List Char) (ops : List (List Char)) : Option Instr :=
  match ops with
  | [x, y] =>
    match named pairCommands m with
    | some f => do return f (← register x) (← register y)
    | none => special m ops
  | [x, y, z] =>
    match named tripleCommands m, named shiftCommands m with
    | some f, _ => do return f (← register x) (← register y) (← register z)
    | none, some f => do return f (← register x) (← register y) (← field 32 z)
    | none, none => special m ops
  | _ => special m ops

/-- The operands of a command: the pieces between commas, or none. -/
def operandsOf (l : List Char) : List (List Char) :=
  if trim l = [] then [] else (splitCommas l).map trim

/-- The command one line spells; none where it spells no command, or one that is illegal (R80, R85). "Every assembler
line is exactly one descriptor" (R86): the one that `encode` gives the command. -/
def line (l : List Char) : Option Instr :=
  let t := trim (stripComment l)
  let m := t.takeWhile fun c => !isBlank c
  let ops := t.dropWhile fun c => !isBlank c
  match command (m.map upper) (operandsOf ops) with
  | some i => if i.wellFormed then some i else none
  | none => none

/-- The descriptors a text names, one line a command; a line without a command is passed over (R85). -/
def program : List (List Char) → Option (List Descriptor)
  | [] => some []
  | l :: ls =>
    if trim (stripComment l) = [] then program ls
    else
      match line l, program ls with
      | some i, some ds => some (encode i :: ds)
      | _, _ => none

end Sys2Proof.Assembler
end

