-- ==== Sys2Proof/OpcodeTable.lean ====
section
/-!
DEFINITION. The machine-readable opcode table (30_encoding R75, spec/opcode_table.json) as data: for each of the 37
commands its mnemonic, its `mask` and `match`, and its further condition. The decoder does not use it; statements
compare the two.
-/
namespace Sys2Proof

/-- A row of the opcode table (R75). -/
structure OpcodeRow where
  mnemonic : String
  mask     : Descriptor
  pattern  : Descriptor
  /-- the row's `constraints` on the fields -/
  legal    : Fields → Bool

/-- A descriptor spells a row when `D & mask = match` and the row's condition holds (R75). -/
def OpcodeRow.spells (row : OpcodeRow) (d : Descriptor) : Bool :=
  d &&& row.mask == row.pattern && row.legal (Fields.ofDescriptor d)

/-- No further condition. -/
def noConstraint (_ : Fields) : Bool := true

/-- `imm <= 7` (`LDC`). -/
def constIdLegal (f : Fields) : Bool := decide (f.imm.toNat ≤ 7)

/-- `not (uov = 0 and uval = 1)` (`CAST`, `TOINT`). -/
def overrideLegal (f : Fields) : Bool := f.uov || !f.uval

/-- `rd != rd2` (`DIVMOD`). -/
def destinationsLegal (f : Fields) : Bool := f.rd != f.rd2

/-- The rows of the table, `LDC` to `CAST`. -/
def opcodeRowsWidthCast : List OpcodeRow := [
  ⟨"LDC", 0xffffffff00000000ffff0000fffff0ff, 0x00000000000000000000000000000001, constIdLegal⟩,
  ⟨"CAST", 0xffffffffffffffffffff0000f9f0f0ff, 0x00000000000000000000000000000002, overrideLegal⟩]

/-- The rows of the table, `CMP` to `GE`. -/
def opcodeRowsCompare : List OpcodeRow := [
  ⟨"CMP", 0xffffffffffffffffffffffffff00ffff, 0x00000000000000000000000000000010, noConstraint⟩,
  ⟨"EQ", 0xffffffffffffffffffffffffff00ffff, 0x00000000000000000000000000000011, noConstraint⟩,
  ⟨"NE", 0xffffffffffffffffffffffffff00ffff, 0x00000000000000000000000000000012, noConstraint⟩,
  ⟨"LT", 0xffffffffffffffffffffffffff00ffff, 0x00000000000000000000000000000013, noConstraint⟩,
  ⟨"LE", 0xffffffffffffffffffffffffff00ffff, 0x00000000000000000000000000000014, noConstraint⟩,
  ⟨"GT", 0xffffffffffffffffffffffffff00ffff, 0x00000000000000000000000000000015, noConstraint⟩,
  ⟨"GE", 0xffffffffffffffffffffffffff00ffff, 0x00000000000000000000000000000016, noConstraint⟩]

/-- The rows of the table, `NOT` to `BITLEN`. -/
def opcodeRowsBitwise : List OpcodeRow := [
  ⟨"NOT", 0xfffffffffffffffffffffffffff0f0ff, 0x00000000000000000000000000000020, noConstraint⟩,
  ⟨"AND", 0xffffffffffffffffffffffffff00f0ff, 0x00000000000000000000000000000021, noConstraint⟩,
  ⟨"OR", 0xffffffffffffffffffffffffff00f0ff, 0x00000000000000000000000000000022, noConstraint⟩,
  ⟨"XOR", 0xffffffffffffffffffffffffff00f0ff, 0x00000000000000000000000000000023, noConstraint⟩,
  ⟨"SHL", 0xffffffff00000000fffffffffff0f0ff, 0x00000000000000000000000000000024, noConstraint⟩,
  ⟨"SHR", 0xffffffff00000000fffffffffff0f0ff, 0x00000000000000000000000000000025, noConstraint⟩,
  ⟨"SHRU", 0xffffffff00000000fffffffffff0f0ff, 0x00000000000000000000000000000026, noConstraint⟩,
  ⟨"ISSET", 0xffffffff00000000fffffffffff0ffff, 0x00000000000000000000000000000027, noConstraint⟩,
  ⟨"SETBIT", 0xffffffff00000000fffffffff7f0f0ff, 0x00000000000000000000000000000028, noConstraint⟩,
  ⟨"BITLEN", 0xfffffffffffffffffffffffffff0ffff, 0x00000000000000000000000000000029, noConstraint⟩]

/-- The rows of the table, `ADD` to `MOD`. -/
def opcodeRowsArithmetic : List OpcodeRow := [
  ⟨"ADD", 0xffffffffffffffffffffffffff00f0ff, 0x00000000000000000000000000000030, noConstraint⟩,
  ⟨"NEG", 0xfffffffffffffffffffffffffff0f0ff, 0x00000000000000000000000000000031, noConstraint⟩,
  ⟨"SUB", 0xffffffffffffffffffffffffff00f0ff, 0x00000000000000000000000000000032, noConstraint⟩,
  ⟨"ABS", 0xfffffffffffffffffffffffffff0f0ff, 0x00000000000000000000000000000033, noConstraint⟩,
  ⟨"MUL", 0xffffffffffffffffffffffffff00f0ff, 0x00000000000000000000000000000034, noConstraint⟩,
  ⟨"DIVMOD", 0xffffffffffffffffffffffffff0000ff, 0x00000000000000000000000000000035, destinationsLegal⟩,
  ⟨"DIV", 0xffffffffffffffffffffffffff00f0ff, 0x00000000000000000000000000000036, noConstraint⟩,
  ⟨"MOD", 0xffffffffffffffffffffffffff00f0ff, 0x00000000000000000000000000000037, noConstraint⟩]

/-- The rows of the table, `FROMINT` to `TOB`. -/
def opcodeRowsConversion : List OpcodeRow := [
  ⟨"FROMINT", 0xffffffff00000000ffff0000fefff0ff, 0x00000000000000000000000000000040, noConstraint⟩,
  ⟨"TOINT", 0xfffffffffffffffffffffffff9f0ffff, 0x00000000000000000000000000000041, overrideLegal⟩,
  ⟨"FROMW", 0x00000000ffffffffffff0000fefff0ff, 0x00000000000000000000000000000042, noConstraint⟩,
  ⟨"TOW", 0xffff0000fffffffffffffffffff0ffff, 0x00000000000000000000000000000043, noConstraint⟩,
  ⟨"FROMB", 0x00000000ffffffffffff0000fefff0ff, 0x00000000000000000000000000000044, noConstraint⟩,
  ⟨"TOB", 0xffff0000fffffffffffffffffff0ffff, 0x00000000000000000000000000000045, noConstraint⟩]

/-- The rows of the table, `PARSE` to `CLRE`. -/
def opcodeRowsCodec : List OpcodeRow := [
  ⟨"PARSE", 0x00000000ffffffffff000000fefff0ff, 0x00000000000000000000000000000050, noConstraint⟩,
  ⟨"FMT", 0xffff0000ffffffffff00fffffff0ffff, 0x00000000000000000000000000000051, noConstraint⟩,
  ⟨"DBG", 0xffff0000ffffffffffffffffeff0ffff, 0x00000000000000000000000000000052, noConstraint⟩,
  ⟨"CLRE", 0xffffffffffffffffffffffffffffffff, 0x0000000000000000000000000000007f, noConstraint⟩]

/-- The whole table, in its order. -/
def opcodeTable : List OpcodeRow :=
  opcodeRowsWidthCast ++ opcodeRowsCompare ++ opcodeRowsBitwise ++ opcodeRowsArithmetic ++ opcodeRowsConversion ++
    opcodeRowsCodec

/-- The mnemonic of a command (R74). -/
def Instr.mnemonic : Instr → String
  | .ldc _ _ _ => "LDC"
  | .cast _ _ _ _ => "CAST"
  | .cmp _ _ => "CMP"
  | .eq _ _ => "EQ"
  | .ne _ _ => "NE"
  | .lt _ _ => "LT"
  | .le _ _ => "LE"
  | .gt _ _ => "GT"
  | .ge _ _ => "GE"
  | .not _ _ => "NOT"
  | .and _ _ _ => "AND"
  | .or _ _ _ => "OR"
  | .xor _ _ _ => "XOR"
  | .shl _ _ _ => "SHL"
  | .shr _ _ _ => "SHR"
  | .shru _ _ _ => "SHRU"
  | .isset _ _ => "ISSET"
  | .setbit _ _ _ _ => "SETBIT"
  | .bitlen _ => "BITLEN"
  | .add _ _ _ => "ADD"
  | .neg _ _ => "NEG"
  | .sub _ _ _ => "SUB"
  | .abs _ _ => "ABS"
  | .mul _ _ _ => "MUL"
  | .divmod _ _ _ _ => "DIVMOD"
  | .div _ _ _ => "DIV"
  | .mod _ _ _ => "MOD"
  | .fromint _ _ _ _ => "FROMINT"
  | .toint _ _ => "TOINT"
  | .fromw _ _ _ _ _ => "FROMW"
  | .tow _ _ => "TOW"
  | .fromb _ _ _ _ _ => "FROMB"
  | .tob _ _ => "TOB"
  | .parse _ _ _ _ _ _ => "PARSE"
  | .fmt _ _ _ => "FMT"
  | .dbg _ _ _ => "DBG"
  | .clre => "CLRE"

end Sys2Proof
end

