-- ==== Sys2Proof/Machine/Algorithms.lean ====
section
/-!
DEFINITION. The iterative algorithms that 44_arithmetic gives as pseudocode for ADD, NEG, SUB, ABS, MUL and DIVMOD,
written over the bitwise engine and the comparator as the rules write them ("no native multi-bit add/multiply is
assumed available"). Each loop carries the bound its rule states. The meanings use the closed forms of the same rules;
that both agree is stated as obligations (log 9).
-/
namespace Sys2Proof.Machine

/-- The carry loop of R160: `sc = shl(carry, 1)`, `carry = and(result, sc)`, `result = xor(result, sc)` while the carry
is not zero. -/
def carryLoop : (fuel : Nat) → (carry result : IntVal) → IntVal
  | 0, _, result => result
  | fuel + 1, carry, result =>
    if carry.isZero then result
    else carryLoop fuel (result.and (carry.shl 1)) (result.xor (carry.shl 1))

/-- `add(a, b)` by carry iteration, at most `N` passes (R160). -/
def carryAdd (a b : IntVal) : IntVal := carryLoop a.width (a.and b) (a.xor b)

/-- `negate(a) = add(not(a), ONE_N)` by carry iteration (R161). -/
def carryNegate (a : IntVal) : IntVal := carryAdd a.not (IntVal.fromBytes a.nb [0x01] false)

/-- `sub(a, b) = add(a, negate(b))` by carry iteration (R162). -/
def carrySub (a b : IntVal) : IntVal := carryAdd a (carryNegate b)

/-- `absolute(a)` over the carry negation (R163). -/
def carryAbsolute (a : IntVal) : IntVal :=
  if a.unsigned then a else if a.isNeg then (carryNegate a).retag true else a.retag true

/-- The loop of R164: while the multiplier `m` is not zero, accumulate the multiplicand `c` when the lowest bit of `m` is
1, shift `c` left and `m` right. -/
def shiftAddLoop : (fuel : Nat) → (c m p : IntVal) → IntVal
  | 0, _, _, p => p
  | fuel + 1, c, m, p =>
    if m.isZero then p
    else shiftAddLoop fuel (c.shl 1) (m.shru 1) (if m.bit 0 then carryAdd p c else p)

/-- `multiply(a, b)` by shift and add on the magnitudes (R164). -/
def shiftAddMul (a b : IntVal) : IntVal :=
  let p := (shiftAddLoop a.width (carryAbsolute a) (carryAbsolute b) (IntVal.ofNat a.nb 0 true)).retag a.unsigned
  if a.isNeg != b.isNeg then carryNegate p else p

/-- The loop of R165 over the bits `i - 1` down to 0 of the dividend's magnitude `m`, with the divisor's magnitude `d`,
the quotient `q` and the running remainder `r`. -/
def restoringLoop (m d : IntVal) : (i : Nat) → (q r : IntVal) → IntVal × IntVal
  | 0, q, r => (q, r)
  | i + 1, q, r =>
    let r1 := if m.bit i then (r.shl 1).setBit 0 true else r.shl 1
    if r1.compare d = .lt then restoringLoop m d i q r1
    else restoringLoop m d i (q.setBit i true) (carrySub r1 d)

/-- `divmod(a, b)` by restoring binary long division (R165). -/
def restoringDivmod (a b : IntVal) : Except Error (IntVal × IntVal) :=
  if b.isZero then .error .divisionByZero
  else if a.isZero then .ok (IntVal.ofNat a.nb 0 a.unsigned, a)
  else
    let m := carryAbsolute a
    let (q, r) := restoringLoop m (carryAbsolute b) m.bitLength (IntVal.ofNat a.nb 0 true) (IntVal.ofNat a.nb 0 true)
    .ok (if a.isNeg != b.isNeg then carryNegate (q.retag a.unsigned) else q.retag a.unsigned,
         if a.isNeg then carryNegate (r.retag a.unsigned) else r.retag a.unsigned)

end Sys2Proof.Machine
end

