-- ==== Sys2Proof/Safety.lean ====
section
/-!
DEFINITION. The words in which statements about the machine are made: the invariant of a run, the end states of a
command, the tables of 60_exceptions R221 and 40_common R100 as data, and the numerals of 46_string_codec R190 and
R195. Nothing here is called by the machine.
-/
namespace Sys2Proof.Machine

/-! ### The invariant -/

/-- A value that a register of a unit with this MAXBITS can hold: its width is a positive multiple of 8 (the width is
8 times the byte count, R20) and at most MAXBITS (R103). -/
abbrev IntVal.fits (maxBits : Nat) (x : IntVal) : Prop := 0 < x.nb ∧ x.width ≤ maxBits

/-- What is true of the unit at all times: MAXBITS is a positive multiple of 8 (R5, R29), every value in a register
fits (R20, R22, R103), no error code above 7 stands in STATUS (R220), BUF's list is canonical and lists only addresses
of BUF (R30). -/
abbrev State.Inv (s : State) : Prop :=
  (s.maxBits % 8 = 0 ∧ 8 ≤ s.maxBits) ∧
  (∀ r : Reg, ∀ x ∈ s.v.get r, x.fits s.maxBits) ∧
  s.status.err.toNat ≤ 7 ∧
  Memory.wf s.buf ∧
  ∀ c ∈ s.buf, c.1 < s.bufSize

/-! ### Conditions on the fields of a descriptor -/

/-- `WidthOK(nbits)` (R103). -/
abbrev State.LegalWidth (s : State) (n : BitVec 16) : Prop := 0 < n.toNat ∧ n.toNat % 8 = 0 ∧ n.toNat ≤ s.maxBits

/-- A radix from 2 to 36 (R100 step 4). -/
abbrev LegalRadix (r : BitVec 8) : Prop := 2 ≤ r.toNat ∧ r.toNat ≤ 36

/-- An access of `n` bytes at `a` does not pass BUFSIZE, or moves no byte (R55). -/
abbrev State.InRange (s : State) (a n : Nat) : Prop := n = 0 ∨ a + n ≤ s.bufSize

/-! ### End states of a command -/

/-- `s` after a command whose one effect is `V[r] <- x`; `ERR <- 0` (R100 step 8). -/
def State.wroteV (s : State) (r : Reg) (x : IntVal) : State :=
  { s with v := s.v.set r (some x), status := ⟨0, s.status.ef, s.status.ru⟩ }

/-- `s` after a command whose one effect is `RES <- w`; `ERR <- 0` (R100 step 8). -/
def State.wroteRes (s : State) (w : Word) : State :=
  { s with res := w, status := ⟨0, s.status.ef, s.status.ru⟩ }

/-- `s` after a command that raised the error with code `c`: `ERR <- c`, `EF <- 1`, nothing else (R224). -/
def State.failed (s : State) (c : BitVec 4) : State := { s with status := ⟨c, true, s.status.ru⟩ }

/-- `t` is `s` after a command that stored `bs` at `addr` and left their number (of units) `w` in RES: those bytes of BUF
are `bs`, every other byte of BUF is as before, `ERR` is 0, and nothing else changed (R8, R54, R100 step 8). -/
def State.storedFrom (s t : State) (addr : Nat) (bs : List Byte) (w : Word) : Prop :=
  (∀ i (h : i < bs.length), t.bufByte (addr + i) = bs[i]) ∧
  (∀ a, a < addr ∨ addr + bs.length ≤ a → t.bufByte a = s.bufByte a) ∧
  t = { s with buf := t.buf, res := w, status := ⟨0, s.status.ef, s.status.ru⟩ }

/-! ### What each command reads, writes and can raise -/

/-- The destination registers of a command (R73, R74). -/
def dests : Instr → List Reg
  | .divmod rd rd2 _ _ => [rd, rd2]
  | .ldc rd _ _ | .cast rd _ _ _ | .not rd _ | .and rd _ _ | .or rd _ _ | .xor rd _ _ => [rd]
  | .shl rd _ _ | .shr rd _ _ | .shru rd _ _ | .setbit rd _ _ _ | .add rd _ _ | .neg rd _ | .sub rd _ _ => [rd]
  | .abs rd _ | .mul rd _ _ | .div rd _ _ | .mod rd _ _ | .fromint rd _ _ _ | .fromw rd _ _ _ _ => [rd]
  | .fromb rd _ _ _ _ | .parse rd _ _ _ _ _ => [rd]
  | .cmp _ _ | .eq _ _ | .ne _ _ | .lt _ _ | .le _ _ | .gt _ _ | .ge _ _ | .isset _ _ | .bitlen _ => []
  | .toint _ _ | .tow _ _ | .tob _ _ | .fmt _ _ _ | .dbg _ _ _ | .clre => []

/-- The commands that write RES (R25). -/
def writesRes : Instr → Bool
  | .cmp _ _ | .eq _ _ | .ne _ _ | .lt _ _ | .le _ _ | .gt _ _ | .ge _ _ | .isset _ _ | .bitlen _ => true
  | .toint _ _ | .tow _ _ | .tob _ _ | .fmt _ _ _ | .dbg _ _ _ => true
  | .ldc _ _ _ | .cast _ _ _ _ | .not _ _ | .and _ _ _ | .or _ _ _ | .xor _ _ _ | .shl _ _ _ | .shr _ _ _ => false
  | .shru _ _ _ | .setbit _ _ _ _ | .add _ _ _ | .neg _ _ | .sub _ _ _ | .abs _ _ | .mul _ _ _ => false
  | .divmod _ _ _ _ | .div _ _ _ | .mod _ _ _ | .fromint _ _ _ _ | .fromw _ _ _ _ _ | .fromb _ _ _ _ _ => false
  | .parse _ _ _ _ _ _ | .clre => false

/-- The width field, of the commands that have one (R103). -/
def widthField : Instr → Option (BitVec 16)
  | .ldc _ n _ | .cast _ _ _ n | .fromint _ _ n _ | .fromw _ _ n _ _ | .fromb _ _ n _ _ | .parse _ _ n _ _ _ => some n
  | .cmp _ _ | .eq _ _ | .ne _ _ | .lt _ _ | .le _ _ | .gt _ _ | .ge _ _ | .not _ _ | .and _ _ _ | .or _ _ _ => none
  | .xor _ _ _ | .shl _ _ _ | .shr _ _ _ | .shru _ _ _ | .isset _ _ | .setbit _ _ _ _ | .bitlen _ => none
  | .add _ _ _ | .neg _ _ | .sub _ _ _ | .abs _ _ | .mul _ _ _ | .divmod _ _ _ _ | .div _ _ _ | .mod _ _ _ => none
  | .toint _ _ | .tow _ _ | .tob _ _ | .fmt _ _ _ | .dbg _ _ _ | .clre => none

/-- The source registers (R73, R104). -/
def sources : Instr → List Reg
  | .cmp a b | .eq a b | .ne a b | .lt a b | .le a b | .gt a b | .ge a b => [a, b]
  | .and _ a b | .or _ a b | .xor _ a b | .add _ a b | .sub _ a b | .mul _ a b => [a, b]
  | .div _ a b | .mod _ a b | .divmod _ _ a b => [a, b]
  | .cast _ a _ _ | .not _ a | .shl _ a _ | .shr _ a _ | .shru _ a _ | .isset a _ | .setbit _ a _ _ | .bitlen a => [a]
  | .neg _ a | .abs _ a | .toint a _ | .tow a _ | .tob a _ | .fmt a _ _ | .dbg a _ _ => [a]
  | .ldc _ _ _ | .fromint _ _ _ _ | .fromw _ _ _ _ _ | .fromb _ _ _ _ _ | .parse _ _ _ _ _ _ | .clre => []

/-- The radix field, of the commands that have one (R73). -/
def radixField : Instr → Option (BitVec 8)
  | .parse _ _ _ r _ _ | .fmt _ r _ => some r
  | .ldc _ _ _ | .cast _ _ _ _ | .cmp _ _ | .eq _ _ | .ne _ _ | .lt _ _ | .le _ _ | .gt _ _ | .ge _ _ => none
  | .not _ _ | .and _ _ _ | .or _ _ _ | .xor _ _ _ | .shl _ _ _ | .shr _ _ _ | .shru _ _ _ | .isset _ _ => none
  | .setbit _ _ _ _ | .bitlen _ | .add _ _ _ | .neg _ _ | .sub _ _ _ | .abs _ _ | .mul _ _ _ => none
  | .divmod _ _ _ _ | .div _ _ _ | .mod _ _ _ | .fromint _ _ _ _ | .toint _ _ | .fromw _ _ _ _ _ => none
  | .tow _ _ | .fromb _ _ _ _ _ | .tob _ _ | .dbg _ _ _ | .clre => none

/-- The address and the number of bytes a command reads from BUF (R54). -/
def reads : Instr → Option (Nat × Nat)
  | .fromw _ _ _ addr len => some (addr.toNat, 4 * len.toNat)
  | .fromb _ _ _ addr len | .parse _ _ _ _ addr len => some (addr.toNat, len.toNat)
  | .ldc _ _ _ | .cast _ _ _ _ | .cmp _ _ | .eq _ _ | .ne _ _ | .lt _ _ | .le _ _ | .gt _ _ | .ge _ _ => none
  | .not _ _ | .and _ _ _ | .or _ _ _ | .xor _ _ _ | .shl _ _ _ | .shr _ _ _ | .shru _ _ _ | .isset _ _ => none
  | .setbit _ _ _ _ | .bitlen _ | .add _ _ _ | .neg _ _ | .sub _ _ _ | .abs _ _ | .mul _ _ _ => none
  | .divmod _ _ _ _ | .div _ _ _ | .mod _ _ _ | .fromint _ _ _ _ | .toint _ _ => none
  | .tow _ _ | .tob _ _ | .fmt _ _ _ | .dbg _ _ _ | .clre => none

/-- The address and the bytes a command stores in BUF when issued in `s` (R54), computed by the functions its meaning
uses; none when its source is empty. -/
def stores (s : State) : Instr → Option (Nat × List Byte)
  | .tow a addr => (s.v.get a).map fun x => (addr.toNat, x.wordImage)
  | .tob a addr => (s.v.get a).map fun x => (addr.toNat, x.bytes)
  | .fmt a radix addr => (s.v.get a).map fun x => (addr.toNat, x.format radix.toNat)
  | .dbg a sp addr => (s.v.get a).map fun x => (addr.toNat, x.debugText sp)
  | .ldc _ _ _ | .cast _ _ _ _ | .cmp _ _ | .eq _ _ | .ne _ _ | .lt _ _ | .le _ _ | .gt _ _ | .ge _ _ => none
  | .not _ _ | .and _ _ _ | .or _ _ _ | .xor _ _ _ | .shl _ _ _ | .shr _ _ _ | .shru _ _ _ | .isset _ _ => none
  | .setbit _ _ _ _ | .bitlen _ | .add _ _ _ | .neg _ _ | .sub _ _ _ | .abs _ _ | .mul _ _ _ => none
  | .divmod _ _ _ _ | .div _ _ _ | .mod _ _ _ | .fromint _ _ _ _ | .toint _ _ | .fromw _ _ _ _ _ => none
  | .fromb _ _ _ _ _ | .parse _ _ _ _ _ _ | .clre => none

/-- The errors a legal command can raise: the table of R221. -/
def mayRaise : Instr → List Error
  | .ldc _ _ _ | .fromint _ _ _ _ => [.invalidWidth]
  | .cast _ _ _ _ => [.invalidWidth, .invalidOperand]
  | .cmp _ _ | .eq _ _ | .ne _ _ | .lt _ _ | .le _ _ | .gt _ _ | .ge _ _ => [.invalidOperand]
  | .not _ _ | .and _ _ _ | .or _ _ _ | .xor _ _ _ | .shl _ _ _ | .shr _ _ _ | .shru _ _ _ => [.invalidOperand]
  | .isset _ _ | .setbit _ _ _ _ | .bitlen _ => [.invalidOperand]
  | .add _ _ _ | .neg _ _ | .sub _ _ _ | .abs _ _ | .mul _ _ _ | .toint _ _ => [.invalidOperand]
  | .div _ _ _ | .mod _ _ _ | .divmod _ _ _ _ => [.invalidOperand, .divisionByZero]
  | .fromw _ _ _ _ _ | .fromb _ _ _ _ _ => [.invalidWidth, .bufRange]
  | .tow _ _ | .tob _ _ | .dbg _ _ _ => [.invalidOperand, .bufRange]
  | .parse _ _ _ _ _ _ => [.invalidWidth, .radixOutOfRange, .bufRange, .invalidDigit]
  | .fmt _ _ _ => [.invalidOperand, .radixOutOfRange, .bufRange]
  | .clre => []

/-! ### Texts and numerals -/

/-- The number a text of digits denotes in base `radix`, most significant digit first, after the number `acc`; none
where a character is no digit below the radix (R62, R190). -/
def digitsValueFrom (radix : Nat) : Nat → List Byte → Option Nat
  | acc, [] => some acc
  | acc, c :: t =>
    match digitOf c with
    | some d => if d < radix then digitsValueFrom radix (acc * radix + d) t else none
    | none => none

/-- A leading sign of a text (R190). -/
def isSign (c : Byte) : Bool := c == charMinus || c == charPlus

/-- The number a text denotes for `PARSE`: the leading signs, each `-` negating, then one of the texts `NaN` and
`Infinity` (zero) or digits, none of them being zero too (R190). -/
def textValue (radix : Nat) (t : List Byte) : Option Int :=
  let signs := t.takeWhile isSign
  let body := t.dropWhile isSign
  if body = textNaN ∨ body = textInfinity then some 0
  else (digitsValueFrom radix 0 body).map fun n => (-1) ^ signs.count charMinus * (n : Int)

/-- The canonical numeral of an integer in base `radix` (R195): `0`, or its digits, most significant first, after `-`
when it is negative. -/
def numeral (radix : Nat) (x : Int) : List Byte :=
  if x = 0 then textZero
  else if x < 0 then charMinus :: (Nat.digits radix x.natAbs).reverse.map digitChar
  else (Nat.digits radix x.natAbs).reverse.map digitChar

/-! ### The order of the checks -/

/-- Whether a source register is empty (R104). -/
def emptySource (s : State) (i : Instr) : Bool := (sources i).any fun r => (s.v.get r).isNone

/-- Whether the divisor, coerced to the dividend's width, is zero (R165, R220). -/
def zeroDivisor (s : State) : Instr → Bool
  | .div _ a b | .mod _ a b | .divmod _ _ a b =>
    match s.v.get a, s.v.get b with
    | some x, some y => y.ubits % 2 ^ x.width == 0
    | _, _ => false
  | _ => false

/-- Whether the text a `PARSE` reads is none (R190). -/
def badText (s : State) : Instr → Bool
  | .parse _ _ _ radix addr len => (textValue radix.toNat (s.bufBytes addr.toNat len.toNat)).isNone
  | _ => false

/-- The checks of steps 2 to 7 of R100, in the order of R223, each with its error. -/
def checks (s : State) (i : Instr) : List (Bool × Error) :=
  [((widthField i).any fun n => decide ¬s.LegalWidth n, .invalidWidth),
   (emptySource s i, .invalidOperand),
   ((radixField i).any fun r => decide ¬LegalRadix r, .radixOutOfRange),
   ((reads i).any fun p => decide ¬s.InRange p.1 p.2, .bufRange),
   (zeroDivisor s i, .divisionByZero),
   (badText s i, .invalidDigit),
   ((stores s i).any fun p => decide ¬s.InRange p.1 p.2.length, .bufRange)]

/-- The error a legal command issued in `s` reports: that of the first check that fails (R223). -/
def firstError (s : State) (i : Instr) : Option Error := ((checks s i).find? fun c => c.1).map fun c => c.2

end Sys2Proof.Machine
end

