-- ==== Sys2Proof/Certificates/Slice0/Obligations.lean ====
section
/-!
DEFINITION. The statements for the provers, in the order of OBLIGATIONS.json. Each docstring names the rules of spec/
the statement formalises. A hypothesis `s.v.get r = some x` says that register `r` holds `x`; `wroteV`, `wroteRes`,
`failed` and `storedFrom` are the end states of Safety, so each equation with one of them is the command's completion,
its result and its frame at once.
-/
section
open Sys2Proof
open Sys2Proof.Machine

/-- Descriptors written out for every family decode to their commands. From R71, R72, R74, R80. -/
def Obligations.SampleDescriptorsDecode : Prop :=
  decode 0x00000000000000000000004002010202 = .ok (.cast 2 1 (some false) 64) ∧
  decode 0x00000000000000000000000000530013 = .ok (.lt 3 5) ∧
  decode 0x00000000000000400000000008040528 = .ok (.setbit 5 4 true 64) ∧
  decode 0x00000000000000000000000000103235 = .ok (.divmod 2 3 0 1) ∧
  decode 0x00020080000000000000004001000042 = .ok (.fromw 0 true 64 0x80 2) ∧
  decode 0x0005000000000000000a001000000050 = .ok (.parse 0 false 16 10 0 5) ∧
  decode 0x0000000000000000000000000000007f = .ok .clre ∧
  decode 0 = .error .unassignedOpcode ∧
  decode 0x00000000000000000000000000102235 = .error .sameDestinations

/-- Decoding the descriptor of a command gives the command. From R70, R71, R72, R73, R74. -/
def Obligations.DecodeOfEncode : Prop :=
  ∀ i : Instr, i.wellFormed = true → decode (encode i) = .ok i

/-- Every legal descriptor is the encoding of the command it decodes to. From R71, R73, R74, R80. -/
def Obligations.EncodeOfDecode : Prop :=
  ∀ (d : Descriptor) (i : Instr), decode d = .ok i → i.wellFormed = true ∧ encode i = d

/-- The decoder and the mask and match table agree on every descriptor. From R75, R80. -/
def Obligations.DecoderMatchesOpcodeTable : Prop :=
  ∀ d : Descriptor,
    match decode d with
    | .ok i =>
      (∃ row ∈ opcodeTable, row.spells d = true) ∧
      ∀ row ∈ opcodeTable, row.spells d = true → row.mnemonic = i.mnemonic
    | .error _ => ∀ row ∈ opcodeTable, row.spells d = false

/-- A descriptor that spells no row raises IllegalCommand and does nothing else. From R75, R80, R81, R220. -/
def Obligations.IllegalDescriptorRaises : Prop :=
  ∀ (d : Descriptor) (s : State), (∀ row ∈ opcodeTable, row.spells d = false) → issue d s = .next (s.failed 1)

/-- Assembler lines of the spec's syntax name their commands; those the model chooses to refuse (log 14) name none.
From R85, R86. That the DIVMOD and the LDC line name no command is the model's choice (DESIGN CHOICE, log 14); V60-10
writes such a DIVMOD. -/
def Obligations.AssemblerSamples : Prop :=
  Assembler.line "FROMINT v0, 32, s, 0x7fffffff".toList = some (.fromint 0 false 32 0x7fffffff) ∧
  Assembler.line "fromint v15, 8, u, -1 ; the last register".toList = some (.fromint 15 true 8 0xffffffff) ∧
  Assembler.line "TOINT v6, u".toList = some (.toint 6 (some true)) ∧
  Assembler.line "toint v6".toList = some (.toint 6 none) ∧
  Assembler.line "LDC v4, 24, MAX_VALUE".toList = some (.ldc 4 24 .maxValue) ∧
  Assembler.line "SETBIT v5, v4, 64, 1".toList = some (.setbit 5 4 true 64) ∧
  Assembler.line "DBG v2, 0x200, sp".toList = some (.dbg 2 true 0x200) ∧
  Assembler.line "+ v2, v0, v1".toList = some (.add 2 0 1) ∧
  Assembler.line "- v2, v0, v1".toList = some (.sub 2 0 1) ∧
  Assembler.line "<< v1, v0, 31".toList = some (.shl 1 0 31) ∧
  Assembler.line "DIVMOD v2, v2, v0, v1".toList = none ∧
  Assembler.line "LDC v0, 65536, ONE".toList = none ∧
  Assembler.line "* v2, v0, v1".toList = none

/-- Every line the model's assembler accepts is one legal descriptor (the model's choice, log 14). From R80, R85, R86.
That the one descriptor of R86 is always legal is the model's choice (DESIGN CHOICE, log 14); V60-10 writes a DIVMOD
that is not. -/
def Obligations.AssembledLinesAreLegal : Prop :=
  ∀ (l : List Char) (i : Instr), Assembler.line l = some i → decode (encode i) = .ok i

/-- The Reset transaction leaves the state of rule R37. From R37. The draws of BUF are the model's (log 3). -/
def Obligations.ResetLeavesTheSpecsState : Prop :=
  ∀ s : State, ∃ t, transact .reset s = .next t ∧
    (∀ r : Reg, t.v.get r = none ∧ exec (.bitlen r) t = .next (t.failed 3)) ∧
    t.res = 0 ∧ t.status.err = 0 ∧ t.status.ef = false ∧ t.status.ru = false ∧ t.cfg = s.cfg ∧
    (t.draw ≠ s.draw ∧ ∀ a, t.bufByte a = Config.freeByte t.draw a) ∧
    (∀ r : Reg, State.reset.v.get r = none) ∧ State.reset.res = 0 ∧ State.reset.status = ⟨0, false, false⟩ ∧
    ∀ a, State.reset.bufByte a = Config.freeByte State.reset.draw a

/-- The state right after reset meets the invariant. From R37, R5. The parameters at reset are the model's (log 4). -/
def Obligations.ResetStateMeetsInv : Prop :=
  State.Inv State.reset

/-- Every step keeps the invariant. From R20, R22, R30, R220, R103. -/
def Obligations.StepKeepsInv : Prop :=
  ∀ s t : State, s.Inv → step s = .next t → t.Inv

/-- A step runs the command whose descriptor the host issues next. From R27, R35, R100. The list of pending
transactions is the model's (log 1). -/
def Obligations.StepRunsTheIssuedCommand : Prop :=
  (∀ (s : State) (d : Descriptor) (i : Instr) (ts : List Transaction), decode d = .ok i →
    s.pending = .issue d :: ts → step s = exec i { s with pending := ts }) ∧
  (∀ (s : State) (d : Descriptor) (i : Instr), decode d = .ok i → step (s.withIssue d) = exec i s) ∧
  ∀ (s : State) (n w : Nat) (i : Instr), decodeTableWord n w = some i → step (s.withFetchWord n w) = exec i s

/-- What ReadReg, ReadBuf and WriteBuf do. From R35, R54, R58. That the answer is kept in the state is the model's
(log 2); that WriteBuf leaves STATUS is read from R26 by inference (log 13). -/
def Obligations.HostTransactions : Prop :=
  (∀ s : State,
    transact (.readReg .status) s = .next { s with reply := some (.reg s.status.word) } ∧
    transact (.readReg .res) s = .next { s with reply := some (.reg s.res) } ∧
    transact (.readReg .cfg) s = .next { s with reply := some (.reg s.cfg) }) ∧
  ∀ (s : State) (a : Nat), a < s.bufSize →
    transact (.readBuf a) s = .next { s with reply := some (.byte (s.bufByte a)) } ∧
    ∀ b : Byte, ∃ t, transact (.writeBuf a b) s = .next t ∧ t = { s with buf := t.buf } ∧ t.bufByte a = b ∧
      ∀ q, q ≠ a → t.bufByte q = s.bufByte q

/-- What the model adds: a host access beyond BUF faults, an idle unit stays. From R30, R34, R35. The fault (log 6)
and the idle step (log 1) are the model's choices. -/
def Obligations.ModelsOwnStops : Prop :=
  (∀ (s : State) (a : Nat) (b : Byte) (ts : List Transaction), s.bufSize ≤ a →
    (s.pending = .readBuf a :: ts ∨ s.pending = .writeBuf a b :: ts) → step s = .fault .hostBufAddress) ∧
  ∀ s : State, s.pending = [] → step s = .next s

/-- CFG holds MAXBITS and BUFSIZE - 1 and no step changes it. From R29, R5. -/
def Obligations.CfgHoldsTheParameters : Prop :=
  ∀ s t : State, step s = .next t →
    t.cfg = s.cfg ∧ (s.cfg.extractLsb' 0 16).toNat = s.maxBits ∧ (s.cfg.extractLsb' 16 16).toNat = s.bufSize - 1 ∧
      1 ≤ s.bufSize

/-- Every command ends in a next state. From R101, R226. The ill-formed DIVMOD, which no descriptor decodes to, is the
model's (log 12). -/
def Obligations.EveryCommandCompletes : Prop :=
  ∀ (i : Instr) (s : State), ∃ t, exec i s = .next t

/-- A command reports the first check that fails, else it succeeds. From R100, R223, R224, R220. -/
def Obligations.FirstErrorIsReported : Prop :=
  ∀ (i : Instr) (s : State), i.wellFormed = true →
    match firstError s i with
    | some e => exec i s = .next (s.failed e.code)
    | none => ∃ t, exec i s = .next t ∧ t.status.err = 0 ∧ t.status.ef = (s.status.ef && decide (i ≠ .clre))

/-- A command raises only the errors the table gives it. From R221, R220, R224. -/
def Obligations.ErrorsByCommand : Prop :=
  ∀ (i : Instr) (s t : State), i.wellFormed = true → exec i s = .next t →
    t.status.err = 0 ∨ ∃ e ∈ mayRaise i, t = s.failed e.code

/-- A command that ends with an error changes nothing but ERR and EF. From R224, R9. -/
def Obligations.ErrorsArePrecise : Prop :=
  ∀ (d : Descriptor) (s t : State), issue d s = .next t → t.status.err ≠ 0 →
    t = s.failed t.status.err ∧ t.v = s.v ∧ t.res = s.res ∧ t.status.ru = s.status.ru ∧ t.status.ef = true ∧
      ∀ a, t.bufByte a = s.bufByte a

/-- STATUS: its layout, what writes each field, its value at reset. From R26, R220. That WriteBuf leaves STATUS is
read from R26 by inference (log 13). -/
def Obligations.StatusFields : Prop :=
  (∀ s : State, transact (.readReg .status) s = .next { s with reply := some (.reg s.status.word) } ∧
    s.status.word.extractLsb' 0 4 = s.status.err ∧ s.status.word.getLsbD 4 = s.status.ef ∧
    s.status.word.getLsbD 5 = s.status.ru ∧ s.status.word.extractLsb' 6 26 = 0) ∧
  (∀ (d : Descriptor) (s t : State), issue d s = .next t →
    (t.status.err = 0 ∨ ∃ e : Error, t.status.err = e.code) ∧
    t.status.ef = (t.status.err != 0 || (s.status.ef && decide (decode d ≠ .ok .clre))) ∧
    (t.status.err ≠ 0 ∨ (∀ ra mode, decode d ≠ .ok (.toint ra mode)) → t.status.ru = s.status.ru) ∧
    ∀ ra mode a, decode d = .ok (.toint ra mode) → s.v.get ra = some a →
      t.status.ru = match mode with | none => a.unsigned | some m => m) ∧
  (∀ s t : State, transact .reset s = .next t → t.status = ⟨0, false, false⟩) ∧
  ∀ (s t : State) (a : Nat) (b : Byte),
    (transact (.readBuf a) s = .next t ∨ transact (.writeBuf a b) s = .next t) → t.status = s.status

/-- RES is written by exactly its fourteen commands, on success only. Formalises R25. -/
def Obligations.ResIsWrittenByItsCommandsOnly : Prop :=
  (∀ i : Instr, writesRes i = true ↔ i.mnemonic ∈ ["CMP", "EQ", "NE", "LT", "LE", "GT", "GE", "ISSET", "BITLEN", "TOINT",
    "TOW", "TOB", "FMT", "DBG"]) ∧
  (∀ (i : Instr) (s t : State) (w : Word), exec i s = .next t → writesRes i = true → t.status.err = 0 →
    exec i { s with res := w } = .next t) ∧
  (∀ (i : Instr) (s t : State), exec i s = .next t → writesRes i = false ∨ t.status.err ≠ 0 → t.res = s.res) ∧
  (∀ (d : Descriptor) (s t : State) (x : DecodeError), decode d = .error x → issue d s = .next t → t.res = s.res) ∧
  (∀ (s t : State) (r : HostReg) (a : Nat) (b : Byte), (transact (.readReg r) s = .next t ∨
    transact (.readBuf a) s = .next t ∨ transact (.writeBuf a b) s = .next t) → t.res = s.res) ∧
  (∀ s : State, transact (.readReg .res) s = .next { s with reply := some (.reg s.res) }) ∧
  (∀ s t : State, transact .reset s = .next t → t.res = 0) ∧ State.reset.res = 0

/-- A command leaves every value register but its destinations unchanged. From R23, R24. -/
def Obligations.OtherRegistersUnchanged : Prop :=
  ∀ (i : Instr) (s t : State) (r : Reg), exec i s = .next t → r ∉ dests i → t.v.get r = s.v.get r

/-- A command leaves every byte of BUF but those it stores unchanged. From R30, R54. -/
def Obligations.OtherBytesUnchanged : Prop :=
  ∀ (i : Instr) (s t : State), exec i s = .next t →
    ∀ a, (∀ p, stores s i = some p → a < p.1 ∨ p.1 + p.2.length ≤ a) → t.bufByte a = s.bufByte a

/-- A command changes neither CFG nor anything of the host's. From R29, R34, R58. The fields draw, pending and reply
are the model's (logs 3, 1, 2). -/
def Obligations.NoCommandTouchesTheHost : Prop :=
  ∀ (i : Instr) (s t : State), exec i s = .next t →
    t.cfg = s.cfg ∧ t.draw = s.draw ∧ t.pending = s.pending ∧ t.reply = s.reply

/-- Only Reset empties a value register. From R240, R22. -/
def Obligations.RegistersEmptyOnlyByReset : Prop :=
  ∀ (s t : State) (r : Reg), step s = .next t → s.pending.head? ≠ some .reset → s.v.get r ≠ none → t.v.get r ≠ none

/-- A command runs the same after an error as without it. From R226, R224. -/
def Obligations.ErrorsDoNotNest : Prop :=
  ∀ (i : Instr) (s t : State) (c : BitVec 4), exec i s = .next t → ∃ t', exec i (s.failed c) = .next t' ∧
    t'.v = t.v ∧ t'.res = t.res ∧ t'.buf = t.buf ∧ t'.status.err = t.status.err ∧ t'.status.ru = t.status.ru ∧
    t'.status.ef = (t.status.err != 0 || decide (i ≠ .clre))

/-- A width that is 0, no multiple of 8 or above MAXBITS raises InvalidWidth; else the result has it. From R103, R120,
R122. -/
def Obligations.IllegalWidthRaises : Prop :=
  (∀ i : Instr, (widthField i).isSome = true ↔ i.mnemonic ∈ ["LDC", "CAST", "FROMINT", "FROMW", "FROMB", "PARSE"]) ∧
  (∀ (i : Instr) (s : State) (n : BitVec 16), widthField i = some n →
    ¬(0 < n.toNat ∧ n.toNat % 8 = 0 ∧ n.toNat ≤ s.maxBits) → exec i s = .next (s.failed 2)) ∧
  ∀ (i : Instr) (s t : State) (n : BitVec 16), widthField i = some n → exec i s = .next t → t.status.err = 0 →
    ∀ r ∈ dests i, ∃ x, t.v.get r = some x ∧ x.width = n.toNat

/-- An empty source register raises InvalidOperand and never reads as zero. From R104, R223. -/
def Obligations.EmptySourceRaises : Prop :=
  ∀ (i : Instr) (s : State) (r : Reg), i.wellFormed = true → r ∈ sources i → s.v.get r = none →
    (∀ n, widthField i = some n → s.LegalWidth n) → exec i s = .next (s.failed 3)

/-- A radix outside 2 to 36, and an access that passes BUFSIZE, raise their errors. From R55, R100, R190, R195. -/
def Obligations.RadixAndRangeRaise : Prop :=
  (∀ (i : Instr) (s : State) (x : BitVec 8), radixField i = some x → (x.toNat < 2 ∨ 36 < x.toNat) →
    (∀ n, widthField i = some n → s.LegalWidth n) → (∀ r ∈ sources i, s.v.get r ≠ none) →
    exec i s = .next (s.failed 4)) ∧
  (∀ (i : Instr) (s : State) (p : Nat × Nat), reads i = some p → 0 < p.2 → s.bufSize < p.1 + p.2 →
    (∀ n, widthField i = some n → s.LegalWidth n) → (∀ x, radixField i = some x → LegalRadix x) →
    exec i s = .next (s.failed 5)) ∧
  (∀ (i : Instr) (s : State) (p : Nat × List Byte), stores s i = some p → p.2 ≠ [] → s.bufSize < p.1 + p.2.length →
    (∀ x, radixField i = some x → LegalRadix x) → exec i s = .next (s.failed 5)) ∧
  ∀ (i : Instr) (s t : State) (p : Nat × Nat), reads i = some p → p.2 = 0 → exec i s = .next t → t.status.err ≠ 5

/-- LDC writes the constant of its id at its width. From R120, R121. -/
def Obligations.LdcWritesTheConstant : Prop :=
  ∀ (s : State) (rd : Reg) (n : BitVec 16) (c : ConstId), s.LegalWidth n →
    ∃ x, x.width = n.toNat ∧ x.unsigned = decide (c = .uzero ∨ c = .uone ∨ c = .maxUnsignedValue) ∧
      x.val = (match c with
        | .zero | .uzero => 0
        | .one | .uone => 1
        | .minValue => -2 ^ (n.toNat - 1)
        | .maxValue => 2 ^ (n.toNat - 1) - 1
        | .maxUnsignedValue => 2 ^ n.toNat - 1
        | .negOne => -1) ∧
      exec (.ldc rd n c) s = .next (s.wroteV rd x)

/-- CAST writes val(a) modulo 2^M at width M, with the override's flag or the source's. From R122, R123, R107. -/
def Obligations.CastKeepsTheValue : Prop :=
  ∀ (s : State) (rd ra : Reg) (mode : Option Bool) (n : BitVec 16) (a : IntVal), s.LegalWidth n → s.v.get ra = some a →
    ∃ x, x.width = n.toNat ∧ x.unsigned = (match mode with | none => a.unsigned | some m => m) ∧
      (x.ubits : Int) = a.val % 2 ^ n.toNat ∧
      (a.width ≤ n.toNat → x.unsigned = a.unsigned → x.val = a.val) ∧
      exec (.cast rd ra mode n) s = .next (s.wroteV rd x)

/-- The second operand is truncated or zero-padded to the receiver's width and keeps its flag. From R105, R21. -/
def Obligations.CoercionTruncatesOrPads : Prop :=
  ∀ (s : State) (ra rb : Reg) (a b : IntVal), s.v.get ra = some a → s.v.get rb = some b →
    ∃ x, s.operands ra rb = .ok (a, x) ∧ x.nb = a.nb ∧ x.unsigned = b.unsigned ∧
      (∀ i, i < a.nb → x.byteAt i = if i < b.nb then b.byteAt i else 0) ∧
      (b.nb = a.nb → x = b) ∧ x.ubits = b.ubits % 2 ^ a.width

/-- CMP leaves -1, 0 or +1 as val(a) is below, equal to or above val(b). From R130, R137, R105, R107. -/
def Obligations.CmpLeavesTheOrder : Prop :=
  ∀ (s : State) (ra rb : Reg) (a b : IntVal), s.v.get ra = some a → s.v.get rb = some b →
    exec (.cmp ra rb) s = .next (s.wroteRes
      (if a.val < (b.coerce a.nb).val then 0xffffffff else if a.val = (b.coerce a.nb).val then 0 else 1))

/-- EQ, NE, LT, LE, GT and GE leave 1 or 0 by the result of compare. Formalises R131, R132, R133, R134, R135, R136. -/
def Obligations.PredicatesTestTheComparison : Prop :=
  ∀ (s : State) (ra rb : Reg) (a b : IntVal), s.v.get ra = some a → s.v.get rb = some b →
    let c := a.compare (b.coerce a.nb)
    exec (.eq ra rb) s = .next (s.wroteRes (if c = .eq then 1 else 0)) ∧
    exec (.ne ra rb) s = .next (s.wroteRes (if c ≠ .eq then 1 else 0)) ∧
    exec (.lt ra rb) s = .next (s.wroteRes (if c = .lt then 1 else 0)) ∧
    exec (.le ra rb) s = .next (s.wroteRes (if c ≠ .gt then 1 else 0)) ∧
    exec (.gt ra rb) s = .next (s.wroteRes (if c = .gt then 1 else 0)) ∧
    exec (.ge ra rb) s = .next (s.wroteRes (if c ≠ .lt then 1 else 0)) ∧
    (a.bytes = b.bytes → a.unsigned ≠ b.unsigned →
      exec (.eq ra rb) s = .next (s.wroteRes (if a.bit (a.width - 1) then 0 else 1))) ∧
    (encodeFields (.eq ra rb)).op = 0x11 ∧ (encodeFields (.ne ra rb)).op = 0x12 ∧ (encodeFields (.lt ra rb)).op = 0x13 ∧
    (encodeFields (.le ra rb)).op = 0x14 ∧ (encodeFields (.gt ra rb)).op = 0x15 ∧ (encodeFields (.ge ra rb)).op = 0x16

/-- The six predicates order the numbers the operands denote. From R131, R132, R133, R134, R135, R136, R137. -/
def Obligations.PredicatesOrderTheValues : Prop :=
  ∀ (s : State) (ra rb : Reg) (a b : IntVal), s.v.get ra = some a → s.v.get rb = some b →
    let x := a.val
    let y := (b.coerce a.nb).val
    exec (.eq ra rb) s = .next (s.wroteRes (if x = y then 1 else 0)) ∧
    exec (.ne ra rb) s = .next (s.wroteRes (if x ≠ y then 1 else 0)) ∧
    exec (.lt ra rb) s = .next (s.wroteRes (if x < y then 1 else 0)) ∧
    exec (.le ra rb) s = .next (s.wroteRes (if x ≤ y then 1 else 0)) ∧
    exec (.gt ra rb) s = .next (s.wroteRes (if y < x then 1 else 0)) ∧
    exec (.ge ra rb) s = .next (s.wroteRes (if y ≤ x then 1 else 0))

/-- NOT complements every byte of its operand. Formalises R140. -/
def Obligations.NotComplements : Prop :=
  ∀ (s : State) (rd ra : Reg) (a : IntVal), s.v.get ra = some a →
    ∃ x, x.nb = a.nb ∧ x.unsigned = a.unsigned ∧ (∀ i, i < a.nb → x.byteAt i = ~~~a.byteAt i) ∧
      x.ubits = 2 ^ a.width - 1 - a.ubits ∧ (0 < a.nb → a.unsigned = false → x.val = -a.val - 1) ∧ x.not = a ∧
      exec (.not rd ra) s = .next (s.wroteV rd x) ∧
      encodeFields (.not rd ra) = { Fields.zero with op := 0x20, rd := rd, ra := ra }

/-- AND, OR and XOR combine the operands byte by byte. Formalises R141, R142, R143. -/
def Obligations.AndOrXorBytewise : Prop :=
  ∀ (s : State) (rd ra rb : Reg) (a b : IntVal), s.v.get ra = some a → s.v.get rb = some b →
    (∃ x, x.nb = a.nb ∧ x.unsigned = a.unsigned ∧ (∀ i, i < a.nb → x.byteAt i = a.byteAt i &&& b.byteAt i) ∧
      exec (.and rd ra rb) s = .next (s.wroteV rd x)) ∧
    (∃ x, x.nb = a.nb ∧ x.unsigned = a.unsigned ∧ (∀ i, i < a.nb → x.byteAt i = a.byteAt i ||| b.byteAt i) ∧
      exec (.or rd ra rb) s = .next (s.wroteV rd x)) ∧
    (∃ x, x.nb = a.nb ∧ x.unsigned = a.unsigned ∧ (∀ i, i < a.nb → x.byteAt i = a.byteAt i ^^^ b.byteAt i) ∧
      exec (.xor rd ra rb) s = .next (s.wroteV rd x)) ∧
    (encodeFields (.and rd ra rb)).op = 0x21 ∧ (encodeFields (.or rd ra rb)).op = 0x22 ∧
    (encodeFields (.xor rd ra rb)).op = 0x23

/-- SHL multiplies and SHRU divides the bits by 2^k, k the count modulo N. From R144, R146, R106. -/
def Obligations.LogicalShiftsScaleTheBits : Prop :=
  ∀ (s : State) (rd ra : Reg) (imm : Word) (a : IntVal), s.v.get ra = some a →
    let k := imm.toNat % a.width
    (∃ x, x.nb = a.nb ∧ x.unsigned = a.unsigned ∧ x.ubits = a.ubits * 2 ^ k % 2 ^ a.width ∧
      exec (.shl rd ra imm) s = .next (s.wroteV rd x)) ∧
    ∃ x, x.nb = a.nb ∧ x.unsigned = a.unsigned ∧ x.ubits = a.ubits / 2 ^ k ∧
      exec (.shru rd ra imm) s = .next (s.wroteV rd x)

/-- SHR floors val(a) / 2^k, k the count modulo N. From R145, R106, R107. -/
def Obligations.ShrDividesTheValue : Prop :=
  ∀ (s : State) (rd ra : Reg) (imm : Word) (a : IntVal), s.v.get ra = some a →
    ∃ x, x.nb = a.nb ∧ x.unsigned = a.unsigned ∧
      (x.ubits : Int) = a.val / 2 ^ (imm.toNat % a.width) % 2 ^ a.width ∧
      x.val = a.val / 2 ^ (imm.toNat % a.width) ∧
      exec (.shr rd ra imm) s = .next (s.wroteV rd x)

/-- ISSET leaves bit i of the source in RES, and 0 at or beyond the width. From R147. -/
def Obligations.IssetReadsOneBit : Prop :=
  ∀ (s : State) (ra : Reg) (imm : Word) (a : IntVal), s.v.get ra = some a →
    exec (.isset ra imm) s =
      .next (s.wroteRes (if imm.toNat < a.width ∧ a.ubits.testBit imm.toNat = true then 1 else 0))

/-- SETBIT copies the source with bit i set to the given value, unchanged beyond the width. From R148, R106. -/
def Obligations.SetbitWritesOneBit : Prop :=
  ∀ (s : State) (rd ra : Reg) (bv : Bool) (imm : Word) (a : IntVal), s.v.get ra = some a →
    ∃ x, x.nb = a.nb ∧ x.unsigned = a.unsigned ∧ (a.width ≤ imm.toNat → x = a) ∧
      (∀ j, j < a.width → x.ubits.testBit j = if j = imm.toNat then bv else a.ubits.testBit j) ∧
      exec (.setbit rd ra bv imm) s = .next (s.wroteV rd x)

/-- BITLEN leaves the least L with ubits(a) < 2^L. From R149. -/
def Obligations.BitlenIsTheLeastLength : Prop :=
  ∀ (s : State) (ra : Reg) (a : IntVal), s.v.get ra = some a →
    ∃ L, a.ubits < 2 ^ L ∧ (∀ m, a.ubits < 2 ^ m → L ≤ m) ∧ L ≤ a.width ∧
      exec (.bitlen ra) s = .next (s.wroteRes (BitVec.ofNat 32 L))

/-- ADD, SUB and MUL give the sum, difference and product of the bits modulo 2^N. From R160, R162, R164, R169, R106.
-/
def Obligations.AddSubMulWrap : Prop :=
  ∀ (s : State) (rd ra rb : Reg) (a b : IntVal), s.v.get ra = some a → s.v.get rb = some b →
    let y := b.ubits % 2 ^ a.width
    (∃ x, x.nb = a.nb ∧ x.unsigned = a.unsigned ∧ x.ubits = (a.ubits + y) % 2 ^ a.width ∧
      exec (.add rd ra rb) s = .next (s.wroteV rd x)) ∧
    (∃ x, x.nb = a.nb ∧ x.unsigned = a.unsigned ∧ (x.ubits : Int) = (a.ubits - y : Int) % 2 ^ a.width ∧
      exec (.sub rd ra rb) s = .next (s.wroteV rd x)) ∧
    ∃ x, x.nb = a.nb ∧ x.unsigned = a.unsigned ∧ x.ubits = a.ubits * y % 2 ^ a.width ∧
      exec (.mul rd ra rb) s = .next (s.wroteV rd x)

/-- NEG gives the two's complement, ABS the magnitude as an unsigned value. From R161, R163, R107. -/
def Obligations.NegAndAbs : Prop :=
  ∀ (s : State) (rd ra : Reg) (a : IntVal), s.v.get ra = some a →
    (∃ x, x.nb = a.nb ∧ x.unsigned = a.unsigned ∧ x.ubits = (2 ^ a.width - a.ubits) % 2 ^ a.width ∧
      (0 < a.nb → a.ubits = 2 ^ (a.width - 1) → x = a) ∧ x.negate = a ∧
      exec (.neg rd ra) s = .next (s.wroteV rd x)) ∧
    ∃ x, x.nb = a.nb ∧ x.unsigned = true ∧ x.ubits = a.val.natAbs ∧ exec (.abs rd ra) s = .next (s.wroteV rd x)

/-- DIVMOD, DIV and MOD give the quotient truncated toward zero and its remainder. From R165, R166, R167, R168, R107.
-/
def Obligations.DivisionTruncates : Prop :=
  ∀ (s : State) (rd rd2 ra rb : Reg) (a b : IntVal), s.v.get ra = some a → s.v.get rb = some b →
    b.ubits % 2 ^ a.width ≠ 0 →
    ∃ q r, q.nb = a.nb ∧ q.unsigned = a.unsigned ∧ r.nb = a.nb ∧ r.unsigned = a.unsigned ∧
      (q.ubits : Int) = a.val.tdiv (b.coerce a.nb).val % 2 ^ a.width ∧ r.val = a.val.tmod (b.coerce a.nb).val ∧
      (rd ≠ rd2 → exec (.divmod rd rd2 ra rb) s = .next ((s.wroteV rd q).wroteV rd2 r)) ∧
      exec (.div rd ra rb) s = .next (s.wroteV rd q) ∧ exec (.mod rd ra rb) s = .next (s.wroteV rd r)

/-- A divisor that is zero after coercion raises DivisionByZero, whatever the dividend. From R165, R166, R167, R168,
R220. -/
def Obligations.DivisionByZeroRaises : Prop :=
  ∀ (s : State) (rd rd2 ra rb : Reg) (a b : IntVal), s.v.get ra = some a → s.v.get rb = some b →
    b.ubits % 2 ^ a.width = 0 →
    (rd ≠ rd2 → exec (.divmod rd rd2 ra rb) s = .next (s.failed 6)) ∧
    exec (.div rd ra rb) s = .next (s.failed 6) ∧ exec (.mod rd ra rb) s = .next (s.failed 6)

/-- Quotient times divisor plus remainder is the dividend, in every combination of modes. From R165, R164, R160. -/
def Obligations.DivisionIdentity : Prop :=
  ∀ (s : State) (ra rb rq rr : Reg) (a b : IntVal), s.v.get ra = some a → s.v.get rb = some b →
    b.ubits % 2 ^ a.width ≠ 0 → rq ≠ rr → rq ≠ rb → rr ≠ rb →
    ∃ t1 t2 t3, exec (.divmod rq rr ra rb) s = .next t1 ∧ exec (.mul rq rq rb) t1 = .next t2 ∧
      exec (.add rq rq rr) t2 = .next t3 ∧ t3.v.get rq = some a ∧ t3.status.err = 0

/-- ADD, NEG, SUB and ABS compute what the carry iteration of the spec computes. From R160, R161, R162, R163. -/
def Obligations.AdditionIsCarryIteration : Prop :=
  ∀ (s : State) (rd ra rb : Reg) (a b : IntVal), s.v.get ra = some a → s.v.get rb = some b →
    exec (.add rd ra rb) s = .next (s.wroteV rd (carryAdd a (b.coerce a.nb))) ∧
    exec (.sub rd ra rb) s = .next (s.wroteV rd (carrySub a (b.coerce a.nb))) ∧
    exec (.neg rd ra) s = .next (s.wroteV rd (carryNegate a)) ∧
    exec (.abs rd ra) s = .next (s.wroteV rd (carryAbsolute a))

/-- MUL computes what the shift-and-add loop of the spec computes. From R164. -/
def Obligations.MultiplicationIsShiftAndAdd : Prop :=
  ∀ (s : State) (rd ra rb : Reg) (a b : IntVal), s.v.get ra = some a → s.v.get rb = some b →
    exec (.mul rd ra rb) s = .next (s.wroteV rd (shiftAddMul a (b.coerce a.nb)))

/-- DIVMOD, DIV and MOD compute what restoring long division computes. From R165, R166, R167, R168. -/
def Obligations.DivisionIsRestoring : Prop :=
  ∀ (s : State) (rd rd2 ra rb : Reg) (a b : IntVal), s.v.get ra = some a → s.v.get rb = some b → rd ≠ rd2 →
    match restoringDivmod a (b.coerce a.nb) with
    | .ok (q, r) =>
      exec (.divmod rd rd2 ra rb) s = .next ((s.wroteV rd q).wroteV rd2 r) ∧
      exec (.div rd ra rb) s = .next (s.wroteV rd q) ∧ exec (.mod rd ra rb) s = .next (s.wroteV rd r)
    | .error e =>
      exec (.divmod rd rd2 ra rb) s = .next (s.failed e.code) ∧
      exec (.div rd ra rb) s = .next (s.failed e.code) ∧ exec (.mod rd ra rb) s = .next (s.failed e.code)

/-- The bytes of NOT, AND, OR, XOR, SHL, SHRU, SETBIT, ADD, NEG, SUB and MUL ignore the flags. From R108. -/
def Obligations.BytesIgnoreFlags : Prop :=
  ∀ (s s' : State) (i : Instr) (rd : Reg), i.mnemonic ∈ ["NOT", "AND", "OR", "XOR", "SHL", "SHRU", "SETBIT", "ADD", "NEG",
      "SUB", "MUL"] → rd ∈ dests i →
    (∀ r ∈ sources i, ∃ x u, s.v.get r = some x ∧ s'.v.get r = some (x.retag u)) →
    ∃ t t' y y', exec i s = .next t ∧ exec i s' = .next t' ∧ t.v.get rd = some y ∧ t'.v.get rd = some y' ∧
      y.bytes = y'.bytes

/-- FROMINT writes the signed 32-bit immediate modulo 2^N. From R180, R72. -/
def Obligations.FromintWritesTheInteger : Prop :=
  ∀ (s : State) (rd : Reg) (u : Bool) (n : BitVec 16) (imm : Word), s.LegalWidth n →
    ∃ x, x.width = n.toNat ∧ x.unsigned = u ∧ (x.ubits : Int) = imm.toInt % 2 ^ n.toNat ∧
      exec (.fromint rd u n imm) s = .next (s.wroteV rd x)

/-- TOINT leaves val(a) modulo 2^32 in RES and the requested mode in RU. From R181, R107. -/
def Obligations.TointLeavesTheLowWord : Prop :=
  ∀ (s : State) (ra : Reg) (mode : Option Bool) (a : IntVal), s.v.get ra = some a →
    ∃ w : Word, (w.toNat : Int) = a.val % 2 ^ 32 ∧
      exec (.toint ra mode) s = .next { s with
        res := w
        status := ⟨0, s.status.ef, match mode with | none => a.unsigned | some m => m⟩ }

/-- FROMW and FROMB read bytes of BUF, least significant first, truncated or zero-padded. From R182, R184, R21, R50,
R51, R55. -/
def Obligations.FromwAndFrombReadBytes : Prop :=
  ∀ (s : State) (rd : Reg) (u : Bool) (n addr len : BitVec 16), s.LegalWidth n →
    (s.InRange addr.toNat (4 * len.toNat) → ∃ x, x.width = n.toNat ∧ x.unsigned = u ∧
      (∀ i, i < n.toNat / 8 → x.byteAt i = if i < 4 * len.toNat then s.bufByte (addr.toNat + i) else 0) ∧
      exec (.fromw rd u n addr len) s = .next (s.wroteV rd x)) ∧
    (s.InRange addr.toNat len.toNat → ∃ x, x.width = n.toNat ∧ x.unsigned = u ∧
      (∀ i, i < n.toNat / 8 → x.byteAt i = if i < len.toNat then s.bufByte (addr.toNat + i) else 0) ∧
      exec (.fromb rd u n addr len) s = .next (s.wroteV rd x))

/-- TOB stores the bytes of a value, TOW its words padded with zero bytes, and count them in RES. From R183, R185,
R50, R51. -/
def Obligations.TowAndTobStoreBytes : Prop :=
  ∀ (s : State) (ra : Reg) (addr : BitVec 16) (a : IntVal), s.v.get ra = some a →
    (s.InRange addr.toNat a.nb → ∃ t bs, bs.length = a.nb ∧ (∀ i (h : i < bs.length), bs[i] = a.byteAt i) ∧
      s.storedFrom t addr.toNat bs (BitVec.ofNat 32 a.nb) ∧ exec (.tob ra addr) s = .next t) ∧
    (s.InRange addr.toNat (4 * ((a.width + 31) / 32)) → ∃ t bs, bs.length = 4 * ((a.width + 31) / 32) ∧
      (∀ i (h : i < bs.length), bs[i] = if i < a.nb then a.byteAt i else 0) ∧
      s.storedFrom t addr.toNat bs (BitVec.ofNat 32 ((a.width + 31) / 32)) ∧ exec (.tow ra addr) s = .next t)

/-- TOW followed by FROMB of the value's bytes at the same address gives back the value. From R51, R183, R184. -/
def Obligations.TowThenFrombGivesTheValue : Prop :=
  ∀ (s : State) (ra rd : Reg) (addr n len : BitVec 16) (a : IntVal), s.v.get ra = some a → s.LegalWidth n →
    n.toNat = a.width → len.toNat = a.nb → s.InRange addr.toNat (4 * ((a.width + 31) / 32)) →
    ∃ t, exec (.tow ra addr) s = .next t ∧ exec (.fromb rd a.unsigned n addr len) t = .next (t.wroteV rd a)

/-- PARSE writes the number the text denotes modulo 2^N, or raises InvalidDigit. From R190, R52, R62. -/
def Obligations.ParseWritesTheNumber : Prop :=
  ∀ (s : State) (rd : Reg) (u : Bool) (n : BitVec 16) (radix : BitVec 8) (addr len : BitVec 16), s.LegalWidth n →
    LegalRadix radix → s.InRange addr.toNat len.toNat →
    match textValue radix.toNat (s.bufBytes addr.toNat len.toNat) with
    | some z => ∃ x, x.width = n.toNat ∧ x.unsigned = u ∧ (x.ubits : Int) = z % 2 ^ n.toNat ∧
        exec (.parse rd u n radix addr len) s = .next (s.wroteV rd x)
    | none => exec (.parse rd u n radix addr len) s = .next (s.failed 7)

/-- FMT stores the canonical numeral of the value and leaves its length in RES. From R195, R52, R62. -/
def Obligations.FmtStoresTheNumeral : Prop :=
  ∀ (s : State) (ra : Reg) (radix : BitVec 8) (addr : BitVec 16) (a : IntVal), s.v.get ra = some a → 0 < a.nb →
    LegalRadix radix → s.InRange addr.toNat (numeral radix.toNat a.val).length →
    ∃ t, s.storedFrom t addr.toNat (numeral radix.toNat a.val)
        (BitVec.ofNat 32 (numeral radix.toNat a.val).length) ∧
      exec (.fmt ra radix addr) s = .next t

/-- PARSE of what FMT wrote gives back the value, MIN_VALUE included. From R190, R195. -/
def Obligations.ParseOfFmtGivesTheValue : Prop :=
  ∀ (s : State) (ra rd : Reg) (radix : BitVec 8) (addr n : BitVec 16) (a : IntVal), s.v.get ra = some a →
    s.LegalWidth n → n.toNat = a.width → LegalRadix radix →
    s.InRange addr.toNat (numeral radix.toNat a.val).length →
    ∃ t, exec (.fmt ra radix addr) s = .next t ∧
      exec (.parse rd a.unsigned n radix addr (t.res.extractLsb' 0 16)) t = .next (t.wroteV rd a)

/-- DBG stores the bits of a value, most significant first, with the options' spaces and marker. From R199, R52, R62.
-/
def Obligations.DbgStoresTheBits : Prop :=
  ∀ (s : State) (ra : Reg) (sp : Bool) (addr : BitVec 16) (a : IntVal), s.v.get ra = some a →
    let body := if sp then 9 * a.nb - 1 else 8 * a.nb
    let mark : List Byte := if a.unsigned then (if sp then [0x20, 0x55] else [0x55]) else []
    s.InRange addr.toNat (body + mark.length) →
    ∃ t bs, bs.length = body + mark.length ∧ bs.drop body = mark ∧
      (∀ j (h : j < bs.length), j < body → bs[j] =
        if sp = true ∧ j % 9 = 8 then 0x20
        else if a.bit (a.width - 1 - (if sp then 8 * (j / 9) + j % 9 else j)) then 0x31 else 0x30) ∧
      s.storedFrom t addr.toNat bs (BitVec.ofNat 32 bs.length) ∧ exec (.dbg ra sp addr) s = .next t

/-- CLRE clears EF and ERR and nothing else; a malformed one sets EF. Formalises R210. -/
def Obligations.ClreClearsTheErrorFlag : Prop :=
  (∀ s : State, exec .clre s = .next { s with status := ⟨0, false, s.status.ru⟩ }) ∧
  encode .clre = 0x7f ∧
  ∀ (s : State) (d : Descriptor), d.extractLsb' 0 8 = 0x7f → d ≠ 0x7f →
    issue d s = .next { s with status := ⟨1, true, s.status.ru⟩ }

end
end

