-- ==== Sys2Proof/Laws/Value.lean ====
section
/-!
SUPPORT. The laws of the value functions: bytes and numbers, `ubits`, `isNeg`, `val`, and the constructors.
-/
namespace Sys2Proof.Machine

theorem pow256 (n : Nat) : 256 ^ n = 2 ^ (8 * n) := by
  rw [show (256 : Nat) = 2 ^ 8 by norm_num, ← pow_mul]

@[simp] theorem natOfBytes_nil : natOfBytes [] = 0 := rfl
@[simp] theorem natOfBytes_cons (b : Byte) (bs : List Byte) :
    natOfBytes (b :: bs) = b.toNat + 256 * natOfBytes bs := rfl

theorem natOfBytes_lt (bs : List Byte) : natOfBytes bs < 2 ^ (8 * bs.length) := by
  rw [← pow256]
  induction bs with
  | nil => simp
  | cons b bs ih =>
    have := b.isLt
    simp only [natOfBytes_cons, List.length_cons, pow_succ]
    omega

@[simp] theorem length_bytesOfNat (nb x : Nat) : (bytesOfNat nb x).length = nb := by
  induction nb generalizing x with
  | zero => rfl
  | succ n ih => simp [bytesOfNat, ih]

theorem natOfBytes_bytesOfNat (nb x : Nat) : natOfBytes (bytesOfNat nb x) = x % 2 ^ (8 * nb) := by
  rw [← pow256]
  induction nb generalizing x with
  | zero => simp [bytesOfNat, Nat.mod_one]
  | succ n ih =>
    rw [bytesOfNat, natOfBytes_cons, ih, BitVec.toNat_ofNat, pow_succ 256 n, Nat.mul_comm (256 ^ n) 256, Nat.mod_mul]

theorem bytesOfNat_natOfBytes (bs : List Byte) : bytesOfNat bs.length (natOfBytes bs) = bs := by
  induction bs with
  | nil => rfl
  | cons b bs ih =>
    have hb := b.isLt
    simp only [List.length_cons, bytesOfNat, natOfBytes_cons]
    rw [show (b.toNat + 256 * natOfBytes bs) / 256 = natOfBytes bs by omega, ih]
    congr 1
    apply BitVec.eq_of_toNat_eq
    simp only [BitVec.toNat_ofNat]; omega

theorem natOfBytes_inj {xs ys : List Byte} (hl : xs.length = ys.length) (h : natOfBytes xs = natOfBytes ys) :
    xs = ys := by
  rw [← bytesOfNat_natOfBytes xs, ← bytesOfNat_natOfBytes ys, hl, h]

theorem natOfBytes_append (xs ys : List Byte) :
    natOfBytes (xs ++ ys) = natOfBytes xs + 2 ^ (8 * xs.length) * natOfBytes ys := by
  rw [← pow256]
  induction xs with
  | nil => simp
  | cons b bs ih => simp only [List.cons_append, natOfBytes_cons, ih, List.length_cons, pow_succ]; ring

@[simp] theorem natOfBytes_zeros (n : Nat) : natOfBytes (List.replicate n 0#8) = 0 := by
  induction n with
  | zero => rfl
  | succ n ih => simp [List.replicate_succ, ih]

theorem natOfBytes_take (bs : List Byte) (n : Nat) : natOfBytes (bs.take n) = natOfBytes bs % 2 ^ (8 * n) := by
  rw [← pow256]
  induction bs generalizing n with
  | nil => simp
  | cons b bs ih =>
    have hb := b.isLt
    cases n with
    | zero => simp [Nat.mod_one]
    | succ n =>
      simp only [List.take_succ_cons, natOfBytes_cons, ih, pow_succ]
      rw [Nat.mul_comm (256 ^ n) 256, Nat.mod_mul, show (b.toNat + 256 * natOfBytes bs) % 256 = b.toNat by omega,
        show (b.toNat + 256 * natOfBytes bs) / 256 = natOfBytes bs by omega]

theorem testBit_natOfBytes (bs : List Byte) (i : Nat) :
    (natOfBytes bs).testBit i = (bs.getD (i / 8) 0).getLsbD (i % 8) := by
  induction bs generalizing i with
  | nil => simp
  | cons b bs ih =>
    have hb := b.isLt
    rw [natOfBytes_cons, Nat.add_comm, show (256 : Nat) = 2 ^ 8 by norm_num,
      Nat.testBit_two_pow_mul_add _ (by omega)]
    by_cases hi : i < 8
    · rw [if_pos hi, Nat.div_eq_of_lt hi, Nat.mod_eq_of_lt hi]; rfl
    · rw [if_neg hi, ih, show i / 8 = (i - 8) / 8 + 1 by omega, show i % 8 = (i - 8) % 8 by omega]; rfl

/-! IntVal -/
@[simp] theorem IntVal.ofNat_nb (nb x : Nat) (u : Bool) : (IntVal.ofNat nb x u).nb = nb := length_bytesOfNat nb x
@[simp] theorem IntVal.ofNat_unsigned (nb x : Nat) (u : Bool) : (IntVal.ofNat nb x u).unsigned = u := rfl
theorem IntVal.ofNat_ubits (nb x : Nat) (u : Bool) : (IntVal.ofNat nb x u).ubits = x % 2 ^ (8 * nb) :=
  natOfBytes_bytesOfNat nb x

theorem IntVal.ubits_lt (v : IntVal) : v.ubits < 2 ^ v.width := natOfBytes_lt v.bytes

theorem IntVal.ext_ubits {a b : IntVal} (hn : a.nb = b.nb) (hu : a.unsigned = b.unsigned) (h : a.ubits = b.ubits) :
    a = b := by
  cases a; cases b; simp only [IntVal.mk.injEq]; exact ⟨natOfBytes_inj hn h, hu⟩

theorem IntVal.bit_eq (v : IntVal) (i : Nat) : v.bit i = v.ubits.testBit i := (testBit_natOfBytes v.bytes i).symm

@[simp] theorem IntVal.fromBytes_nb (nb : Nat) (bs : List Byte) (u : Bool) : (IntVal.fromBytes nb bs u).nb = nb := by
  simp [IntVal.fromBytes, IntVal.nb]; omega
@[simp] theorem IntVal.fromBytes_unsigned (nb : Nat) (bs : List Byte) (u : Bool) :
    (IntVal.fromBytes nb bs u).unsigned = u := rfl
theorem IntVal.fromBytes_ubits (nb : Nat) (bs : List Byte) (u : Bool) :
    (IntVal.fromBytes nb bs u).ubits = natOfBytes bs % 2 ^ (8 * nb) := by
  simp [IntVal.fromBytes, IntVal.ubits, natOfBytes_append, natOfBytes_take]

theorem IntVal.ofInt_ubits (nb : Nat) (x : Int) (u : Bool) : ((IntVal.ofInt nb x u).ubits : Int) = x % 2 ^ (8 * nb) := by
  have h0 : 0 ≤ x % (2 : Int) ^ (8 * nb) := Int.emod_nonneg _ (by positivity)
  have h1 : x % (2 : Int) ^ (8 * nb) < 2 ^ (8 * nb) := Int.emod_lt_of_pos _ (by positivity)
  rw [IntVal.ofInt, IntVal.ofNat_ubits, Nat.mod_eq_of_lt, Int.toNat_of_nonneg h0]
  zify; rwa [Int.toNat_of_nonneg h0]

theorem IntVal.coerce_ubits (v : IntVal) (nb : Nat) : (v.coerce nb).ubits = v.ubits % 2 ^ (8 * nb) :=
  IntVal.fromBytes_ubits nb v.bytes v.unsigned
@[simp] theorem IntVal.coerce_nb (v : IntVal) (nb : Nat) : (v.coerce nb).nb = nb := by simp [IntVal.coerce]
@[simp] theorem IntVal.coerce_unsigned (v : IntVal) (nb : Nat) : (v.coerce nb).unsigned = v.unsigned := rfl
@[simp] theorem IntVal.retag_nb (v : IntVal) (u : Bool) : (v.retag u).nb = v.nb := rfl
@[simp] theorem IntVal.retag_ubits (v : IntVal) (u : Bool) : (v.retag u).ubits = v.ubits := rfl
@[simp] theorem IntVal.retag_unsigned (v : IntVal) (u : Bool) : (v.retag u).unsigned = u := rfl
@[simp] theorem IntVal.ofInt_nb (nb : Nat) (x : Int) (u : Bool) : (IntVal.ofInt nb x u).nb = nb := length_bytesOfNat _ _
@[simp] theorem IntVal.ofInt_unsigned (nb : Nat) (x : Int) (u : Bool) : (IntVal.ofInt nb x u).unsigned = u := rfl

theorem IntVal.isZero_iff (v : IntVal) : v.isZero = true ↔ v.ubits = 0 := by simp [IntVal.isZero]

theorem testBit_top {x n : Nat} (hn : 0 < n) (hx : x < 2 ^ n) : x.testBit (n - 1) = decide (2 ^ (n - 1) ≤ x) := by
  obtain ⟨m, rfl⟩ : ∃ m, n = m + 1 := ⟨n - 1, by omega⟩
  simp only [Nat.add_sub_cancel]
  rw [Nat.testBit_eq_decide_div_mod_eq]
  rw [pow_succ] at hx
  have h2 : x / 2 ^ m < 2 := Nat.div_lt_of_lt_mul (by omega)
  by_cases h : 2 ^ m ≤ x
  · have : 0 < x / 2 ^ m := Nat.div_pos h (by positivity)
    simp [h, show x / 2 ^ m = 1 by omega]
  · simp [h, Nat.div_eq_of_lt (Nat.lt_of_not_le h)]

theorem IntVal.isNeg_iff (v : IntVal) :
    v.isNeg = true ↔ v.unsigned = false ∧ 0 < v.nb ∧ 2 ^ (v.width - 1) ≤ v.ubits := by
  unfold IntVal.isNeg
  rw [IntVal.bit_eq]
  rcases Nat.eq_zero_or_pos v.nb with h0 | h0
  · have : v.ubits = 0 := by have := v.ubits_lt; simp [IntVal.width, h0] at this; exact this
    simp [this, h0]
  · rw [testBit_top (by unfold IntVal.width; omega) v.ubits_lt]
    simp [h0]

theorem IntVal.val_emod (v : IntVal) : v.val % 2 ^ v.width = v.ubits := by
  have h := v.ubits_lt
  have h' : (v.ubits : Int) < 2 ^ v.width := by exact_mod_cast h
  unfold IntVal.val
  split
  · rw [Int.sub_emod_right, Int.emod_eq_of_lt (by positivity) h']
  · rw [Int.emod_eq_of_lt (by positivity) h']

theorem IntVal.val_of_not_neg {v : IntVal} (h : v.isNeg = false) : v.val = v.ubits := by simp [IntVal.val, h]
theorem IntVal.val_of_neg {v : IntVal} (h : v.isNeg = true) : v.val = v.ubits - 2 ^ v.width := by simp [IntVal.val, h]

theorem IntVal.val_neg_iff (v : IntVal) : v.val < 0 ↔ v.isNeg = true := by
  have h : (v.ubits : Int) < 2 ^ v.width := by exact_mod_cast v.ubits_lt
  unfold IntVal.val
  split <;> simp_all

/-- the range of `val` -/
theorem IntVal.val_lt (v : IntVal) : v.val < 2 ^ v.width := by
  have h : (v.ubits : Int) < 2 ^ v.width := by exact_mod_cast v.ubits_lt
  unfold IntVal.val
  have : (0 : Int) < 2 ^ v.width := by positivity
  split <;> omega

theorem IntVal.ofInt_val (v : IntVal) : IntVal.ofInt v.nb v.val v.unsigned = v := by
  apply IntVal.ext_ubits (by simp) (by simp)
  have := IntVal.ofInt_ubits v.nb v.val v.unsigned
  rw [show 8 * v.nb = v.width from rfl, v.val_emod] at this
  exact_mod_cast this

theorem IntVal.val_of_unsigned {v : IntVal} (h : v.unsigned = true) : v.val = v.ubits := by
  apply IntVal.val_of_not_neg; simp [IntVal.isNeg, h]

theorem two_pow_half {n : Nat} (h : 0 < n) : (2 : Int) ^ n = 2 * 2 ^ (n - 1) := by
  rw [← pow_succ']; congr 1; omega

/-- The range of a signed value. -/
theorem IntVal.val_range {v : IntVal} (h : v.unsigned = false) (hn : 0 < v.nb) :
    -2 ^ (v.width - 1) ≤ v.val ∧ v.val < 2 ^ (v.width - 1) := by
  have hw : 0 < v.width := by unfold IntVal.width; omega
  have hl : (v.ubits : Int) < 2 ^ v.width := by exact_mod_cast v.ubits_lt
  have h2 := two_pow_half hw
  have hi := v.isNeg_iff
  cases hneg : v.isNeg with
  | true =>
    rw [IntVal.val_of_neg hneg]
    have : 2 ^ (v.width - 1) ≤ v.ubits := by have := hi.1 hneg; omega
    have : (2 : Int) ^ (v.width - 1) ≤ v.ubits := by exact_mod_cast this
    omega
  | false =>
    rw [IntVal.val_of_not_neg hneg]
    have : v.ubits < 2 ^ (v.width - 1) := by
      by_contra hc
      have := hi.2 ⟨h, by omega, by omega⟩
      rw [hneg] at this; cases this
    have : (v.ubits : Int) < 2 ^ (v.width - 1) := by exact_mod_cast this
    have : (0 : Int) ≤ 2 ^ (v.width - 1) := by positivity
    omega

/-- A signed value denotes the number of its range that its bits are congruent to. -/
theorem IntVal.val_eq_signed {v : IntVal} {z : Int} (h : v.unsigned = false) (hn : 0 < v.nb)
    (hu : (v.ubits : Int) = z % 2 ^ v.width) (h1 : -2 ^ (v.width - 1) ≤ z) (h2 : z < 2 ^ (v.width - 1)) : v.val = z := by
  have hw : 0 < v.width := by unfold IntVal.width; omega
  obtain ⟨g1, g2⟩ := IntVal.val_range h hn
  have hp := two_pow_half hw
  have hd : (2 : Int) ^ v.width ∣ v.val - z := by
    apply Int.ModEq.dvd
    show z % _ = v.val % _
    rw [v.val_emod, hu]
  obtain ⟨k, hk⟩ := hd
  have hpos : (0 : Int) < 2 ^ (v.width - 1) := by positivity
  have : k = 0 := by
    rw [hp] at hk
    by_contra hk0
    rcases lt_or_gt_of_ne hk0 with h | h
    · nlinarith
    · nlinarith
  subst this; omega

/-- An unsigned value denotes the number of its range that its bits are congruent to. -/
theorem IntVal.val_eq_unsigned {v : IntVal} {z : Int} (h : v.unsigned = true)
    (hu : (v.ubits : Int) = z % 2 ^ v.width) (h1 : 0 ≤ z) (h2 : z < 2 ^ v.width) : v.val = z := by
  rw [IntVal.val_of_unsigned h, hu, Int.emod_eq_of_lt h1 h2]

/-- The bytes of a constructed value: those given, and zero beyond them. -/
theorem IntVal.fromBytes_byteAt {nb : Nat} (bs : List Byte) (u : Bool) {i : Nat} (hi : i < nb) :
    (IntVal.fromBytes nb bs u).byteAt i = bs.getD i 0 := by
  simp only [IntVal.fromBytes, IntVal.byteAt]
  by_cases h : i < bs.length
  · rw [List.getD_append _ _ _ _ (by rw [List.length_take]; omega)]
    simp [hi]
  · simp only [List.getD_eq_getElem?_getD]
    rw [List.getElem?_append_right (by rw [List.length_take]; omega), List.getElem?_eq_none (by omega : bs.length ≤ i)]
    simp only [List.getElem?_replicate]; split <;> rfl

theorem IntVal.byteAt_of_le {v : IntVal} {i : Nat} (h : v.nb ≤ i) : v.byteAt i = 0 := by
  simp only [IntVal.byteAt, List.getD_eq_getElem?_getD]
  rw [List.getElem?_eq_none h]; rfl

end Sys2Proof.Machine
end

