-- ==== Sys2Proof/Laws/Bitwise.lean ====
section
/-!
SUPPORT. What each operation of the bitwise engine does to `ubits`.
-/
namespace Sys2Proof.Machine

theorem natOfBytes_not (bs : List Byte) : natOfBytes (bs.map fun b => ~~~b) + natOfBytes bs + 1 = 2 ^ (8 * bs.length) := by
  rw [← pow256]
  induction bs with
  | nil => simp
  | cons b bs ih =>
    have hb := b.isLt
    simp only [List.map_cons, natOfBytes_cons, List.length_cons, pow_succ, BitVec.toNat_not]
    omega

@[simp] theorem IntVal.not_nb (a : IntVal) : a.not.nb = a.nb := by simp [IntVal.not, IntVal.nb]
@[simp] theorem IntVal.not_unsigned (a : IntVal) : a.not.unsigned = a.unsigned := rfl
theorem IntVal.not_ubits (a : IntVal) : a.not.ubits = 2 ^ a.width - 1 - a.ubits := by
  have := natOfBytes_not a.bytes
  have h : 8 * a.bytes.length = a.width := rfl
  rw [h] at this
  unfold IntVal.ubits IntVal.not
  simp only; omega

theorem getD_zipWith {f : Byte → Byte → Byte} (hf : f 0 0 = 0) {xs ys : List Byte} (hl : xs.length = ys.length) (i : Nat) :
    (List.zipWith f xs ys).getD i 0 = f (xs.getD i 0) (ys.getD i 0) := by
  simp only [List.getD_eq_getElem?_getD, List.getElem?_zipWith]
  rcases Nat.lt_or_ge i xs.length with h | h
  · have h' : i < ys.length := hl ▸ h
    simp [h, h']
  · have h' : ys.length ≤ i := hl ▸ h
    simp [h, h']; exact hf.symm

theorem IntVal.and_ubits {a b : IntVal} (h : a.nb = b.nb) : (a.and b).ubits = a.ubits &&& b.ubits := by
  apply Nat.eq_of_testBit_eq; intro i
  rw [Nat.testBit_and]
  simp only [IntVal.ubits, IntVal.and, testBit_natOfBytes]
  rw [getD_zipWith (by decide) h]; simp
theorem IntVal.or_ubits {a b : IntVal} (h : a.nb = b.nb) : (a.or b).ubits = a.ubits ||| b.ubits := by
  apply Nat.eq_of_testBit_eq; intro i
  rw [Nat.testBit_or]
  simp only [IntVal.ubits, IntVal.or, testBit_natOfBytes]
  rw [getD_zipWith (by decide) h]; simp
theorem IntVal.xor_ubits {a b : IntVal} (h : a.nb = b.nb) : (a.xor b).ubits = a.ubits ^^^ b.ubits := by
  apply Nat.eq_of_testBit_eq; intro i
  rw [Nat.testBit_xor]
  simp only [IntVal.ubits, IntVal.xor, testBit_natOfBytes]
  rw [getD_zipWith (by decide) h]; simp
theorem IntVal.and_nb {a b : IntVal} (h : a.nb = b.nb) : (a.and b).nb = a.nb := by
  simp only [IntVal.nb] at h ⊢; simp [IntVal.and, h]
theorem IntVal.or_nb {a b : IntVal} (h : a.nb = b.nb) : (a.or b).nb = a.nb := by
  simp only [IntVal.nb] at h ⊢; simp [IntVal.or, h]
theorem IntVal.xor_nb {a b : IntVal} (h : a.nb = b.nb) : (a.xor b).nb = a.nb := by
  simp only [IntVal.nb] at h ⊢; simp [IntVal.xor, h]
@[simp] theorem IntVal.and_unsigned (a b : IntVal) : (a.and b).unsigned = a.unsigned := rfl
@[simp] theorem IntVal.or_unsigned (a b : IntVal) : (a.or b).unsigned = a.unsigned := rfl
@[simp] theorem IntVal.xor_unsigned (a b : IntVal) : (a.xor b).unsigned = a.unsigned := rfl

theorem getD_map_range (n : Nat) (f : Nat → Byte) (i : Nat) :
    ((List.range n).map f).getD i 0 = if i < n then f i else 0 := by
  simp only [List.getD_eq_getElem?_getD, List.getElem?_map]
  by_cases h : i < n <;> simp [h]

@[simp] theorem IntVal.shl_nb (a : IntVal) (k : Nat) : (a.shl k).nb = a.nb := by simp [IntVal.shl, IntVal.nb]
@[simp] theorem IntVal.shl_unsigned (a : IntVal) (k : Nat) : (a.shl k).unsigned = a.unsigned := rfl
@[simp] theorem IntVal.shiftRight_nb (a : IntVal) (f : Byte) (k : Nat) : (a.shiftRight f k).nb = a.nb := by
  simp [IntVal.shiftRight, IntVal.nb]
@[simp] theorem IntVal.shiftRight_unsigned (a : IntVal) (f : Byte) (k : Nat) : (a.shiftRight f k).unsigned = a.unsigned := rfl
@[simp] theorem IntVal.shr_nb (a : IntVal) (k : Nat) : (a.shr k).nb = a.nb := by simp [IntVal.shr]
@[simp] theorem IntVal.shr_unsigned (a : IntVal) (k : Nat) : (a.shr k).unsigned = a.unsigned := rfl
@[simp] theorem IntVal.shru_nb (a : IntVal) (k : Nat) : (a.shru k).nb = a.nb := by simp [IntVal.shru]
@[simp] theorem IntVal.shru_unsigned (a : IntVal) (k : Nat) : (a.shru k).unsigned = a.unsigned := rfl

theorem IntVal.testBit_ubits (a : IntVal) (i : Nat) : a.ubits.testBit i = (a.byteAt (i / 8)).getLsbD (i % 8) :=
  testBit_natOfBytes a.bytes i

theorem IntVal.shl_ubits (a : IntVal) (k : Nat) : (a.shl k).ubits = a.ubits * 2 ^ k % 2 ^ a.width := by
  apply Nat.eq_of_testBit_eq; intro i
  rw [Nat.testBit_mod_two_pow, Nat.mul_comm, Nat.testBit_two_pow_mul]
  have e : (a.shl k).ubits.testBit i = (((List.range a.nb).map (a.shlByte k)).getD (i / 8) 0).getLsbD (i % 8) :=
    testBit_natOfBytes _ i
  rw [e, getD_map_range]
  have hw : a.width = 8 * a.nb := rfl
  by_cases hi : i / 8 < a.nb
  · rw [if_pos hi, show decide (i < a.width) = true by simp; omega, Bool.true_and]
    unfold IntVal.shlByte
    rw [BitVec.getLsbD_or]
    by_cases hr : k % 8 ≤ i % 8
    · have h2 : ∀ x : Byte, (x >>> (8 - k % 8)).getLsbD (i % 8) = false := by
        intro x; rw [BitVec.getLsbD_ushiftRight]; exact BitVec.getLsbD_of_ge _ _ (by omega)
      have h2' : (if k / 8 + 1 ≤ i / 8 then a.byteAt (i / 8 - (k / 8 + 1)) >>> (8 - k % 8) else 0).getLsbD (i % 8) = false := by
        split
        · exact h2 _
        · simp
      rw [h2', Bool.or_false]
      by_cases hq : k / 8 ≤ i / 8
      · rw [if_pos hq, BitVec.getLsbD_shiftLeft, IntVal.testBit_ubits,
          show (i - k) / 8 = i / 8 - k / 8 by omega, show (i - k) % 8 = i % 8 - k % 8 by omega]
        have : k ≤ i := by omega
        simp [this, Nat.not_lt.mpr hr, Nat.mod_lt]
      · have : ¬ k ≤ i := by omega
        simp [hq, this]
    · have h1 : (if k / 8 ≤ i / 8 then a.byteAt (i / 8 - k / 8) <<< (k % 8) else 0).getLsbD (i % 8) = false := by
        split
        · rw [BitVec.getLsbD_shiftLeft]; simp [Nat.lt_of_not_le hr]
        · simp
      rw [h1, Bool.false_or]
      by_cases hq : k / 8 + 1 ≤ i / 8
      · rw [if_pos hq, BitVec.getLsbD_ushiftRight, IntVal.testBit_ubits,
          show (i - k) / 8 = i / 8 - (k / 8 + 1) by omega, show (i - k) % 8 = 8 - k % 8 + i % 8 by omega]
        have : k ≤ i := by omega
        simp [this]
      · have : ¬ k ≤ i := by omega
        simp [hq, this]
  · rw [if_neg hi, show decide (i < a.width) = false by simp; omega]
    simp

theorem IntVal.shiftRight_testBit (a : IntVal) (fill : Byte) (k i : Nat) :
    (a.shiftRight fill k).ubits.testBit i =
      (decide (i < a.width) && if i + k < a.width then a.ubits.testBit (i + k) else fill.getLsbD ((i + k) % 8)) := by
  have e : (a.shiftRight fill k).ubits.testBit i =
    (((List.range a.nb).map (a.shrByte fill k)).getD (i / 8) 0).getLsbD (i % 8) := testBit_natOfBytes _ i
  rw [e, getD_map_range]
  have hw : a.width = 8 * a.nb := rfl
  have hlen : a.bytes.length = a.nb := rfl
  have gd : ∀ x, a.bytes.getD x fill = if x < a.nb then a.byteAt x else fill := by
    intro x
    unfold IntVal.byteAt
    by_cases h : x < a.nb
    · simp [List.getD_eq_getElem?_getD, h, hlen]
    · simp [List.getD_eq_getElem?_getD, h, hlen]
  by_cases hi : i / 8 < a.nb
  · rw [if_pos hi, show decide (i < a.width) = true by simp; omega, Bool.true_and]
    unfold IntVal.shrByte
    rw [BitVec.getLsbD_or, BitVec.getLsbD_ushiftRight, BitVec.getLsbD_shiftLeft, gd, gd, IntVal.testBit_ubits]
    by_cases hr : i % 8 + k % 8 < 8
    · have h1 : (i + k) / 8 = i / 8 + k / 8 := by omega
      have h2 : (i + k) % 8 = k % 8 + i % 8 := by omega
      rw [h1, h2]
      have h3 : i % 8 < 8 - k % 8 := by omega
      by_cases h4 : i / 8 + k / 8 < a.nb
      · have : i + k < a.width := by omega
        simp [h3, h4, this]
      · have : ¬ i + k < a.width := by omega
        simp [h3, h4, this]
    · have h1 : (i + k) / 8 = i / 8 + k / 8 + 1 := by omega
      have h2 : (i + k) % 8 = i % 8 - (8 - k % 8) := by omega
      rw [h1, h2]
      have h3 : ¬ i % 8 < 8 - k % 8 := by omega
      have h5 : ∀ x : Byte, x.getLsbD (k % 8 + i % 8) = false := fun x => BitVec.getLsbD_of_ge _ _ (by omega)
      have h6 : i % 8 < 8 := Nat.mod_lt _ (by norm_num)
      by_cases h4 : i / 8 + k / 8 + 1 < a.nb
      · have : i + k < a.width := by omega
        simp [h3, h4, this, h5, h6]
      · have : ¬ i + k < a.width := by omega
        simp [h3, h4, this, h5, h6]
  · rw [if_neg hi, show decide (i < a.width) = false by simp; omega]
    simp

theorem IntVal.shru_ubits (a : IntVal) (k : Nat) : (a.shru k).ubits = a.ubits / 2 ^ k := by
  apply Nat.eq_of_testBit_eq; intro i
  rw [IntVal.shru, IntVal.shiftRight_testBit, Nat.testBit_div_two_pow]
  by_cases h : i + k < a.width
  · have : i < a.width := by omega
    simp [h, this]
  · have h' : a.ubits.testBit (i + k) = false :=
      Nat.testBit_lt_two_pow (lt_of_lt_of_le a.ubits_lt (Nat.pow_le_pow_right (by norm_num) (by omega)))
    simp [h, h']

/-- a 1-filling shift: the vacated high bits are 1 -/
theorem IntVal.shiftRight_ones_ubits (a : IntVal) {k : Nat} (hk : k ≤ a.width) :
    (a.shiftRight 0xff k).ubits = a.ubits / 2 ^ k + 2 ^ (a.width - k) * (2 ^ k - 1) := by
  apply Nat.eq_of_testBit_eq; intro i
  have hlt : a.ubits / 2 ^ k < 2 ^ (a.width - k) := by
    rw [Nat.div_lt_iff_lt_mul (by positivity), ← pow_add, Nat.sub_add_cancel hk]; exact a.ubits_lt
  rw [IntVal.shiftRight_testBit, Nat.add_comm (a.ubits / 2 ^ k), Nat.testBit_two_pow_mul_add _ hlt, Nat.testBit_div_two_pow,
    Nat.testBit_two_pow_sub_one]
  have hff : ∀ j, ((0xff : Byte).getLsbD (j % 8)) = true := by
    intro j
    have : j % 8 < 8 := Nat.mod_lt _ (by norm_num)
    generalize j % 8 = m at *
    interval_cases m <;> rfl
  rw [hff]
  by_cases h : i + k < a.width
  · have h1 : i < a.width - k := by omega
    have h2 : i < a.width := by omega
    simp [h, h1, h2]
  · have h1 : ¬ i < a.width - k := by omega
    simp [h, h1]; omega

theorem IntVal.shr_ubits (a : IntVal) {k : Nat} (hk : k ≤ a.width) :
    ((a.shr k).ubits : Int) = a.val / 2 ^ k % 2 ^ a.width := by
  unfold IntVal.shr
  by_cases hn : a.isNeg = true
  · rw [if_pos hn, IntVal.shiftRight_ones_ubits a hk, IntVal.val_of_neg hn]
    have h1 : (2 : Int) ^ a.width = 2 ^ (a.width - k) * 2 ^ k := by rw [← pow_add, Nat.sub_add_cancel hk]
    have hlt : a.ubits / 2 ^ k < 2 ^ (a.width - k) := by
      rw [Nat.div_lt_iff_lt_mul (by positivity), ← pow_add, Nat.sub_add_cancel hk]; exact a.ubits_lt
    have hp : 1 ≤ 2 ^ k := Nat.one_le_two_pow
    have e : ((a.ubits : Int) - 2 ^ a.width) / 2 ^ k = (a.ubits / 2 ^ k : Nat) - 2 ^ (a.width - k) := by
      rw [h1, Int.sub_mul_ediv_right _ _ (by positivity)]; push_cast; rfl
    rw [e]
    push_cast [hp]
    rw [eq_comm, ← Int.add_emod_right]
    have : ((a.ubits : Int) / 2 ^ k - 2 ^ (a.width - k) + 2 ^ a.width) = a.ubits / 2 ^ k + 2 ^ (a.width - k) * (2 ^ k - 1) := by
      rw [h1]; ring
    rw [this]
    have hlt' : ((a.ubits / 2 ^ k : Nat) : Int) < 2 ^ (a.width - k) := by exact_mod_cast hlt
    push_cast at hlt'
    have h0 : (0 : Int) ≤ (a.ubits : Int) / 2 ^ k := by positivity
    have hk1 : (1 : Int) ≤ 2 ^ k := by exact_mod_cast hp
    apply Int.emod_eq_of_lt
    · have : (0 : Int) ≤ 2 ^ (a.width - k) * (2 ^ k - 1) := mul_nonneg (by positivity) (by omega)
      omega
    · rw [h1]; nlinarith
  · simp only [Bool.not_eq_true] at hn
    rw [if_neg (by simp [hn])]
    have : a.shiftRight 0x00 k = a.shru k := rfl
    rw [this, IntVal.shru_ubits, IntVal.val_of_not_neg hn]
    push_cast
    rw [Int.emod_eq_of_lt (by positivity)]
    have h := a.ubits_lt
    have : a.ubits / 2 ^ k ≤ a.ubits := Nat.div_le_self _ _
    have h3 : a.ubits / 2 ^ k < 2 ^ a.width := lt_of_le_of_lt this h
    exact_mod_cast h3

@[simp] theorem IntVal.setBit_nb (a : IntVal) (i : Nat) (bv : Bool) : (a.setBit i bv).nb = a.nb := by
  unfold IntVal.setBit IntVal.nb; split <;> (try split) <;> simp
@[simp] theorem IntVal.setBit_unsigned (a : IntVal) (i : Nat) (bv : Bool) : (a.setBit i bv).unsigned = a.unsigned := by
  unfold IntVal.setBit; split <;> (try split) <;> rfl

theorem byte_one_shl {t m : Nat} (ht : t < 8) (hm : m < 8) : ((1 : Byte) <<< t).getLsbD m = decide (m = t) := by
  interval_cases t <;> interval_cases m <;> rfl

theorem testBit_set (bs : List Byte) (q : Nat) (b : Byte) (hq : q < bs.length) (j : Nat) :
    (natOfBytes (bs.set q b)).testBit j = if j / 8 = q then b.getLsbD (j % 8) else (natOfBytes bs).testBit j := by
  rw [testBit_natOfBytes, testBit_natOfBytes]
  simp only [List.getD_eq_getElem?_getD, List.getElem?_set]
  by_cases h : j / 8 = q
  · subst h; simp [hq]
  · have : ¬ q = j / 8 := fun h' => h h'.symm
    simp [h, this]

theorem IntVal.setBit_testBit (a : IntVal) (i : Nat) (bv : Bool) (j : Nat) :
    (a.setBit i bv).ubits.testBit j = if i < a.width ∧ j = i then bv else a.ubits.testBit j := by
  unfold IntVal.setBit
  have hw : a.width = 8 * a.bytes.length := rfl
  by_cases hi : a.width ≤ i
  · have : ¬ i < a.width := by omega
    simp [hi, this]
  · have hi' : i < a.width := by omega
    have hq : i / 8 < a.bytes.length := by omega
    have hm : j % 8 < 8 := Nat.mod_lt _ (by norm_num)
    have ht : i % 8 < 8 := Nat.mod_lt _ (by norm_num)
    rw [if_neg hi]
    cases bv
    · simp only [Bool.false_eq_true, if_false]
      have e := testBit_set a.bytes (i / 8) (a.byteAt (i / 8) &&& ~~~((1 : Byte) <<< (i % 8))) hq j
      rw [show (natOfBytes (a.bytes.set (i / 8) (a.byteAt (i / 8) &&& ~~~((1 : Byte) <<< (i % 8))))).testBit j =
        (IntVal.ubits { a with bytes := a.bytes.set (i / 8) (a.byteAt (i / 8) &&& ~~~((1 : Byte) <<< (i % 8))) }).testBit j from rfl] at e
      rw [e]
      by_cases h : j / 8 = i / 8
      · rw [if_pos h, BitVec.getLsbD_and, BitVec.getLsbD_not, byte_one_shl ht hm, IntVal.testBit_ubits, h]
        by_cases h' : j % 8 = i % 8
        · have : j = i := by omega
          simp [hi', this]
        · have : ¬ j = i := by intro h; exact h' (by rw [h])
          simp [h', this, hm]
      · have : ¬ j = i := by intro h'; exact h (by rw [h'])
        simp [h, this]; rfl
    · simp only [if_true]
      have e := testBit_set a.bytes (i / 8) (a.byteAt (i / 8) ||| ((1 : Byte) <<< (i % 8))) hq j
      rw [show (natOfBytes (a.bytes.set (i / 8) (a.byteAt (i / 8) ||| ((1 : Byte) <<< (i % 8))))).testBit j =
        (IntVal.ubits { a with bytes := a.bytes.set (i / 8) (a.byteAt (i / 8) ||| ((1 : Byte) <<< (i % 8))) }).testBit j from rfl] at e
      rw [e]
      by_cases h : j / 8 = i / 8
      · rw [if_pos h, BitVec.getLsbD_or, byte_one_shl ht hm, IntVal.testBit_ubits, h]
        by_cases h' : j % 8 = i % 8
        · have : j = i := by omega
          simp [hi', this]
        · have : ¬ j = i := by intro h; exact h' (by rw [h])
          simp [h', this]
      · have : ¬ j = i := by intro h'; exact h (by rw [h'])
        simp [h, this]; rfl

theorem foldl_highBit (x n : Nat) :
    let l := (List.range n).foldl (fun l i => if x.testBit i then i + 1 else l) 0
    x % 2 ^ n < 2 ^ l ∧ (l ≠ 0 → x.testBit (l - 1) = true) ∧ l ≤ n := by
  induction n with
  | zero => simp [Nat.mod_one]
  | succ n ih =>
    simp only [List.range_succ, List.foldl_append, List.foldl_cons, List.foldl_nil] at ih ⊢
    obtain ⟨h1, h2, h3⟩ := ih
    by_cases hb : x.testBit n = true
    · simp only [hb, if_true]
      exact ⟨Nat.mod_lt _ (by positivity), fun _ => by simpa using hb, le_refl _⟩
    · simp only [hb, Bool.false_eq_true, if_false]
      refine ⟨?_, h2, by omega⟩
      have : x % 2 ^ (n + 1) = x % 2 ^ n := by
        apply Nat.eq_of_testBit_eq; intro i
        simp only [Nat.testBit_mod_two_pow]
        by_cases hin : i = n
        · subst hin; simp [hb]
        · have : (i < n + 1) = (i < n) := by apply propext; omega
          simp [this]
      rw [this]; exact h1

theorem IntVal.bitLength_spec (a : IntVal) :
    a.ubits < 2 ^ a.bitLength ∧ (∀ l, a.ubits < 2 ^ l → a.bitLength ≤ l) ∧ a.bitLength ≤ a.width := by
  have h := foldl_highBit a.ubits a.width
  have e : a.bitLength = (List.range a.width).foldl (fun l i => if a.ubits.testBit i then i + 1 else l) 0 := by
    unfold IntVal.bitLength; simp only [IntVal.bit_eq]
  rw [← e] at h
  obtain ⟨h1, h2, h3⟩ := h
  rw [Nat.mod_eq_of_lt a.ubits_lt] at h1
  refine ⟨h1, fun l hl => ?_, h3⟩
  by_contra hlt
  have ht := h2 (by omega)
  rw [Nat.testBit_lt_two_pow (lt_of_lt_of_le hl (Nat.pow_le_pow_right (by norm_num) (by omega)))] at ht
  exact Bool.false_ne_true ht

theorem IntVal.bitLength_le (a : IntVal) : a.bitLength ≤ a.width := a.bitLength_spec.2.2

theorem IntVal.isSet_eq (a : IntVal) (i : Nat) : a.isSet i = a.ubits.testBit i := by
  unfold IntVal.isSet
  split
  · exact a.bit_eq i
  · next h =>
    exact (Nat.testBit_lt_two_pow (lt_of_lt_of_le a.ubits_lt (Nat.pow_le_pow_right (by norm_num) (by omega)))).symm

end Sys2Proof.Machine
end

