-- ==== Sys2Proof/Laws/Arithmetic.lean ====
section
/-!
SUPPORT. What the comparator and the arithmetic engine do, in terms of `ubits` and `val`.
-/
namespace Sys2Proof.Machine

/-! Compare -/
theorem compareBytes_eq {xs ys : List Byte} (h : xs.length = ys.length) :
    compareBytes xs ys = compare (natOfBytes xs) (natOfBytes ys) := by
  induction xs generalizing ys with
  | nil => cases ys with
    | nil => rfl
    | cons y ys => simp at h
  | cons x xs ih => cases ys with
    | nil => simp at h
    | cons y ys =>
      have hx := x.isLt
      have hy := y.isLt
      rw [compareBytes, ih (by simpa using h), natOfBytes_cons, natOfBytes_cons]
      rcases lt_trichotomy (natOfBytes xs) (natOfBytes ys) with hl | he | hg
      · rw [compare_lt_iff_lt.mpr hl]
        exact (compare_lt_iff_lt.mpr (by omega)).symm
      · rw [compare_eq_iff_eq.mpr he, he]; show compare x.toNat y.toNat = _
        rcases lt_trichotomy x.toNat y.toNat with hl | he' | hg
        · rw [compare_lt_iff_lt.mpr hl]; exact (compare_lt_iff_lt.mpr (by omega)).symm
        · rw [he']; simp
        · rw [compare_gt_iff_gt.mpr hg]; exact (compare_gt_iff_gt.mpr (by omega)).symm
      · rw [compare_gt_iff_gt.mpr hg]
        exact (compare_gt_iff_gt.mpr (by omega)).symm

theorem IntVal.compare_eq {a b : IntVal} (h : a.nb = b.nb) : a.compare b = Ord.compare a.val b.val := by
  have hw : a.width = b.width := by unfold IntVal.width; rw [h]
  have ha := a.ubits_lt
  have hb := b.ubits_lt
  unfold IntVal.compare
  rw [compareBytes_eq (show a.bytes.length = b.bytes.length from h)]
  have hc : ∀ {x y : Nat} {z : Int}, Ord.compare x y = Ord.compare ((x : Int) - z) ((y : Int) - z) := by
    intro x y z
    rcases lt_trichotomy x y with hl | he | hg
    · rw [compare_lt_iff_lt.mpr hl]; exact (compare_lt_iff_lt.mpr (by omega)).symm
    · rw [he]; simp
    · rw [compare_gt_iff_gt.mpr hg]; exact (compare_gt_iff_gt.mpr (by omega)).symm
  have hB : (b.ubits : Int) < 2 ^ b.width := by exact_mod_cast hb
  have hA : (a.ubits : Int) < 2 ^ a.width := by exact_mod_cast ha
  cases hna : a.isNeg <;> cases hnb : b.isNeg
  · rw [IntVal.val_of_not_neg hna, IntVal.val_of_not_neg hnb]
    simpa [IntVal.ubits] using hc (x := natOfBytes a.bytes) (y := natOfBytes b.bytes) (z := 0)
  · rw [IntVal.val_of_not_neg hna, IntVal.val_of_neg hnb]
    simp only [bne, Bool.beq_eq_decide_eq]
    exact (compare_gt_iff_gt.mpr (by omega)).symm
  · rw [IntVal.val_of_neg hna, IntVal.val_of_not_neg hnb]
    exact (compare_lt_iff_lt.mpr (by omega)).symm
  · rw [IntVal.val_of_neg hna, IntVal.val_of_neg hnb, hw]
    exact hc

/-! Arithmetic -/
@[simp] theorem IntVal.add_nb (a b : IntVal) : (a.add b).nb = a.nb := IntVal.ofNat_nb _ _ _
@[simp] theorem IntVal.add_unsigned (a b : IntVal) : (a.add b).unsigned = a.unsigned := rfl
theorem IntVal.add_ubits (a b : IntVal) : (a.add b).ubits = (a.ubits + b.ubits) % 2 ^ a.width := IntVal.ofNat_ubits _ _ _
@[simp] theorem IntVal.mul_nb (a b : IntVal) : (a.mul b).nb = a.nb := IntVal.ofNat_nb _ _ _
@[simp] theorem IntVal.mul_unsigned (a b : IntVal) : (a.mul b).unsigned = a.unsigned := rfl
theorem IntVal.mul_ubits (a b : IntVal) : (a.mul b).ubits = a.ubits * b.ubits % 2 ^ a.width := IntVal.ofNat_ubits _ _ _
@[simp] theorem IntVal.negate_nb (a : IntVal) : a.negate.nb = a.nb := by simp [IntVal.negate]
@[simp] theorem IntVal.negate_unsigned (a : IntVal) : a.negate.unsigned = a.unsigned := rfl

theorem IntVal.negate_ubits (a : IntVal) : a.negate.ubits = (2 ^ a.width - a.ubits) % 2 ^ a.width := by
  have hlt := a.ubits_lt
  rw [IntVal.negate, IntVal.add_ubits, IntVal.not_ubits, IntVal.fromBytes_ubits]
  have hw : a.not.width = a.width := by simp [IntVal.width]
  rw [hw, show 8 * a.nb = a.width from rfl, Nat.add_mod_mod]
  congr 1
  simp only [natOfBytes_cons, natOfBytes_nil]
  have : BitVec.toNat (1 : Byte) = 1 := rfl
  omega

@[simp] theorem IntVal.sub_nb (a b : IntVal) : (a.sub b).nb = a.nb := by simp [IntVal.sub]
@[simp] theorem IntVal.sub_unsigned (a b : IntVal) : (a.sub b).unsigned = a.unsigned := rfl

/-- every operation modulo `2^N`, over the integers -/
theorem IntVal.negate_emod (a : IntVal) : (a.negate.ubits : Int) = (-a.ubits) % 2 ^ a.width := by
  rw [IntVal.negate_ubits]
  have hlt := a.ubits_lt
  push_cast [Nat.cast_sub (le_of_lt hlt)]
  rw [Int.sub_eq_add_neg, Int.add_comm, Int.add_emod_right]

theorem IntVal.add_emod (a b : IntVal) : ((a.add b).ubits : Int) = (a.ubits + b.ubits) % 2 ^ a.width := by
  rw [IntVal.add_ubits]; push_cast; rfl

theorem IntVal.sub_emod {a b : IntVal} (h : a.nb = b.nb) : ((a.sub b).ubits : Int) = (a.ubits - b.ubits) % 2 ^ a.width := by
  have hw : b.width = a.width := by unfold IntVal.width; rw [h]
  rw [IntVal.sub, IntVal.add_emod, IntVal.negate_emod, hw, Int.add_emod_emod, Int.sub_eq_add_neg]

@[simp] theorem IntVal.absolute_nb (a : IntVal) : a.absolute.nb = a.nb := by
  unfold IntVal.absolute; split <;> (try split) <;> simp
@[simp] theorem IntVal.absolute_unsigned (a : IntVal) : a.absolute.unsigned = true := by
  unfold IntVal.absolute; split <;> (try split) <;> simp_all

theorem IntVal.absolute_ubits (a : IntVal) : a.absolute.ubits = a.val.natAbs := by
  unfold IntVal.absolute
  have hlt := a.ubits_lt
  have hcast : (a.ubits : Int) < 2 ^ a.width := by exact_mod_cast hlt
  by_cases hu : a.unsigned = true
  · have : a.isNeg = false := by simp [IntVal.isNeg, hu]
    rw [if_pos hu, IntVal.val_of_not_neg this]; simp
  · rw [if_neg hu]
    by_cases hn : a.isNeg = true
    · rw [if_pos hn, IntVal.retag_ubits, IntVal.negate_ubits, IntVal.val_of_neg hn, Nat.mod_eq_of_lt]
      · zify [le_of_lt hlt]; rw [abs_of_neg (by omega)]; ring
      · have := (a.isNeg_iff.mp hn).2.2
        have : 0 < 2 ^ (a.width - 1) := by positivity
        omega
    · simp only [Bool.not_eq_true] at hn
      rw [if_neg (by simp [hn]), IntVal.retag_ubits, IntVal.val_of_not_neg hn]; simp

theorem IntVal.val_dvd (v : IntVal) : (2 : Int) ^ v.width ∣ v.val - v.ubits := by
  unfold IntVal.val; split
  · exact ⟨-1, by ring⟩
  · simp

theorem IntVal.val_zero_iff (v : IntVal) : v.val = 0 ↔ v.ubits = 0 := by
  have h : (v.ubits : Int) < 2 ^ v.width := by exact_mod_cast v.ubits_lt
  unfold IntVal.val
  split
  · next hn =>
    have := (v.isNeg_iff.mp hn).2.2
    have h2 : 0 < 2 ^ (v.width - 1) := by positivity
    omega
  · omega

@[simp] theorem IntVal.quot_nb (a b : IntVal) : (a.quot b).nb = a.nb := by unfold IntVal.quot; split <;> simp
@[simp] theorem IntVal.rem_nb (a b : IntVal) : (a.rem b).nb = a.nb := by unfold IntVal.rem; split <;> simp
@[simp] theorem IntVal.quot_unsigned (a b : IntVal) : (a.quot b).unsigned = a.unsigned := by
  unfold IntVal.quot; split <;> simp
@[simp] theorem IntVal.rem_unsigned (a b : IntVal) : (a.rem b).unsigned = a.unsigned := by
  unfold IntVal.rem; split <;> simp

theorem IntVal.quot_ubits (a b : IntVal) : ((a.quot b).ubits : Int) = a.val.tdiv b.val % 2 ^ a.width := by
  unfold IntVal.quot
  split
  · next h => 
    have : a.val = 0 := (a.val_zero_iff).mpr (a.isZero_iff.mp h)
    rw [IntVal.ofNat_ubits, this]; simp
  · exact IntVal.ofInt_ubits _ _ _

theorem IntVal.rem_ubits (a b : IntVal) : ((a.rem b).ubits : Int) = a.val.tmod b.val % 2 ^ a.width := by
  unfold IntVal.rem
  split
  · next h => 
    have h0 := a.isZero_iff.mp h
    have : a.val = 0 := (a.val_zero_iff).mpr h0
    rw [h0, this]; simp
  · exact IntVal.ofInt_ubits _ _ _

end Sys2Proof.Machine
end

