-- ==== Sys2Proof/Laws/Algorithms.lean ====
section
/-!
SUPPORT. The loops of 44_arithmetic compute the closed forms.
-/
namespace Sys2Proof.Machine

theorem xor_add_two_mul_and (a b : Nat) : (a ^^^ b) + 2 * (a &&& b) = a + b := by
  induction a using Nat.strong_induction_on generalizing b with
  | _ a ih =>
    rcases Nat.eq_zero_or_pos a with h0 | h0
    · subst h0; simp
    · have h := ih (a / 2) (by omega) (b / 2)
      have h1 : (a ^^^ b) / 2 = a / 2 ^^^ b / 2 := Nat.xor_div_two
      have h2 : (a &&& b) / 2 = a / 2 &&& b / 2 := Nat.and_div_two
      have h3 : (a ^^^ b) % 2 = (a + b) % 2 := Nat.xor_mod_two_eq
      have h4 : (a &&& b) % 2 = 1 ↔ a % 2 = 1 ∧ b % 2 = 1 := Nat.and_mod_two_eq_one
      rw [← h1, ← h2] at h
      have h5 : (a &&& b) % 2 = 0 ∨ (a &&& b) % 2 = 1 := Nat.mod_two_eq_zero_or_one _
      rcases h5 with h5 | h5
      · have : ¬ (a % 2 = 1 ∧ b % 2 = 1) := fun h' => by have := h4.mpr h'; omega
        omega
      · have := h4.mp h5; omega

theorem two_pow_dvd_and {k x y : Nat} (h : 2 ^ k ∣ y) : 2 ^ k ∣ x &&& y := by
  rw [Nat.dvd_iff_mod_eq_zero] at *
  rw [Nat.and_mod_two_pow, h, Nat.and_zero]

theorem carryLoop_spec (n : Nat) (c r : IntVal) (hn : c.nb = r.nb) (hw : n ≤ r.width)
    (hd : 2 ^ (r.width - n) ∣ c.ubits) :
    (carryLoop n c r).nb = r.nb ∧ (carryLoop n c r).unsigned = r.unsigned ∧
      (carryLoop n c r).ubits = (r.ubits + 2 * c.ubits) % 2 ^ r.width := by
  have hcw : c.width = r.width := by unfold IntVal.width; rw [hn]
  induction n generalizing c r with
  | zero =>
    have : c.ubits = 0 := Nat.eq_zero_of_dvd_of_lt hd (by rw [Nat.sub_zero, ← hcw]; exact c.ubits_lt)
    rw [carryLoop, this]; simp [Nat.mod_eq_of_lt r.ubits_lt]
  | succ n ih =>
    rw [carryLoop]
    split
    · next h => rw [c.isZero_iff.mp h]; simp [Nat.mod_eq_of_lt r.ubits_lt]
    · have hs : r.nb = (c.shl 1).nb := by simp [hn]
      have hxw : (r.xor (c.shl 1)).width = r.width := by unfold IntVal.width; rw [IntVal.xor_nb hs]
      have hsu : (c.shl 1).ubits = 2 * c.ubits % 2 ^ r.width := by
        rw [IntVal.shl_ubits, hcw, pow_one, Nat.mul_comm]
      have hdv : 2 ^ (r.width - n) ∣ (c.shl 1).ubits := by
        rw [hsu]
        apply (Nat.dvd_mod_iff (pow_dvd_pow 2 (by omega))).mpr
        rw [show r.width - n = (r.width - (n + 1)) + 1 by omega, pow_succ, Nat.mul_comm]
        exact Nat.mul_dvd_mul_left 2 hd
      have := ih (r.and (c.shl 1)) (r.xor (c.shl 1)) (by rw [IntVal.and_nb hs, IntVal.xor_nb hs]) (by omega)
        (by rw [hxw, IntVal.and_ubits hs]; exact two_pow_dvd_and hdv) (by rw [hxw]; unfold IntVal.width; rw [IntVal.and_nb hs])
      rw [IntVal.xor_nb hs, hxw, IntVal.xor_ubits hs, IntVal.and_ubits hs, xor_add_two_mul_and, hsu, Nat.add_mod_mod] at this
      exact this

theorem carryAdd_eq {a b : IntVal} (h : a.nb = b.nb) : carryAdd a b = a.add b := by
  have hxw : (a.xor b).width = a.width := by unfold IntVal.width; rw [IntVal.xor_nb h]
  have := carryLoop_spec a.width (a.and b) (a.xor b) (by rw [IntVal.and_nb h, IntVal.xor_nb h]) (by rw [hxw]) (by simp [hxw])
  rw [hxw, IntVal.xor_nb h, IntVal.xor_ubits h, IntVal.and_ubits h, xor_add_two_mul_and] at this
  obtain ⟨h1, h2, h3⟩ := this
  apply IntVal.ext_ubits
  · rw [carryAdd, h1]; simp
  · rw [carryAdd, h2]; simp
  · rw [carryAdd, h3, IntVal.add_ubits]


theorem carryNegate_eq (a : IntVal) : carryNegate a = a.negate := carryAdd_eq (by simp)
theorem carrySub_eq {a b : IntVal} (h : a.nb = b.nb) : carrySub a b = a.sub b := by
  rw [carrySub, carryNegate_eq, carryAdd_eq (by simp [h])]; rfl
theorem carryAbsolute_eq (a : IntVal) : carryAbsolute a = a.absolute := by
  rw [carryAbsolute, carryNegate_eq]; rfl

theorem shiftAddLoop_spec (n : Nat) (c m p : IntVal) (hc : c.nb = p.nb) (hm : m.nb = p.nb) (hn : m.ubits < 2 ^ n) :
    (shiftAddLoop n c m p).nb = p.nb ∧ (shiftAddLoop n c m p).ubits = (p.ubits + c.ubits * m.ubits) % 2 ^ p.width := by
  induction n generalizing c m p with
  | zero =>
    have : m.ubits = 0 := by simpa using hn
    simp [shiftAddLoop, this, Nat.mod_eq_of_lt p.ubits_lt]
  | succ n ih =>
    rw [shiftAddLoop]
    split
    · next h => rw [m.isZero_iff.mp h]; simp [Nat.mod_eq_of_lt p.ubits_lt]
    · have hcw : c.width = p.width := by unfold IntVal.width; rw [hc]
      have e : (if m.bit 0 then carryAdd p c else p) = if m.ubits % 2 = 1 then p.add c else p := by
        rw [carryAdd_eq hc.symm, IntVal.bit_eq, Nat.testBit_zero]; simp
      rw [e]
      have hpn : (if m.ubits % 2 = 1 then p.add c else p).nb = p.nb := by split <;> simp
      have hpw : (if m.ubits % 2 = 1 then p.add c else p).width = p.width := by unfold IntVal.width; rw [hpn]
      have hpu : (if m.ubits % 2 = 1 then p.add c else p).ubits = (p.ubits + c.ubits * (m.ubits % 2)) % 2 ^ p.width := by
        split
        · next h => rw [h, IntVal.add_ubits, Nat.mul_one]
        · next h =>
          rw [show m.ubits % 2 = 0 by omega]; simp [Nat.mod_eq_of_lt p.ubits_lt]
      have := ih (c.shl 1) (m.shru 1) (if m.ubits % 2 = 1 then p.add c else p) (by rw [hpn]; simp [hc]) (by rw [hpn]; simp [hm])
        (by rw [IntVal.shru_ubits, pow_one]; rw [pow_succ] at hn; omega)
      rw [hpn, hpw, hpu, IntVal.shru_ubits, IntVal.shl_ubits, hcw, pow_one] at this
      refine ⟨this.1, this.2.trans ?_⟩
      have e2 : c.ubits * m.ubits = c.ubits * (m.ubits % 2) + c.ubits * 2 * (m.ubits / 2) := by
        conv_lhs => rw [← Nat.mod_add_div m.ubits 2]
        ring
      rw [e2, ← Nat.add_assoc, Nat.add_mod, Nat.mod_mod, Nat.add_mod (p.ubits + _)]
      congr 2
      rw [Nat.mul_mod, Nat.mod_mod, ← Nat.mul_mod]

theorem mul_emod (a b : IntVal) (h : a.nb = b.nb) : ((a.mul b).ubits : Int) = a.val * b.val % 2 ^ a.width := by
  rw [IntVal.mul_ubits]; push_cast
  have hw : b.width = a.width := by unfold IntVal.width; rw [h]
  have hb := b.val_dvd
  rw [hw] at hb
  exact (Int.ModEq.mul (Int.ModEq.symm ((Int.modEq_iff_dvd.mpr (by have := a.val_dvd; rwa [← dvd_neg, neg_sub] at this))))
    (Int.ModEq.symm (Int.modEq_iff_dvd.mpr (by rwa [← dvd_neg, neg_sub] at hb))))

theorem IntVal.natAbs_of_neg {v : IntVal} (h : v.isNeg = true) : (v.val.natAbs : Int) = -v.val := by
  have := v.val_neg_iff.mpr h; omega
theorem IntVal.natAbs_of_not_neg {v : IntVal} (h : v.isNeg = false) : (v.val.natAbs : Int) = v.val := by
  have := v.val_neg_iff; rw [h] at this; simp at this; omega

theorem shiftAddMul_eq {a b : IntVal} (h : a.nb = b.nb) : shiftAddMul a b = a.mul b := by
  have hw : b.width = a.width := by unfold IntVal.width; rw [h]
  have hs := shiftAddLoop_spec a.width a.absolute b.absolute (IntVal.ofNat a.nb 0 true) (by simp) (by simp [h])
    (by have := b.absolute.ubits_lt; rwa [show b.absolute.width = a.width by unfold IntVal.width; simp [h]] at this)
  have hpw : (IntVal.ofNat a.nb 0 true).width = a.width := by simp [IntVal.width]
  rw [hpw, IntVal.ofNat_ubits, Nat.zero_mod, Nat.zero_add, IntVal.absolute_ubits, IntVal.absolute_ubits, IntVal.ofNat_nb] at hs
  unfold shiftAddMul
  rw [carryAbsolute_eq, carryAbsolute_eq]
  generalize shiftAddLoop a.width a.absolute b.absolute (IntVal.ofNat a.nb 0 true) = p at hs ⊢
  obtain ⟨h1, h2⟩ := hs
  have hpw' : p.width = a.width := by unfold IntVal.width; rw [h1]
  simp only [carryNegate_eq]
  have hna := a.val_neg_iff
  have hnb := b.val_neg_iff
  have h2' : (p.ubits : Int) = (a.val.natAbs * b.val.natAbs : Int) % 2 ^ a.width := by rw [h2]; push_cast; rfl
  apply IntVal.ext_ubits
  · split <;> simp [h1]
  · split <;> simp
  · zify
    rw [mul_emod a b h]
    have neg_mod : ∀ x : Int, -(x % 2 ^ a.width) % 2 ^ a.width = -x % 2 ^ a.width := fun x => (Int.mod_modEq x _).neg
    have hrw : (p.retag a.unsigned).width = a.width := hpw'
    cases ha : a.isNeg <;> cases hb : b.isNeg
    · rw [if_neg (by decide), IntVal.retag_ubits, h2', IntVal.natAbs_of_not_neg ha, IntVal.natAbs_of_not_neg hb]
    · rw [if_pos (by decide), IntVal.negate_emod, IntVal.retag_ubits, hrw, h2',
        IntVal.natAbs_of_neg hb, IntVal.natAbs_of_not_neg ha, neg_mod]
      congr 1; ring
    · rw [if_pos (by decide), IntVal.negate_emod, IntVal.retag_ubits, hrw, h2',
        IntVal.natAbs_of_not_neg hb, IntVal.natAbs_of_neg ha, neg_mod]
      congr 1; ring
    · rw [if_neg (by decide), IntVal.retag_ubits, h2', IntVal.natAbs_of_neg hb, IntVal.natAbs_of_neg ha]; congr 1; ring

theorem IntVal.setBit_true_ubits {a : IntVal} {i : Nat} (h : i < a.width) : (a.setBit i true).ubits = a.ubits ||| 2 ^ i := by
  apply Nat.eq_of_testBit_eq; intro j
  rw [IntVal.setBit_testBit, Nat.testBit_or, Nat.testBit_two_pow]
  by_cases hj : j = i
  · simp [hj, h]
  · have : ¬ i = j := fun h => hj h.symm
    simp [hj, this]

theorem restoringLoop_spec (m d : IntVal) (hd : d.nb = m.nb) (hdu : d.unsigned = true) (hd0 : 0 < d.ubits)
    (i : Nat) (q r : IntVal) (hi : i ≤ m.width) (hq : q.nb = m.nb) (hr : r.nb = m.nb) (hru : r.unsigned = true)
    (hqv : q.ubits = 2 ^ i * (m.ubits / 2 ^ i / d.ubits)) (hrv : r.ubits = m.ubits / 2 ^ i % d.ubits) :
    let z := restoringLoop m d i q r
    z.1.nb = m.nb ∧ z.2.nb = m.nb ∧ z.1.ubits = m.ubits / d.ubits ∧ z.2.ubits = m.ubits % d.ubits := by
  induction i generalizing q r with
  | zero => simp only [restoringLoop]; simp at hqv hrv; exact ⟨hq, hr, hqv, hrv⟩
  | succ i ih =>
    have hrw : r.width = m.width := by unfold IntVal.width; rw [hr]
    have hqw : q.width = m.width := by unfold IntVal.width; rw [hq]
    have hdw : d.width = m.width := by unfold IntVal.width; rw [hd]
    have hX : m.ubits / 2 ^ i = 2 * (m.ubits / 2 ^ (i + 1)) + (m.ubits.testBit i).toNat := by
      rw [pow_succ, ← Nat.div_div_eq_div_mul, Nat.testBit_eq_decide_div_mod_eq]
      have := Nat.mod_two_eq_zero_or_one (m.ubits / 2 ^ i)
      rcases this with h | h <;> simp [h] <;> omega
    have hMlt : m.ubits / 2 ^ i < 2 ^ m.width := lt_of_le_of_lt (Nat.div_le_self _ _) m.ubits_lt
    generalize m.ubits / 2 ^ (i + 1) = X at hX hqv hrv
    have hrX : r.ubits ≤ X := by rw [hrv]; exact Nat.mod_le _ _
    have hrD : r.ubits < d.ubits := by rw [hrv]; exact Nat.mod_lt _ hd0
    have hs : (r.shl 1).ubits = 2 ^ 1 * r.ubits := by
      rw [IntVal.shl_ubits, hrw, pow_one, Nat.mod_eq_of_lt (by omega), Nat.mul_comm]
    have hb := Bool.toNat_le (m.ubits.testBit i)
    obtain ⟨r1, hr1, hr1n, hr1u, hr1v⟩ : ∃ r1, r1 = (if m.bit i then (r.shl 1).setBit 0 true else r.shl 1) ∧ r1.nb = m.nb ∧
        r1.unsigned = true ∧ r1.ubits = 2 * r.ubits + (m.ubits.testBit i).toNat := by
      refine ⟨_, rfl, ?_, ?_, ?_⟩
      · split <;> simp [hr]
      · split <;> simp [hru]
      · rw [IntVal.bit_eq]
        split
        · next h =>
          have hw0 : 0 < (r.shl 1).width := by unfold IntVal.width; simp only [IntVal.shl_nb]; unfold IntVal.width at hi; rw [hr]; omega
          rw [IntVal.setBit_true_ubits hw0, hs, h, pow_zero, ← Nat.two_pow_add_eq_or_of_lt (by norm_num)]; simp
        · next h => simp at h; rw [hs, h]; simp
    have hr1w : r1.width = m.width := by unfold IntVal.width; rw [hr1n]
    simp only [restoringLoop, ← hr1]
    have hcmp : r1.compare d = Ord.compare r1.ubits d.ubits := by
      rw [IntVal.compare_eq (by rw [hr1n, hd]), IntVal.val_of_not_neg (by simp [IntVal.isNeg, hr1u]), IntVal.val_of_not_neg (by simp [IntVal.isNeg, hdu])]
      rcases lt_trichotomy r1.ubits d.ubits with hl | he | hg
      · rw [compare_lt_iff_lt.mpr hl]; exact (compare_lt_iff_lt.mpr (by omega))
      · rw [he]; simp
      · rw [compare_gt_iff_gt.mpr hg]; exact (compare_gt_iff_gt.mpr (by omega))
    have hdiv : X = d.ubits * (X / d.ubits) + r.ubits := by rw [hrv]; exact (Nat.div_add_mod _ _).symm
    have hsplit : m.ubits / 2 ^ i = d.ubits * (2 * (X / d.ubits)) + r1.ubits := by
      rw [hX, hr1v]; conv_lhs => rw [hdiv]
      ring
    rw [hcmp]
    split
    · next h =>
      have hlt := compare_lt_iff_lt.mp h
      apply ih q r1 (by omega) hq hr1n hr1u
      · rw [hsplit, Nat.mul_add_div hd0, Nat.div_eq_of_lt hlt, hqv, pow_succ]; ring
      · rw [hsplit, Nat.mul_add_mod, Nat.mod_eq_of_lt hlt]
    · next h =>
      have hge : d.ubits ≤ r1.ubits := by by_contra hc; exact h (compare_lt_iff_lt.mpr (by omega))
      have hr1lt : r1.ubits < 2 * d.ubits := by omega
      have hsub : (carrySub r1 d).ubits = r1.ubits - d.ubits := by
        rw [carrySub_eq (by rw [hr1n, hd])]
        zify [hge]
        rw [IntVal.sub_emod (by rw [hr1n, hd]), Int.emod_eq_of_lt (by omega)]
        have := r1.ubits_lt
        zify at this; omega
      have hsn : (carrySub r1 d).nb = m.nb := by rw [carrySub_eq (by rw [hr1n, hd])]; simp [hr1n]
      have hsu : (carrySub r1 d).unsigned = true := by rw [carrySub_eq (by rw [hr1n, hd])]; simp [hr1u]
      apply ih (q.setBit i true) (carrySub r1 d) (by omega) (by simp [hq]) hsn hsu
      · rw [IntVal.setBit_true_ubits (by omega), hqv, ← Nat.two_pow_add_eq_or_of_lt (Nat.pow_lt_pow_right (by norm_num) (by omega))]
        rw [hsplit, Nat.mul_add_div hd0, show r1.ubits / d.ubits = 1 from Nat.div_eq_of_lt_le (by omega) (by omega), pow_succ]; ring
      · rw [hsub, hsplit, Nat.mul_add_mod, Nat.mod_eq_sub_mod hge, Nat.mod_eq_of_lt (by omega)]

theorem restoringDivmod_eq {a b : IntVal} (h : a.nb = b.nb) : restoringDivmod a b = a.divmod b := by
  unfold restoringDivmod IntVal.divmod
  split
  · rfl
  next hbz =>
  split
  · next haz => simp [IntVal.quot, IntVal.rem, haz]
  next haz =>
  have hb0 : 0 < b.absolute.ubits := by
    rw [IntVal.absolute_ubits]
    have : b.val ≠ 0 := by rw [Ne, b.val_zero_iff, ← b.isZero_iff]; exact hbz
    omega
  have hbl := a.absolute.bitLength_spec
  have hs := restoringLoop_spec a.absolute b.absolute (by simp [h]) (by simp) hb0 a.absolute.bitLength (IntVal.ofNat a.nb 0 true)
    (IntVal.ofNat a.nb 0 true) hbl.2.2 (by simp) (by simp) (by simp)
    (by rw [Nat.div_eq_of_lt hbl.1, IntVal.ofNat_ubits]; simp) (by rw [Nat.div_eq_of_lt hbl.1, IntVal.ofNat_ubits]; simp)
  simp only [carryAbsolute_eq, carryNegate_eq]
  generalize restoringLoop a.absolute b.absolute a.absolute.bitLength (IntVal.ofNat a.nb 0 true) (IntVal.ofNat a.nb 0 true) = z at hs ⊢
  obtain ⟨q, r⟩ := z
  simp only [IntVal.absolute_nb, IntVal.absolute_ubits] at hs
  obtain ⟨hqn, hrn, hqv, hrv⟩ := hs
  have hqw : (q.retag a.unsigned).width = a.width := by unfold IntVal.width; simp [hqn]
  have hrw : (r.retag a.unsigned).width = a.width := by unfold IntVal.width; simp [hrn]
  have hna := a.val_neg_iff
  have hnb := b.val_neg_iff
  have hqi : (q.ubits : Int) = (a.val.natAbs : Int).tdiv b.val.natAbs := by rw [hqv]; rfl
  have hri : (r.ubits : Int) = (a.val.natAbs : Int).tmod b.val.natAbs := by rw [hrv]; rfl
  have hql := q.ubits_lt
  have hrl := r.ubits_lt
  have hqw0 : q.width = a.width := hqw
  have hrw0 : r.width = a.width := hrw
  have hqm : (q.ubits : Int) % 2 ^ a.width = q.ubits := Int.emod_eq_of_lt (by positivity) (by rw [← hqw0]; exact_mod_cast hql)
  have hrm : (r.ubits : Int) % 2 ^ a.width = r.ubits := Int.emod_eq_of_lt (by positivity) (by rw [← hrw0]; exact_mod_cast hrl)
  congr 2
  · apply IntVal.ext_ubits
    · split <;> simp [hqn]
    · split <;> simp
    · zify
      rw [IntVal.quot_ubits]
      cases ha : a.isNeg <;> cases hb : b.isNeg
      · rw [if_neg (by decide), IntVal.retag_ubits, ← hqm, hqi, IntVal.natAbs_of_not_neg ha, IntVal.natAbs_of_not_neg hb]
      · rw [if_pos (by decide), IntVal.negate_emod, hqw, IntVal.retag_ubits, hqi, IntVal.natAbs_of_not_neg ha, IntVal.natAbs_of_neg hb]
        rw [Int.tdiv_neg, neg_neg]
      · rw [if_pos (by decide), IntVal.negate_emod, hqw, IntVal.retag_ubits, hqi, IntVal.natAbs_of_neg ha, IntVal.natAbs_of_not_neg hb]
        rw [Int.neg_tdiv, neg_neg]
      · rw [if_neg (by decide), IntVal.retag_ubits, ← hqm, hqi, IntVal.natAbs_of_neg ha, IntVal.natAbs_of_neg hb]
        rw [Int.neg_tdiv, Int.tdiv_neg, neg_neg]
  · apply IntVal.ext_ubits
    · split <;> simp [hrn]
    · split <;> simp
    · zify
      have hbabs : a.val.tmod b.val.natAbs = a.val.tmod b.val := by
        rcases Int.natAbs_eq b.val with hx | hx
        · rw [← hx]
        · conv_rhs => rw [hx, Int.tmod_neg]
      rw [IntVal.rem_ubits, ← hbabs]
      cases ha : a.isNeg <;> simp only [Bool.false_eq_true]
      · rw [if_neg (by simp), IntVal.retag_ubits, ← hrm, hri, IntVal.natAbs_of_not_neg ha]
      · rw [if_pos (by simp), IntVal.negate_emod, hrw, IntVal.retag_ubits, hri, IntVal.natAbs_of_neg ha]
        rw [Int.neg_tmod, neg_neg]

end Sys2Proof.Machine
end

