-- ==== Sys2Proof/Laws/Conversion.lean ====
section
/-!
SUPPORT. What the cast and the machine-integer conversions do, in terms of `val`.
-/
namespace Sys2Proof.Machine

theorem complement_mod (m : Nat) (y : Int) : (2 : Int) ^ m - 1 - y % 2 ^ m = (-1 - y) % 2 ^ m := by
  have h0 : 0 ≤ y % (2 : Int) ^ m := Int.emod_nonneg _ (by positivity)
  have h1 : y % (2 : Int) ^ m < 2 ^ m := Int.emod_lt_of_pos _ (by positivity)
  have e : (-1 - y) % (2 : Int) ^ m = (2 ^ m - 1 - y % 2 ^ m) % 2 ^ m := by
    apply Int.ModEq.symm
    have h := (Int.mod_modEq y (2 ^ m)).neg
    have h2 : ((2 : Int) ^ m - 1 - y % 2 ^ m) = 2 ^ m + (-1 + -(y % 2 ^ m)) := by ring
    rw [h2, show -1 - y = 0 + (-1 + -y) by ring]
    exact Int.ModEq.add (by simp [Int.ModEq]) (Int.ModEq.add_left _ h)
  rw [e]; exact (Int.emod_eq_of_lt (by omega) (by omega)).symm

@[simp] theorem IntVal.cast_nb (a : IntVal) (nb : Nat) (u : Bool) : (a.cast nb u).nb = nb := by
  unfold IntVal.cast; split <;> simp
@[simp] theorem IntVal.cast_unsigned (a : IntVal) (nb : Nat) (u : Bool) : (a.cast nb u).unsigned = u := by
  unfold IntVal.cast; split <;> simp

theorem IntVal.cast_ubits (a : IntVal) (nb : Nat) (u : Bool) : ((a.cast nb u).ubits : Int) = a.val % 2 ^ (8 * nb) := by
  unfold IntVal.cast
  split
  · next h =>
    have hlt := a.ubits_lt
    have hw : (IntVal.fromBytes nb a.not.bytes u).width = 8 * nb := by unfold IntVal.width; simp
    rw [IntVal.not_ubits, hw, IntVal.fromBytes_ubits, show natOfBytes a.not.bytes = a.not.ubits from rfl, IntVal.not_ubits]
    have hm : (2 ^ a.width - 1 - a.ubits) % 2 ^ (8 * nb) < 2 ^ (8 * nb) := Nat.mod_lt _ (by positivity)
    have h1 : 1 ≤ 2 ^ (8 * nb) := Nat.one_le_two_pow
    zify [show (2 ^ a.width - 1 - a.ubits) % 2 ^ (8 * nb) ≤ 2 ^ (8 * nb) - 1 by omega, h1, show a.ubits ≤ 2 ^ a.width - 1 by omega,
      show 1 ≤ 2 ^ a.width by omega]
    rw [complement_mod, IntVal.val_of_neg h]; congr 1; ring
  · next h =>
    rw [IntVal.fromBytes_ubits, IntVal.val_of_not_neg (by simpa using h)]; push_cast; rfl

theorem IntVal.cast_eq (a : IntVal) (nb : Nat) (u : Bool) : a.cast nb u = IntVal.ofInt nb a.val u := by
  apply IntVal.ext_ubits (by simp) (by simp)
  zify; rw [IntVal.cast_ubits, IntVal.ofInt_ubits]

theorem wordOfBytes_toNat (bs : List Byte) : (wordOfBytes bs).toNat = natOfBytes bs % 2 ^ 32 := by
  rw [wordOfBytes, BitVec.toNat_ofNat, natOfBytes_take, show 8 * 4 = 32 from rfl, Nat.mod_mod]

theorem IntVal.toMachineInt_toNat (a : IntVal) : (a.toMachineInt.toNat : Int) = a.val % 2 ^ 32 := by
  unfold IntVal.toMachineInt
  split
  · next h =>
    have hlt := a.ubits_lt
    rw [BitVec.toNat_not, wordOfBytes_toNat, show natOfBytes a.not.bytes = a.not.ubits from rfl, IntVal.not_ubits]
    have hm : (2 ^ a.width - 1 - a.ubits) % 2 ^ 32 < 2 ^ 32 := Nat.mod_lt _ (by positivity)
    zify [show (2 ^ a.width - 1 - a.ubits) % 2 ^ 32 ≤ 2 ^ 32 - 1 by omega, show 1 ≤ 2 ^ 32 by norm_num, show a.ubits ≤ 2 ^ a.width - 1 by omega,
      show 1 ≤ 2 ^ a.width by omega]
    rw [complement_mod, IntVal.val_of_neg h]; congr 1; ring
  · next h =>
    rw [wordOfBytes_toNat, IntVal.val_of_not_neg (by simpa using h)]; push_cast; rfl

@[simp] theorem fromMachineInt_nb (nb : Nat) (u : Bool) (x : Int) : (fromMachineInt nb u x).nb = nb := by
  unfold fromMachineInt; split <;> (try split) <;> simp
@[simp] theorem fromMachineInt_unsigned (nb : Nat) (u : Bool) (x : Int) : (fromMachineInt nb u x).unsigned = u := by
  unfold fromMachineInt; split <;> (try split) <;> simp

theorem fromMachineInt_eq (nb : Nat) (u : Bool) {x : Int} (h1 : -2 ^ 31 ≤ x) (h2 : x < 2 ^ 31) :
    fromMachineInt nb u x = IntVal.ofInt nb x u := by
  apply IntVal.ext_ubits (by simp) (by simp)
  zify; rw [IntVal.ofInt_ubits]
  unfold fromMachineInt
  split
  · next h =>
    rw [IntVal.fromBytes_ubits, natOfBytes_bytesOfNat, Nat.mod_eq_of_lt (a := x.toNat) (by omega)]
    push_cast; rw [Int.toNat_of_nonneg h]
  · split
    · rw [IntVal.ofInt_ubits]
    · have hw : (IntVal.fromBytes nb (bytesOfNat 4 (-x).toNat) u).width = 8 * nb := by unfold IntVal.width; simp
      rw [IntVal.negate_emod, hw, IntVal.fromBytes_ubits, natOfBytes_bytesOfNat, Nat.mod_eq_of_lt (a := (-x).toNat) (by omega)]
      push_cast
      rw [Int.toNat_of_nonneg (by omega)]
      exact (Int.mod_modEq (-x) _).neg.trans (by rw [neg_neg])

/-! constants -/
theorem natOfBytes_ones (n : Nat) : natOfBytes (List.replicate n 0xff#8) = 2 ^ (8 * n) - 1 := by
  rw [← pow256]
  induction n with
  | zero => rfl
  | succ n ih =>
    rw [List.replicate_succ, natOfBytes_cons, ih, pow_succ]
    have : 0 < 256 ^ n := by positivity
    simp; omega

theorem IntVal.wordCount_eq (a : IntVal) : a.wordCount = (a.width + 31) / 32 := by
  unfold IntVal.wordCount IntVal.width; omega

theorem IntVal.wordImage_length (a : IntVal) : a.wordImage.length = 4 * ((a.width + 31) / 32) := by
  unfold IntVal.wordImage
  rw [List.length_append, List.length_replicate, IntVal.wordCount_eq]
  have : a.bytes.length = a.nb := rfl
  unfold IntVal.width; omega

/-- The word image holds the bytes of the value and zeros. -/
theorem IntVal.getD_wordImage (a : IntVal) (i : Nat) : a.wordImage.getD i 0 = if i < a.nb then a.byteAt i else 0 := by
  rw [IntVal.wordImage, IntVal.byteAt]
  by_cases hi : i < a.nb
  · rw [if_pos hi, List.getD_append _ _ _ _ hi]
  · rw [if_neg hi]
    simp only [List.getD_eq_getElem?_getD]
    rw [List.getElem?_append_right (by exact Nat.le_of_not_lt hi)]
    simp only [List.getElem?_replicate]; split <;> rfl

end Sys2Proof.Machine
end

