-- ==== Sys2Proof/Laws/Codec.lean ====
section
/-!
SUPPORT. What `PARSE` and `FMT` compute: the number a text denotes and the canonical numeral of a number.
-/
namespace Sys2Proof.Machine

theorem digitOf_digitChar {d : Nat} (h : d ≤ 35) : digitOf (digitChar d) = some d := by
  interval_cases d <;> rfl

theorem digitsValueFrom_acc (radix acc : Nat) (t : List Byte) :
    digitsValueFrom radix acc t = (digitsValueFrom radix 0 t).map (acc * radix ^ t.length + ·) := by
  induction t generalizing acc with
  | nil => simp [digitsValueFrom]
  | cons c t ih =>
    simp only [digitsValueFrom]
    split
    · split
      · next d _ _ =>
        rw [ih (acc * radix + d), ih (0 * radix + d)]
        rcases digitsValueFrom radix 0 t with _ | v
        · rfl
        · simp [pow_succ]; ring
      · rfl
    · rfl

theorem digitsValueFrom_append (radix acc : Nat) (s t : List Byte) :
    digitsValueFrom radix acc (s ++ t) = (digitsValueFrom radix acc s).bind (fun a => digitsValueFrom radix a t) := by
  induction s generalizing acc with
  | nil => rfl
  | cons c s ih =>
    simp only [List.cons_append, digitsValueFrom]
    split
    · split
      · exact ih _
      · rfl
    · rfl

/-- the digit loop, from the last character -/
theorem parseDigits_spec (nb : Nat) (u : Bool) (radix : Nat) (cs : List Byte) (result pw : IntVal)
    (hr : result.nb = nb) (hru : result.unsigned = u) (hp : pw.nb = nb) :
    parseDigits (IntVal.ofNat nb radix u) radix cs result pw =
      match digitsValueFrom radix 0 cs.reverse with
      | some v => .ok (IntVal.ofNat nb (result.ubits + pw.ubits * v) u)
      | none => .error .invalidDigit := by
  induction cs generalizing result pw with
  | nil =>
    simp only [parseDigits, List.reverse_nil, digitsValueFrom]
    congr 1
    apply IntVal.ext_ubits (by simp [hr]) (by simp [hru])
    rw [IntVal.ofNat_ubits, Nat.mul_zero, Nat.add_zero, ← hr]; exact (Nat.mod_eq_of_lt result.ubits_lt).symm
  | cons c cs ih =>
    simp only [parseDigits, List.reverse_cons, digitsValueFrom_append]
    cases hd : digitOf c with
    | none =>
      simp only []
      rcases digitsValueFrom radix 0 cs.reverse with _ | v <;> simp [digitsValueFrom, hd]
    | some d =>
      by_cases hlt : radix ≤ d
      · have : ¬ d < radix := by omega
        simp only [hlt, if_true]
        rcases digitsValueFrom radix 0 cs.reverse with _ | v <;> simp [digitsValueFrom, hd, this]
      · have hlt' : d < radix := by omega
        simp only [hlt, if_false]
        rw [ih _ _ (by simp [hr]) (by simp [hru]) (by simp [hp])]
        rcases hv : digitsValueFrom radix 0 cs.reverse with _ | v
        · simp
        · simp only [Option.bind_some, digitsValueFrom, hd, hlt', if_true]
          congr 1
          apply IntVal.ext_ubits (by simp) (by simp)
          have hw : result.width = 8 * nb := by unfold IntVal.width; rw [hr]
          have hpw : pw.width = 8 * nb := by unfold IntVal.width; rw [hp]
          simp only [IntVal.ofNat_ubits, IntVal.add_ubits, IntVal.mul_ubits, hw, hpw, IntVal.ofNat_nb]
          rw [show (IntVal.ofNat nb d (IntVal.ofNat nb radix u).unsigned).width = 8 * nb by unfold IntVal.width; simp]
          generalize 2 ^ (8 * nb) = M
          have e1 : (result.ubits + d % M * pw.ubits % M) % M + pw.ubits * (radix % M) % M * v ≡ result.ubits + pw.ubits * (v * radix + d) [MOD M] := by
            have a1 : d % M * pw.ubits % M ≡ d * pw.ubits [MOD M] := (Nat.mod_modEq _ _).trans ((Nat.mod_modEq _ _).mul_right _)
            have a2 : pw.ubits * (radix % M) % M ≡ pw.ubits * radix [MOD M] := (Nat.mod_modEq _ _).trans ((Nat.mod_modEq _ _).mul_left _)
            have := (((Nat.mod_modEq _ M).trans (a1.add_left result.ubits))).add (a2.mul_right v)
            refine this.trans (by rw [show result.ubits + d * pw.ubits + pw.ubits * radix * v = result.ubits + pw.ubits * (v * radix + d) by ring])
          exact e1

theorem parseUnsigned_of_digits {nb : Nat} {u : Bool} {radix : Nat} {t : List Byte} {n : Nat}
    (h : digitsValueFrom radix 0 t = some n) : parseUnsigned nb u radix t = .ok (IntVal.ofNat nb n u) := by
  unfold parseUnsigned
  split
  · next hs =>
    rcases hs with rfl | rfl | rfl
    · congr 2
      simp only [textZero, digitsValueFrom] at h
      split at h
      · next d hd =>
        have : d = 0 := by have : digitOf (0x30 : Byte) = some 0 := rfl
                           rw [this] at hd; simpa using hd.symm
        subst this; split at h <;> simp_all
      · simp at h
    · exact absurd h (by simp [textNaN, digitsValueFrom, digitOf])
    · exact absurd h (by simp [textInfinity, digitsValueFrom, digitOf])
  · rw [parseDigits_spec nb u radix t.reverse _ _ (by simp) (by simp) (by simp), List.reverse_reverse, h]
    simp only []
    congr 1
    apply IntVal.ext_ubits (by simp) (by simp)
    simp only [IntVal.ofNat_ubits, Nat.zero_mod, Nat.zero_add]
    conv_rhs => rw [← Nat.one_mul n]
    exact (Nat.mod_modEq 1 _).mul_right n


theorem digitsValue_digits {radix : Nat} (h2 : 2 ≤ radix) (h36 : radix ≤ 36) (n : Nat) :
    digitsValueFrom radix 0 ((Nat.digits radix n).reverse.map digitChar) = some n := by
  induction n using Nat.strong_induction_on with
  | _ n ih =>
    rcases Nat.eq_zero_or_pos n with h0 | h0
    · subst h0; simp [digitsValueFrom]
    · rw [Nat.digits_def' (by omega) h0, List.reverse_cons, List.map_append, digitsValueFrom_append,
        ih (n / radix) (Nat.div_lt_self h0 (by omega))]
      have hm : n % radix < radix := Nat.mod_lt _ (by omega)
      simp only [Option.bind_some, List.map_cons, List.map_nil, digitsValueFrom]
      rw [digitOf_digitChar (by omega)]
      simp only [hm, if_true]
      rw [Nat.mul_comm, Nat.div_add_mod]

theorem formatDigits_spec {nb radix : Nat} (h2 : 2 ≤ radix) (h36 : radix ≤ 36) (hnb : 0 < nb) (fuel : Nat) (a : IntVal) (str : List Byte)
    (ha : a.nb = nb) (hneg : a.isNeg = false) (hf : a.ubits < 2 ^ fuel) :
    formatDigits (IntVal.ofNat nb radix a.unsigned) fuel a str = (Nat.digits radix a.ubits).reverse.map digitChar ++ str := by
  induction fuel generalizing a str with
  | zero =>
    have : a.ubits = 0 := by simpa using hf
    simp [formatDigits, this]
  | succ fuel ih =>
    rw [formatDigits]
    split
    · next h => rw [a.isZero_iff.mp h]; simp
    · next h =>
      have h0 : 0 < a.ubits := by rw [a.isZero_iff] at h; omega
      have haw : a.width = 8 * nb := by unfold IntVal.width; rw [ha]
      have hpow : 2 ^ 7 ≤ 2 ^ (8 * nb - 1) := Nat.pow_le_pow_right (by norm_num) (by omega)
      have hpow2 : 2 ^ (8 * nb) = 2 * 2 ^ (8 * nb - 1) := by rw [← pow_succ']; congr 1; omega
      have hru : (IntVal.ofNat nb radix a.unsigned).ubits = radix := by
        rw [IntVal.ofNat_ubits, Nat.mod_eq_of_lt (by omega)]
      have hrn : (IntVal.ofNat nb radix a.unsigned).isNeg = false := by
        rw [← Bool.not_eq_true, IntVal.isNeg_iff, hru]
        rintro ⟨-, -, h⟩
        have : (IntVal.ofNat nb radix a.unsigned).width = 8 * nb := by unfold IntVal.width; simp
        rw [this] at h; omega
      have hrv := IntVal.val_of_not_neg hrn
      rw [hru] at hrv
      have hav := IntVal.val_of_not_neg hneg
      have hdivlt : a.ubits / radix ≤ a.ubits := Nat.div_le_self _ _
      have halt := a.ubits_lt
      have hqu : (a.quot (IntVal.ofNat nb radix a.unsigned)).ubits = a.ubits / radix := by
        zify; rw [IntVal.quot_ubits, hav, hrv, ← Int.ofNat_tdiv]
        have : a.ubits / radix < 2 ^ a.width := by omega
        exact_mod_cast Nat.mod_eq_of_lt this
      have hqn : (a.quot (IntVal.ofNat nb radix a.unsigned)).isNeg = false := by
        rw [← Bool.not_eq_true, IntVal.isNeg_iff]
        rintro ⟨h1, h2, h3⟩
        rw [hqu, show (a.quot (IntVal.ofNat nb radix a.unsigned)).width = a.width by unfold IntVal.width; simp] at h3
        have : a.isNeg = true := by rw [IntVal.isNeg_iff]; exact ⟨by simpa using h1, by omega, by omega⟩
        rw [hneg] at this; exact Bool.false_ne_true this
      have hrem : (a.rem (IntVal.ofNat nb radix a.unsigned)).val.toNat = a.ubits % radix := by
        have hml : a.ubits % radix < radix := Nat.mod_lt _ (by omega)
        have hu : (a.rem (IntVal.ofNat nb radix a.unsigned)).ubits = a.ubits % radix := by
          zify; rw [IntVal.rem_ubits, hav, hrv, ← Int.ofNat_tmod]
          have : a.ubits % radix < 2 ^ a.width := by rw [haw]; omega
          exact_mod_cast Nat.mod_eq_of_lt this
        have hn : (a.rem (IntVal.ofNat nb radix a.unsigned)).isNeg = false := by
          rw [← Bool.not_eq_true, IntVal.isNeg_iff, hu]
          rintro ⟨-, -, h3⟩
          rw [show (a.rem (IntVal.ofNat nb radix a.unsigned)).width = 8 * nb by unfold IntVal.width; simp [ha]] at h3; omega
        rw [IntVal.val_of_not_neg hn, hu]; rfl
      have := ih (a.quot (IntVal.ofNat nb radix a.unsigned)) (digitChar (a.ubits % radix) :: str) (by simp [ha]) hqn
        (by rw [hqu]; rw [pow_succ] at hf
            exact Nat.div_lt_of_lt_mul (lt_of_lt_of_le hf (by rw [Nat.mul_comm]; exact Nat.mul_le_mul_right _ h2)))
      rw [IntVal.quot_unsigned, hqu] at this
      rw [hrem, this, Nat.digits_def' (by omega : 1 < radix) h0]
      simp

theorem minBytes_ubits {nb : Nat} (h : 0 < nb) : natOfBytes (List.replicate (nb - 1) 0x00 ++ [0x80]) = 2 ^ (8 * nb - 1) := by
  rw [natOfBytes_append]
  simp only [List.length_replicate]
  rw [show natOfBytes (List.replicate (nb - 1) (0x00 : Byte)) = 0 from natOfBytes_zeros _]
  simp only [natOfBytes_cons, natOfBytes_nil]
  rw [show (0x80 : Byte).toNat = 2 ^ 7 from rfl]
  simp only [Nat.mul_zero, Nat.add_zero, Nat.zero_add, ← pow_add]; congr 1; omega

theorem IntVal.format_eq {a : IntVal} {radix : Nat} (h2 : 2 ≤ radix) (h36 : radix ≤ 36) (hnb : 0 < a.nb) :
    a.format radix = numeral radix a.val := by
  have haw : a.width = 8 * a.nb := rfl
  have halt := a.ubits_lt
  have hpow : 2 ^ 7 ≤ 2 ^ (a.width - 1) := Nat.pow_le_pow_right (by norm_num) (by omega)
  have hpow2 : 2 ^ a.width = 2 * 2 ^ (a.width - 1) := by rw [← pow_succ']; congr 1; omega
  have hru : (IntVal.ofNat a.nb radix a.unsigned).ubits = radix := by
    rw [IntVal.ofNat_ubits, Nat.mod_eq_of_lt (by rw [← haw]; omega)]
  have hrn : (IntVal.ofNat a.nb radix a.unsigned).isNeg = false := by
    rw [← Bool.not_eq_true, IntVal.isNeg_iff, hru]
    rintro ⟨-, -, h⟩
    have : (IntVal.ofNat a.nb radix a.unsigned).width = a.width := by unfold IntVal.width; simp
    rw [this] at h; omega
  have hrv := IntVal.val_of_not_neg hrn
  rw [hru] at hrv
  unfold IntVal.format numeral
  simp only []
  by_cases hz : a.isZero = true
  · have : a.val = 0 := a.val_zero_iff.mpr (a.isZero_iff.mp hz)
    simp [hz, this]
  have hv0 : a.val ≠ 0 := by rw [Ne, a.val_zero_iff, ← a.isZero_iff]; exact hz
  rw [if_neg hz, if_neg hv0]
  by_cases hn : a.isNeg = true
  · have hvneg := a.val_neg_iff.mpr hn
    have hval := IntVal.val_of_neg hn
    rw [if_pos hvneg]
    by_cases hmin : a.bytes = List.replicate (a.nb - 1) 0x00 ++ [0x80]
    · have hau : a.ubits = 2 ^ (a.width - 1) := by
        have := minBytes_ubits hnb; rw [← hmin] at this; exact this
      have hav : a.val = -(2 ^ (a.width - 1) : Nat) := by
        rw [hval, hau]; zify at hpow2; rw [hpow2]; push_cast; ring
      have hus : a.unsigned = false := (a.isNeg_iff.mp hn).1
      rw [if_pos ⟨hn, hmin⟩]
      generalize hR : IntVal.ofNat a.nb radix a.unsigned = R at *
      have hRnb : R.nb = a.nb := by rw [← hR]; simp
      have hRu : R.unsigned = a.unsigned := by rw [← hR]; simp
      generalize hM : 2 ^ (a.width - 1) = M at *
      have hMpos : 0 < M / radix := Nat.div_pos (by omega) (by omega)
      have hMle : 2 * (M / radix) ≤ M := by
        have : M / radix ≤ M / 2 := Nat.div_le_div_left h2 (by norm_num)
        omega
      have hqw : (a.quot R).width = a.width := by unfold IntVal.width; simp
      have hqu : (a.quot R).ubits = 2 * M - M / radix := by
        zify [show M / radix ≤ 2 * M by omega]
        rw [IntVal.quot_ubits, hav, hrv, Int.neg_tdiv, ← Int.ofNat_tdiv]
        have e : (2 : Int) ^ a.width = 2 * M := by exact_mod_cast hpow2
        rw [e, ← Int.add_emod_right, Int.emod_eq_of_lt (by omega) (by omega)]; push_cast; ring
      have hqn : (a.quot R).isNeg = true := by
        rw [IntVal.isNeg_iff, hqu, hqw, hM]; exact ⟨by simp [hus], by simp [hnb], by omega⟩
      have hnu : (a.quot R).negate.ubits = M / radix := by
        rw [IntVal.negate_ubits, hqw, hqu, hpow2, Nat.mod_eq_of_lt (by omega)]; omega
      have hnn : (a.quot R).negate.isNeg = false := by
        rw [← Bool.not_eq_true, IntVal.isNeg_iff, hnu]
        rintro ⟨-, -, h⟩
        rw [show (a.quot R).negate.width = a.width by unfold IntVal.width; simp, hM] at h; omega
      have hplain : (a.quot R).formatPlain R = charMinus :: (Nat.digits radix (M / radix)).reverse.map digitChar := by
        unfold IntVal.formatPlain
        rw [if_pos hqn]
        have := formatDigits_spec h2 h36 hnb (a.quot R).width (a.quot R).negate [] (by simp) hnn (by rw [hnu, hqw, hpow2]; omega)
        rw [IntVal.negate_unsigned, IntVal.quot_unsigned, hR, hnu] at this
        rw [this, List.append_nil]
      have hdig : (((a.quot R).mul R).sub a).val.toNat = M % radix := by
        have hml : M % radix < radix := Nat.mod_lt _ (by omega)
        have hmw : ((a.quot R).mul R).width = a.width := by unfold IntVal.width; simp
        have hu : (((a.quot R).mul R).sub a).ubits = M % radix := by
          zify
          rw [IntVal.sub_emod (by simp), hmw, mul_emod _ _ (by simp [hRnb]), hqw]
          have e : (2 : Int) ^ a.width = 2 * M := by exact_mod_cast hpow2
          have hqv : (a.quot R).val = -((M / radix : Nat) : Int) := by
            rw [IntVal.val_of_neg hqn, hqu, hqw, e]; push_cast [show M / radix ≤ 2 * M by omega]; ring
          rw [hqv, hrv, hau, Int.sub_emod, Int.emod_emod_of_dvd _ (dvd_refl _), ← Int.sub_emod, e]
          have hd := Nat.div_add_mod M radix
          have : -((M / radix : Nat) : Int) * radix - M = (M % radix : Nat) + 2 * M * (-1) := by
            have : ((radix * (M / radix) + M % radix : Nat) : Int) = M := by exact_mod_cast hd
            push_cast at this ⊢; linarith
          rw [this, Int.add_mul_emod_self_left, Int.emod_eq_of_lt (by omega) (by omega)]; push_cast; rfl
        have hn' : (((a.quot R).mul R).sub a).isNeg = false := by
          rw [← Bool.not_eq_true, IntVal.isNeg_iff, hu]
          rintro ⟨-, -, h⟩
          rw [show (((a.quot R).mul R).sub a).width = a.width by unfold IntVal.width; simp, hM] at h; omega
        rw [IntVal.val_of_not_neg hn', hu]; rfl
      rw [hplain, hdig, hav, Int.natAbs_neg, Int.natAbs_natCast, Nat.digits_def' (by omega : 1 < radix) (by omega : 0 < M)]
      simp
    · rw [if_neg (fun h => hmin h.2)]
      have hau : a.ubits ≠ 2 ^ (a.width - 1) := by
        intro h
        apply hmin
        apply natOfBytes_inj
        · simp; unfold IntVal.nb at hnb ⊢; omega
        · rw [minBytes_ubits hnb]; exact h
      have hge := (a.isNeg_iff.mp hn).2.2
      unfold IntVal.formatPlain
      rw [if_pos hn]
      have hnu : a.negate.ubits = a.val.natAbs := by
        rw [IntVal.negate_ubits, Nat.mod_eq_of_lt (by omega)]
        have := IntVal.natAbs_of_neg hn
        zify [le_of_lt halt]; zify at this; rw [this, hval]; ring
      have hnn : a.negate.isNeg = false := by
        rw [← Bool.not_eq_true, IntVal.isNeg_iff, hnu]
        rintro ⟨-, -, h⟩
        rw [show a.negate.width = a.width by unfold IntVal.width; simp] at h
        have := IntVal.natAbs_of_neg hn
        have h2 : (a.val.natAbs : Int) = 2 ^ a.width - a.ubits := by rw [this, hval]; ring
        have h3 : a.val.natAbs = 2 ^ a.width - a.ubits := by zify [le_of_lt halt]; zify at h2; exact h2
        omega
      have := formatDigits_spec h2 h36 hnb a.width a.negate [] (by simp) hnn (by
        have := a.negate.ubits_lt; rwa [show a.negate.width = a.width by unfold IntVal.width; simp] at this)
      rw [IntVal.negate_unsigned, hnu] at this
      rw [this, List.append_nil]
  · have hn' : a.isNeg = false := by simpa using hn
    have hval := IntVal.val_of_not_neg hn'
    have hnv : ¬ a.val < 0 := by rw [a.val_neg_iff]; exact hn
    rw [if_neg hnv, if_neg (fun h => hn h.1)]
    unfold IntVal.formatPlain
    rw [if_neg hn, formatDigits_spec h2 h36 hnb a.width a [] rfl hn' halt, List.append_nil, hval]; rfl

theorem digitChar_ne_sign {d : Nat} (h : d ≤ 35) : digitChar d ≠ charMinus ∧ digitChar d ≠ charPlus := by
  interval_cases d <;> decide

theorem parse_numeral (nb : Nat) (u : Bool) {radix : Nat} (h2 : 2 ≤ radix) (h36 : radix ≤ 36) (x : Int) :
    parse nb u radix (numeral radix x) = .ok (IntVal.ofInt nb x u) := by
  have hpos : ∀ n : Nat, 0 < n → parse nb u radix ((Nat.digits radix n).reverse.map digitChar) = .ok (IntVal.ofNat nb n u) := by
    intro n hn
    have hv := digitsValue_digits h2 h36 n
    have hmem : ∀ c ∈ (Nat.digits radix n).reverse.map digitChar, c ≠ charMinus ∧ c ≠ charPlus := by
      intro c hc
      simp only [List.mem_map, List.mem_reverse] at hc
      obtain ⟨d, hd, rfl⟩ := hc
      have := Nat.digits_lt_base (by omega : 1 < radix) hd
      exact digitChar_ne_sign (by omega)
    generalize (Nat.digits radix n).reverse.map digitChar = t at hv hmem ⊢
    cases t with
    | nil => rw [parse]; exact parseUnsigned_of_digits hv
    | cons c t =>
      rw [parse, if_neg (hmem c (by simp)).1, if_neg (hmem c (by simp)).2]; exact parseUnsigned_of_digits hv
  unfold numeral
  split
  · next h => subst h; rfl
  · split
    · next h0 h =>
      rw [parse, if_pos rfl, hpos _ (by omega)]
      simp only [Except.map]
      congr 1
      apply IntVal.ext_ubits (by simp) (by simp)
      zify
      rw [IntVal.negate_emod, IntVal.ofInt_ubits, IntVal.ofNat_ubits, show (IntVal.ofNat nb x.natAbs u).width = 8 * nb by unfold IntVal.width; simp]
      push_cast
      refine (Int.mod_modEq _ _).neg.trans ?_
      rw [show -|x| = x by rw [abs_of_neg h, neg_neg]]
    · next h0 h =>
      rw [hpos _ (by omega)]
      congr 1
      apply IntVal.ext_ubits (by simp) (by simp)
      zify
      rw [IntVal.ofInt_ubits, IntVal.ofNat_ubits]
      push_cast; rw [abs_of_nonneg (by omega)]

theorem parse_format {a : IntVal} {radix : Nat} (h2 : 2 ≤ radix) (h36 : radix ≤ 36) (hnb : 0 < a.nb) :
    parse a.nb a.unsigned radix (a.format radix) = .ok a := by
  rw [IntVal.format_eq h2 h36 hnb, parse_numeral _ _ h2 h36, IntVal.ofInt_val]

/-- The digit part of a text: the special texts and the digits. -/
theorem parseUnsigned_eq (nb : Nat) (u : Bool) {radix : Nat} (h2 : 2 ≤ radix) (t : List Byte) :
    parseUnsigned nb u radix t =
      match (if t = textNaN ∨ t = textInfinity then some 0 else digitsValueFrom radix 0 t) with
      | some n => .ok (IntVal.ofNat nb n u)
      | none => .error .invalidDigit := by
  by_cases hs : t = textNaN ∨ t = textInfinity
  · rw [if_pos hs, parseUnsigned, if_pos (Or.inr hs)]
  · rw [if_neg hs]
    cases hv : digitsValueFrom radix 0 t with
    | some n => exact parseUnsigned_of_digits hv
    | none =>
      have h0 : t ≠ textZero := by
        rintro rfl
        have : digitsValueFrom radix 0 textZero = if 0 < radix then some (0 * radix + 0) else none := rfl
        rw [this, if_pos (by omega)] at hv; cases hv
      rw [parseUnsigned, if_neg (by tauto),
        parseDigits_spec nb u radix t.reverse _ _ (by simp) (by simp) (by simp), List.reverse_reverse, hv]

theorem IntVal.negate_ofInt (nb : Nat) (x : Int) (u : Bool) : (IntVal.ofInt nb x u).negate = IntVal.ofInt nb (-x) u := by
  apply IntVal.ext_ubits (by simp) (by simp)
  zify
  rw [IntVal.negate_emod, IntVal.ofInt_ubits, IntVal.ofInt_ubits,
    show (IntVal.ofInt nb x u).width = 8 * nb by unfold IntVal.width; simp]
  exact (Int.mod_modEq _ _).neg

theorem IntVal.ofInt_natCast (nb n : Nat) (u : Bool) : IntVal.ofInt nb (n : Int) u = IntVal.ofNat nb n u := by
  apply IntVal.ext_ubits (by simp) (by simp)
  zify
  rw [IntVal.ofInt_ubits, IntVal.ofNat_ubits]; push_cast; rfl

theorem textValue_cons_minus (radix : Nat) (t : List Byte) :
    textValue radix (charMinus :: t) = (textValue radix t).map (- ·) := by
  simp only [textValue, show isSign charMinus = true from rfl, List.takeWhile_cons, List.dropWhile_cons, if_true]
  split
  · rfl
  · rw [Option.map_map, List.count_cons_self]
    congr 1; funext n; simp only [Function.comp]; ring

theorem textValue_cons_plus (radix : Nat) (t : List Byte) : textValue radix (charPlus :: t) = textValue radix t := by
  simp only [textValue, show isSign charPlus = true from rfl, List.takeWhile_cons, List.dropWhile_cons, if_true,
    List.count_cons_of_ne (show charPlus ≠ charMinus by decide)]

theorem textValue_of_not_sign (radix : Nat) (t : List Byte) (h : ∀ c ∈ t.head?, isSign c = false) :
    textValue radix t = (if t = textNaN ∨ t = textInfinity then some 0 else digitsValueFrom radix 0 t).map Int.ofNat := by
  have h1 : t.takeWhile isSign = [] := by cases t <;> simp_all
  have h2 : t.dropWhile isSign = t := by cases t <;> simp_all
  simp only [textValue, h1, h2]
  split
  · rfl
  · rcases digitsValueFrom radix 0 t with _ | n
    · rfl
    · simp

/-- `PARSE` computes the number the text denotes, at the width and flag of the destination. -/
theorem parse_eq (nb : Nat) (u : Bool) {radix : Nat} (h2 : 2 ≤ radix) (t : List Byte) :
    parse nb u radix t =
      match textValue radix t with
      | some x => .ok (IntVal.ofInt nb x u)
      | none => .error .invalidDigit := by
  have base : ∀ t : List Byte, (∀ c ∈ t.head?, isSign c = false) → parseUnsigned nb u radix t =
      match textValue radix t with
      | some x => .ok (IntVal.ofInt nb x u)
      | none => .error .invalidDigit := by
    intro t h
    rw [parseUnsigned_eq nb u h2, textValue_of_not_sign radix t h]
    rcases (if t = textNaN ∨ t = textInfinity then some 0 else digitsValueFrom radix 0 t) with _ | n
    · rfl
    · exact congrArg Except.ok (IntVal.ofInt_natCast nb n u).symm
  induction t with
  | nil => exact base [] (by simp)
  | cons c t ih =>
    rw [parse]
    split
    · next h =>
      subst h
      rw [ih, textValue_cons_minus]
      rcases textValue radix t with _ | x
      · rfl
      · exact congrArg Except.ok (IntVal.negate_ofInt nb x u)
    · split
      · next h => subst h; rw [ih, textValue_cons_plus]
      · next h1 h2 => exact base (c :: t) (by simp [isSign, h1, h2])

/-- A numeral has at most one character more than the value has bits. -/
theorem numeral_length {radix : Nat} (h2 : 2 ≤ radix) (a : IntVal) : (numeral radix a.val).length ≤ a.width + 1 := by
  have hd : (Nat.digits radix a.val.natAbs).length ≤ a.width := by
    rcases Nat.eq_zero_or_pos a.val.natAbs with h | h
    · simp [h]
    · rw [Nat.digits_length_le_iff (by omega), ← IntVal.absolute_ubits]
      have := a.absolute.ubits_lt
      have hw : a.absolute.width = a.width := by unfold IntVal.width; simp
      rw [hw] at this
      exact lt_of_lt_of_le this (Nat.pow_le_pow_left h2 _)
  unfold numeral
  split
  · simp [textZero]
  · split <;> simp <;> omega

end Sys2Proof.Machine
end

