-- ==== Sys2Proof/Laws/Decode.lean ====
section
/-!
SUPPORT. A descriptor and its fields determine each other; constant ids and sign modes survive encoding.
-/
namespace Sys2Proof

/-- Taking the low part of a concatenation. -/
theorem extractLsb'_append_low {n m : Nat} (x : BitVec n) (y : BitVec m) (a k : Nat) (h : a + k ≤ m) :
    (x ++ y).extractLsb' a k = y.extractLsb' a k := by
  apply BitVec.eq_of_getLsbD_eq
  intro i hi
  simp only [BitVec.getLsbD_extractLsb', BitVec.getLsbD_append, hi, decide_true, Bool.true_and]
  rw [if_pos (by omega)]

/-- Taking a part above the low one. -/
theorem extractLsb'_append_high {n m : Nat} (x : BitVec n) (y : BitVec m) (a k : Nat) (h : m ≤ a) :
    (x ++ y).extractLsb' a k = x.extractLsb' (a - m) k := by
  apply BitVec.eq_of_getLsbD_eq
  intro i hi
  simp only [BitVec.getLsbD_extractLsb', BitVec.getLsbD_append, hi, decide_true, Bool.true_and]
  rw [if_neg (by omega)]
  congr 1; omega

theorem getLsbD_append_low {n m : Nat} (x : BitVec n) (y : BitVec m) (a : Nat) (h : a < m) :
    (x ++ y).getLsbD a = y.getLsbD a := by rw [BitVec.getLsbD_append, if_pos h]

theorem getLsbD_append_high {n m : Nat} (x : BitVec n) (y : BitVec m) (a : Nat) (h : m ≤ a) :
    (x ++ y).getLsbD a = x.getLsbD (a - m) := by rw [BitVec.getLsbD_append, if_neg (by omega)]

/-- The fields of the descriptor with the fields `f` are `f`. -/
theorem Fields.ofDescriptor_toDescriptor (f : Fields) : Fields.ofDescriptor f.toDescriptor = f := by
  obtain ⟨op, rd, rd2, ra, rb, u, uov, uval, bv, sp, rl, nb, rx, rh, imm, addr, len⟩ := f
  simp (disch := omega) only [Fields.ofDescriptor, Fields.toDescriptor, extractLsb'_append_low,
    extractLsb'_append_high, getLsbD_append_low, getLsbD_append_high, BitVec.extractLsb'_eq_self, Nat.reduceSub]
  simp

/-- A register field as bits again. -/
theorem ofFin_toFin_extract (d : Descriptor) (a : Nat) :
    BitVec.ofFin (w := 4) (d.extractLsb' a 4).toFin = d.extractLsb' a 4 := rfl

/-- The descriptor with the fields of `d` is `d`. -/
theorem Fields.toDescriptor_ofDescriptor (d : Descriptor) : (Fields.ofDescriptor d).toDescriptor = d := by
  apply BitVec.eq_of_getLsbD_eq
  intro i hi
  simp only [Fields.ofDescriptor, Fields.toDescriptor, BitVec.getLsbD_append, ofFin_toFin_extract]
  interval_cases i <;> simp

/-- Fields that are those their format uses, and zero elsewhere, pass the check. -/
theorem Fields.checked_eq {f : Fields} {fmt : Format} {x : Except DecodeError Instr} (hl : f.rsvLow = 0)
    (hh : f.rsvHigh = 0) (hk : fmt.keep f = f) : f.checked fmt x = x := by
  rw [Fields.checked, if_neg (by simp [hl, hh]), if_neg (by simp [hk])]

theorem decodeConst_imm (c : ConstId) : decodeConst c.imm = .ok c := by cases c <;> rfl

theorem decodeMode_encode (m : Option Bool) : decodeMode m.isSome (m.getD false) = .ok m := by
  rcases m with _ | _ | _ <;> rfl

/-- Fields that pass the check are those their format uses, and zero elsewhere. -/
theorem Fields.checked_ok {f : Fields} {fmt : Format} {x : Except DecodeError Instr} {i : Instr}
    (h : f.checked fmt x = .ok i) : f.rsvLow = 0 ∧ f.rsvHigh = 0 ∧ fmt.keep f = f ∧ x = .ok i := by
  unfold Fields.checked at h
  split at h
  · cases h
  · split at h
    · cases h
    · next h1 h2 => exact ⟨by tauto, by tauto, by simpa using h2, h⟩

theorem decodeMode_ok {a b : Bool} {m : Option Bool} (h : decodeMode a b = .ok m) : m.isSome = a ∧ m.getD false = b := by
  cases a <;> cases b <;> cases h <;> decide

theorem decodeConst_ok {w : Word} {c : ConstId} (h : decodeConst w = .ok c) : c.imm = w := by
  unfold decodeConst at h
  split at h <;> first | (cases h; apply BitVec.eq_of_toNat_eq; symm; assumption) | cases h

/-- Two descriptors with the same fields are the same. -/
theorem Fields.ofDescriptor_inj {d e : Descriptor} : Fields.ofDescriptor d = Fields.ofDescriptor e ↔ d = e :=
  ⟨fun h => by rw [← Fields.toDescriptor_ofDescriptor d, h, Fields.toDescriptor_ofDescriptor], fun h => h ▸ rfl⟩

theorem extractLsb'_and (d m : Descriptor) (a k : Nat) :
    (d &&& m).extractLsb' a k = d.extractLsb' a k &&& m.extractLsb' a k := by
  apply BitVec.eq_of_getLsbD_eq; intro i hi; simp [hi]

end Sys2Proof
end

