-- ==== Sys2Proof/Laws/State.lean ====
section
/-!
SUPPORT. Every field of the state after every update of it, one lemma each; what a register holds after a write; and
how the updates of the meanings give the end states of Safety.
-/
namespace Sys2Proof.Machine

@[simp] theorem State.setV_v (s : State) (r : Reg) (x : IntVal) : (s.setV r x).v = s.v.set r (some x) := rfl
@[simp] theorem State.setV_res (s : State) (r : Reg) (x : IntVal) : (s.setV r x).res = s.res := rfl
@[simp] theorem State.setV_status (s : State) (r : Reg) (x : IntVal) : (s.setV r x).status = s.status := rfl
@[simp] theorem State.setV_cfg (s : State) (r : Reg) (x : IntVal) : (s.setV r x).cfg = s.cfg := rfl
@[simp] theorem State.setV_buf (s : State) (r : Reg) (x : IntVal) : (s.setV r x).buf = s.buf := rfl
@[simp] theorem State.setV_draw (s : State) (r : Reg) (x : IntVal) : (s.setV r x).draw = s.draw := rfl
@[simp] theorem State.setV_pending (s : State) (r : Reg) (x : IntVal) : (s.setV r x).pending = s.pending := rfl
@[simp] theorem State.setV_reply (s : State) (r : Reg) (x : IntVal) : (s.setV r x).reply = s.reply := rfl

@[simp] theorem State.setRes_v (s : State) (w : Word) : (s.setRes w).v = s.v := rfl
@[simp] theorem State.setRes_res (s : State) (w : Word) : (s.setRes w).res = w := rfl
@[simp] theorem State.setRes_status (s : State) (w : Word) : (s.setRes w).status = s.status := rfl
@[simp] theorem State.setRes_cfg (s : State) (w : Word) : (s.setRes w).cfg = s.cfg := rfl
@[simp] theorem State.setRes_buf (s : State) (w : Word) : (s.setRes w).buf = s.buf := rfl
@[simp] theorem State.setRes_draw (s : State) (w : Word) : (s.setRes w).draw = s.draw := rfl
@[simp] theorem State.setRes_pending (s : State) (w : Word) : (s.setRes w).pending = s.pending := rfl
@[simp] theorem State.setRes_reply (s : State) (w : Word) : (s.setRes w).reply = s.reply := rfl

@[simp] theorem State.setRu_v (s : State) (u : Bool) : (s.setRu u).v = s.v := rfl
@[simp] theorem State.setRu_res (s : State) (u : Bool) : (s.setRu u).res = s.res := rfl
@[simp] theorem State.setRu_status (s : State) (u : Bool) : (s.setRu u).status = s.status.withRu u := rfl
@[simp] theorem State.setRu_cfg (s : State) (u : Bool) : (s.setRu u).cfg = s.cfg := rfl
@[simp] theorem State.setRu_buf (s : State) (u : Bool) : (s.setRu u).buf = s.buf := rfl
@[simp] theorem State.setRu_draw (s : State) (u : Bool) : (s.setRu u).draw = s.draw := rfl
@[simp] theorem State.setRu_pending (s : State) (u : Bool) : (s.setRu u).pending = s.pending := rfl
@[simp] theorem State.setRu_reply (s : State) (u : Bool) : (s.setRu u).reply = s.reply := rfl

@[simp] theorem State.clearEf_v (s : State) : (s.clearEf).v = s.v := rfl
@[simp] theorem State.clearEf_res (s : State) : (s.clearEf).res = s.res := rfl
@[simp] theorem State.clearEf_status (s : State) : (s.clearEf).status = s.status.cleared := rfl
@[simp] theorem State.clearEf_cfg (s : State) : (s.clearEf).cfg = s.cfg := rfl
@[simp] theorem State.clearEf_buf (s : State) : (s.clearEf).buf = s.buf := rfl
@[simp] theorem State.clearEf_draw (s : State) : (s.clearEf).draw = s.draw := rfl
@[simp] theorem State.clearEf_pending (s : State) : (s.clearEf).pending = s.pending := rfl
@[simp] theorem State.clearEf_reply (s : State) : (s.clearEf).reply = s.reply := rfl

@[simp] theorem State.setBuf_v (s : State) (a : Nat) (bs : List Byte) : (s.setBuf a bs).v = s.v := rfl
@[simp] theorem State.setBuf_res (s : State) (a : Nat) (bs : List Byte) : (s.setBuf a bs).res = s.res := rfl
@[simp] theorem State.setBuf_status (s : State) (a : Nat) (bs : List Byte) : (s.setBuf a bs).status = s.status := rfl
@[simp] theorem State.setBuf_cfg (s : State) (a : Nat) (bs : List Byte) : (s.setBuf a bs).cfg = s.cfg := rfl
@[simp] theorem State.setBuf_buf (s : State) (a : Nat) (bs : List Byte) : (s.setBuf a bs).buf = Memory.writeBytes s.buf a bs := rfl
@[simp] theorem State.setBuf_draw (s : State) (a : Nat) (bs : List Byte) : (s.setBuf a bs).draw = s.draw := rfl
@[simp] theorem State.setBuf_pending (s : State) (a : Nat) (bs : List Byte) : (s.setBuf a bs).pending = s.pending := rfl
@[simp] theorem State.setBuf_reply (s : State) (a : Nat) (bs : List Byte) : (s.setBuf a bs).reply = s.reply := rfl

@[simp] theorem State.raise_v (s : State) (e : Error) : (s.raise e).v = s.v := rfl
@[simp] theorem State.raise_res (s : State) (e : Error) : (s.raise e).res = s.res := rfl
@[simp] theorem State.raise_status (s : State) (e : Error) : (s.raise e).status = s.status.raised e := rfl
@[simp] theorem State.raise_cfg (s : State) (e : Error) : (s.raise e).cfg = s.cfg := rfl
@[simp] theorem State.raise_buf (s : State) (e : Error) : (s.raise e).buf = s.buf := rfl
@[simp] theorem State.raise_draw (s : State) (e : Error) : (s.raise e).draw = s.draw := rfl
@[simp] theorem State.raise_pending (s : State) (e : Error) : (s.raise e).pending = s.pending := rfl
@[simp] theorem State.raise_reply (s : State) (e : Error) : (s.raise e).reply = s.reply := rfl

@[simp] theorem State.succeed_v (s : State) : (s.succeed).v = s.v := rfl
@[simp] theorem State.succeed_res (s : State) : (s.succeed).res = s.res := rfl
@[simp] theorem State.succeed_status (s : State) : (s.succeed).status = s.status.succeeded := rfl
@[simp] theorem State.succeed_cfg (s : State) : (s.succeed).cfg = s.cfg := rfl
@[simp] theorem State.succeed_buf (s : State) : (s.succeed).buf = s.buf := rfl
@[simp] theorem State.succeed_draw (s : State) : (s.succeed).draw = s.draw := rfl
@[simp] theorem State.succeed_pending (s : State) : (s.succeed).pending = s.pending := rfl
@[simp] theorem State.succeed_reply (s : State) : (s.succeed).reply = s.reply := rfl

@[simp] theorem State.resetUnit_v (s : State) : (s.resetUnit).v = Vector.replicate 16 none := rfl
@[simp] theorem State.resetUnit_res (s : State) : (s.resetUnit).res = 0 := rfl
@[simp] theorem State.resetUnit_status (s : State) : (s.resetUnit).status = ⟨0, false, false⟩ := rfl
@[simp] theorem State.resetUnit_cfg (s : State) : (s.resetUnit).cfg = s.cfg := rfl
@[simp] theorem State.resetUnit_buf (s : State) : (s.resetUnit).buf = [] := rfl
@[simp] theorem State.resetUnit_draw (s : State) : (s.resetUnit).draw = s.draw + 1 := rfl
@[simp] theorem State.resetUnit_pending (s : State) : (s.resetUnit).pending = s.pending := rfl
@[simp] theorem State.resetUnit_reply (s : State) : (s.resetUnit).reply = s.reply := rfl

@[simp] theorem State.withIssue_v (s : State) (d : Descriptor) : (s.withIssue d).v = s.v := rfl
@[simp] theorem State.withIssue_res (s : State) (d : Descriptor) : (s.withIssue d).res = s.res := rfl
@[simp] theorem State.withIssue_status (s : State) (d : Descriptor) : (s.withIssue d).status = s.status := rfl
@[simp] theorem State.withIssue_cfg (s : State) (d : Descriptor) : (s.withIssue d).cfg = s.cfg := rfl
@[simp] theorem State.withIssue_buf (s : State) (d : Descriptor) : (s.withIssue d).buf = s.buf := rfl
@[simp] theorem State.withIssue_draw (s : State) (d : Descriptor) : (s.withIssue d).draw = s.draw := rfl
@[simp] theorem State.withIssue_pending (s : State) (d : Descriptor) : (s.withIssue d).pending = .issue d :: s.pending := rfl
@[simp] theorem State.withIssue_reply (s : State) (d : Descriptor) : (s.withIssue d).reply = s.reply := rfl

@[simp] theorem State.wroteV_v (s : State) (r : Reg) (x : IntVal) : (s.wroteV r x).v = s.v.set r (some x) := rfl
@[simp] theorem State.wroteV_res (s : State) (r : Reg) (x : IntVal) : (s.wroteV r x).res = s.res := rfl
@[simp] theorem State.wroteV_status (s : State) (r : Reg) (x : IntVal) : (s.wroteV r x).status = ⟨0, s.status.ef, s.status.ru⟩ := rfl
@[simp] theorem State.wroteV_cfg (s : State) (r : Reg) (x : IntVal) : (s.wroteV r x).cfg = s.cfg := rfl
@[simp] theorem State.wroteV_buf (s : State) (r : Reg) (x : IntVal) : (s.wroteV r x).buf = s.buf := rfl
@[simp] theorem State.wroteV_draw (s : State) (r : Reg) (x : IntVal) : (s.wroteV r x).draw = s.draw := rfl
@[simp] theorem State.wroteV_pending (s : State) (r : Reg) (x : IntVal) : (s.wroteV r x).pending = s.pending := rfl
@[simp] theorem State.wroteV_reply (s : State) (r : Reg) (x : IntVal) : (s.wroteV r x).reply = s.reply := rfl

@[simp] theorem State.wroteRes_v (s : State) (w : Word) : (s.wroteRes w).v = s.v := rfl
@[simp] theorem State.wroteRes_res (s : State) (w : Word) : (s.wroteRes w).res = w := rfl
@[simp] theorem State.wroteRes_status (s : State) (w : Word) : (s.wroteRes w).status = ⟨0, s.status.ef, s.status.ru⟩ := rfl
@[simp] theorem State.wroteRes_cfg (s : State) (w : Word) : (s.wroteRes w).cfg = s.cfg := rfl
@[simp] theorem State.wroteRes_buf (s : State) (w : Word) : (s.wroteRes w).buf = s.buf := rfl
@[simp] theorem State.wroteRes_draw (s : State) (w : Word) : (s.wroteRes w).draw = s.draw := rfl
@[simp] theorem State.wroteRes_pending (s : State) (w : Word) : (s.wroteRes w).pending = s.pending := rfl
@[simp] theorem State.wroteRes_reply (s : State) (w : Word) : (s.wroteRes w).reply = s.reply := rfl

@[simp] theorem State.failed_v (s : State) (c : BitVec 4) : (s.failed c).v = s.v := rfl
@[simp] theorem State.failed_res (s : State) (c : BitVec 4) : (s.failed c).res = s.res := rfl
@[simp] theorem State.failed_status (s : State) (c : BitVec 4) : (s.failed c).status = ⟨c, true, s.status.ru⟩ := rfl
@[simp] theorem State.failed_cfg (s : State) (c : BitVec 4) : (s.failed c).cfg = s.cfg := rfl
@[simp] theorem State.failed_buf (s : State) (c : BitVec 4) : (s.failed c).buf = s.buf := rfl
@[simp] theorem State.failed_draw (s : State) (c : BitVec 4) : (s.failed c).draw = s.draw := rfl
@[simp] theorem State.failed_pending (s : State) (c : BitVec 4) : (s.failed c).pending = s.pending := rfl
@[simp] theorem State.failed_reply (s : State) (c : BitVec 4) : (s.failed c).reply = s.reply := rfl

@[simp] theorem State.setV_maxBits (s : State) (r : Reg) (x : IntVal) : (s.setV r x).maxBits = s.maxBits := rfl
@[simp] theorem State.setV_bufSize (s : State) (r : Reg) (x : IntVal) : (s.setV r x).bufSize = s.bufSize := rfl
@[simp] theorem State.setRes_maxBits (s : State) (w : Word) : (s.setRes w).maxBits = s.maxBits := rfl
@[simp] theorem State.setRes_bufSize (s : State) (w : Word) : (s.setRes w).bufSize = s.bufSize := rfl
@[simp] theorem State.setRu_maxBits (s : State) (u : Bool) : (s.setRu u).maxBits = s.maxBits := rfl
@[simp] theorem State.setRu_bufSize (s : State) (u : Bool) : (s.setRu u).bufSize = s.bufSize := rfl
@[simp] theorem State.clearEf_maxBits (s : State) : (s.clearEf).maxBits = s.maxBits := rfl
@[simp] theorem State.clearEf_bufSize (s : State) : (s.clearEf).bufSize = s.bufSize := rfl
@[simp] theorem State.setBuf_maxBits (s : State) (a : Nat) (bs : List Byte) : (s.setBuf a bs).maxBits = s.maxBits := rfl
@[simp] theorem State.setBuf_bufSize (s : State) (a : Nat) (bs : List Byte) : (s.setBuf a bs).bufSize = s.bufSize := rfl
@[simp] theorem State.raise_maxBits (s : State) (e : Error) : (s.raise e).maxBits = s.maxBits := rfl
@[simp] theorem State.raise_bufSize (s : State) (e : Error) : (s.raise e).bufSize = s.bufSize := rfl
@[simp] theorem State.succeed_maxBits (s : State) : (s.succeed).maxBits = s.maxBits := rfl
@[simp] theorem State.succeed_bufSize (s : State) : (s.succeed).bufSize = s.bufSize := rfl

@[simp] theorem get_set_self (v : Vector (Option IntVal) 16) (r : Reg) (x : Option IntVal) :
    (v.set r x).get r = x := by
  simp [Vector.get_eq_getElem]

theorem get_set_of_ne (v : Vector (Option IntVal) 16) {r q : Reg} (x : Option IntVal) (h : r ≠ q) :
    (v.set r x).get q = v.get q := by
  have : (r : Nat) ≠ q := fun h' => h (Fin.ext h')
  simp [Vector.get_eq_getElem, this]

theorem get_set (v : Vector (Option IntVal) 16) (r q : Reg) (x : Option IntVal) :
    (v.set r x).get q = if r = q then x else v.get q := by
  by_cases h : r = q
  · subst h; simp
  · rw [if_neg h, get_set_of_ne v x h]

@[simp] theorem Status.succeeded_eq (st : Status) : st.succeeded = ⟨0, st.ef, st.ru⟩ := rfl

theorem State.setV_succeed (s : State) (r : Reg) (x : IntVal) : (s.setV r x).succeed = s.wroteV r x := rfl
theorem State.setRes_succeed (s : State) (w : Word) : (s.setRes w).succeed = s.wroteRes w := rfl
theorem State.raise_eq (s : State) (e : Error) : s.raise e = s.failed e.code := rfl

end Sys2Proof.Machine
end

