-- ==== Sys2Proof/Laws/Memory.lean ====
section
/-!
SUPPORT. BUF: a read after a write, and that every write keeps the canonical form and the address range of the list.
-/
namespace Sys2Proof.Machine

theorem Memory.write_keys (m : List Host.Cell) (a : Nat) (b : Byte) :
    ∀ c ∈ Memory.write m a b, c = (a, b) ∨ c ∈ m := by
  induction m with
  | nil => simp [Memory.write]
  | cons p m ih =>
    intro c hc
    rw [Memory.write] at hc
    split at hc
    · simpa using hc
    · split at hc
      · simp only [List.mem_cons] at hc ⊢; tauto
      · simp only [List.mem_cons] at hc ⊢
        rcases hc with h | h
        · tauto
        · rcases ih c h with h | h <;> tauto

/-- A write keeps the canonical form. -/
theorem Memory.write_wf {m : List Host.Cell} (h : Memory.wf m) (a : Nat) (b : Byte) : Memory.wf (Memory.write m a b) := by
  induction m with
  | nil => simp [Memory.write]
  | cons p m ih =>
    obtain ⟨x, c⟩ := p
    obtain ⟨hx, hm⟩ := List.pairwise_cons.1 h
    rw [Memory.write]
    split
    · next hlt =>
      refine List.pairwise_cons.2 ⟨fun q hq => ?_, h⟩
      rcases List.mem_cons.1 hq with rfl | hq
      · exact hlt
      · exact Nat.lt_trans hlt (hx q hq)
    · split
      · next heq => subst heq; exact List.pairwise_cons.2 ⟨hx, hm⟩
      · next hnl hne =>
        refine List.pairwise_cons.2 ⟨fun q hq => ?_, ih hm⟩
        rcases Memory.write_keys m a b q hq with rfl | hq
        · show x < a; omega
        · exact hx q hq

/-- Writing several bytes keeps the canonical form. -/
theorem Memory.writeBytes_wf {m : List Host.Cell} (h : Memory.wf m) (a : Nat) (bs : List Byte) :
    Memory.wf (Memory.writeBytes m a bs) := by
  induction bs generalizing m a with
  | nil => exact h
  | cons b bs ih => exact ih (Memory.write_wf h a b) (a + 1)

/-- Writing several bytes lists no address but theirs. -/
theorem Memory.writeBytes_lt {m : List Host.Cell} {n : Nat} (h : ∀ c ∈ m, c.1 < n) (a : Nat) (bs : List Byte)
    (hb : bs = [] ∨ a + bs.length ≤ n) : ∀ c ∈ Memory.writeBytes m a bs, c.1 < n := by
  induction bs generalizing m a with
  | nil => exact h
  | cons b bs ih =>
    have hb' : a + bs.length + 1 ≤ n := by simpa [Nat.add_assoc] using hb
    refine ih (fun c hc => ?_) (a + 1) (Or.inr (by omega))
    rcases Memory.write_keys m a b c hc with rfl | hc
    · show a < n; omega
    · exact h c hc

/-- A read of a byte just written, and of any other byte. -/
theorem Memory.read?_write (m : List Host.Cell) (a : Nat) (b : Byte) (q : Nat) :
    Memory.read? (Memory.write m a b) q = if a = q then some b else Memory.read? m q := by
  induction m with
  | nil => simp [Memory.write, Memory.read?]
  | cons p m ih =>
    obtain ⟨x, c⟩ := p
    rw [Memory.write]
    split
    · simp [Memory.read?]
    · split
      · next heq =>
        subst heq
        simp only [Memory.read?]
        split <;> rfl
      · next hne =>
        simp only [Memory.read?, ih]
        by_cases hxq : x = q
        · simp only [hxq, if_true]
          rw [if_neg (by omega)]
        · simp only [hxq, if_false]

/-- A read after writing several bytes. -/
theorem Memory.read?_writeBytes (m : List Host.Cell) (a : Nat) (bs : List Byte) (q : Nat) :
    Memory.read? (Memory.writeBytes m a bs) q =
      if h : a ≤ q ∧ q < a + bs.length then some (bs[q - a]'(by omega)) else Memory.read? m q := by
  induction bs generalizing m a with
  | nil => rw [dif_neg (by simp)]; rfl
  | cons b bs ih =>
    rw [Memory.writeBytes, ih, Memory.read?_write]
    simp only [List.length_cons]
    by_cases h : a + 1 ≤ q ∧ q < a + 1 + bs.length
    · rw [dif_pos h, dif_pos (by omega)]
      congr 1
      rw [List.getElem_cons, dif_neg (by omega)]
      congr 1
    · rw [dif_neg h]
      by_cases ha : a = q
      · subst ha
        rw [if_pos rfl, dif_pos (by omega)]; simp
      · rw [if_neg ha, dif_neg (by omega)]

/-- `BUF` after `BUF[a ..] <- bs`: inside the written bytes. -/
theorem State.bufByte_setBuf_inside (s : State) (a : Nat) (bs : List Byte) (i : Nat) (h : i < bs.length) :
    (s.setBuf a bs).bufByte (a + i) = bs[i] := by
  simp only [State.bufByte, State.setBuf_buf, Memory.read?_writeBytes]
  rw [dif_pos (by omega)]
  simp

/-- `BUF` after `BUF[a ..] <- bs`: outside the written bytes. -/
theorem State.bufByte_setBuf_outside (s : State) (a : Nat) (bs : List Byte) (q : Nat)
    (h : q < a ∨ a + bs.length ≤ q) : (s.setBuf a bs).bufByte q = s.bufByte q := by
  simp only [State.bufByte, State.setBuf_buf, State.setBuf_draw, Memory.read?_writeBytes]
  rw [dif_neg (by omega)]

/-- The written bytes read back as one. -/
theorem State.bufBytes_setBuf (s : State) (a : Nat) (bs : List Byte) :
    (s.setBuf a bs).bufBytes a bs.length = bs := by
  apply List.ext_getElem
  · simp [State.bufBytes]
  · intro i h1 h2
    simp only [State.bufBytes, List.getElem_map, List.getElem_range]
    exact s.bufByte_setBuf_inside a bs i h2

/-- BUF depends on nothing but its list and the draw. -/
theorem State.bufByte_congr {s t : State} (hb : s.buf = t.buf) (hd : s.draw = t.draw) (a : Nat) :
    s.bufByte a = t.bufByte a := by
  simp only [State.bufByte, hb, hd]

theorem State.reset_buf_wf : Memory.wf State.reset.buf := List.Pairwise.nil

/-- The bytes read from a range, one by one. -/
theorem State.getD_bufBytes (s : State) (a n i : Nat) :
    (s.bufBytes a n).getD i 0 = if i < n then s.bufByte (a + i) else 0 := by
  unfold State.bufBytes
  by_cases h : i < n
  · simp [h]
  · simp [h]

/-- The first of the written bytes read back. -/
theorem State.bufBytes_setBuf_prefix (s : State) (a : Nat) (bs cs : List Byte) :
    (s.setBuf a (bs ++ cs)).bufBytes a bs.length = bs := by
  apply List.ext_getElem
  · simp [State.bufBytes]
  · intro i h1 h2
    simp only [State.bufBytes, List.getElem_map, List.getElem_range]
    rw [s.bufByte_setBuf_inside a _ i (by simp; omega)]
    simp [h2]

end Sys2Proof.Machine
end

