-- ==== Sys2Proof/Laws/Operations.lean ====
section
/-!
SUPPORT. What each operand form and each command shape answers, once: with the value it gives, or with the error it
raises. A proof about a command cites these and unfolds none of them.
-/
namespace Sys2Proof.Machine

theorem State.operand_of_some {s : State} {r : Reg} {x : IntVal} (h : s.v.get r = some x) : s.operand r = .ok x := by
  simp [State.operand, h]

theorem State.operand_of_none {s : State} {r : Reg} (h : s.v.get r = none) : s.operand r = .error .invalidOperand := by
  simp [State.operand, h]

theorem State.operand_eq_ok {s : State} {r : Reg} {x : IntVal} : s.operand r = .ok x ↔ s.v.get r = some x := by
  unfold State.operand; split <;> simp_all

theorem State.operands_of_some {s : State} {ra rb : Reg} {a b : IntVal} (ha : s.v.get ra = some a)
    (hb : s.v.get rb = some b) : s.operands ra rb = .ok (a, b.coerce a.nb) := by
  simp only [State.operands, State.operand_of_some ha, State.operand_of_some hb]; rfl

theorem State.operands_of_empty {s : State} {ra rb : Reg} (h : s.v.get ra = none ∨ s.v.get rb = none) :
    s.operands ra rb = .error .invalidOperand := by
  unfold State.operands
  cases ha : s.v.get ra with
  | none => simp only [State.operand_of_none ha]; rfl
  | some a =>
    have hb : s.v.get rb = none := by simpa [ha] using h
    simp only [State.operand_of_some ha, State.operand_of_none hb]; rfl

theorem State.widthOk_iff {s : State} {n : BitVec 16} :
    s.widthOk n = true ↔ s.LegalWidth n := by
  simp [State.widthOk, State.LegalWidth, and_assoc]

theorem State.widthOf_ok {s : State} {n : BitVec 16} (h : s.LegalWidth n) : s.widthOf n = .ok (n.toNat / 8) := by
  simp [State.widthOf, State.widthOk_iff.2 h]

theorem State.widthOf_bad {s : State} {n : BitVec 16} (h : ¬s.LegalWidth n) :
    s.widthOf n = .error .invalidWidth := by
  rw [State.widthOf, if_neg (fun h' => h (State.widthOk_iff.1 h'))]

/-- A width that passes the check is 8 times its byte count. -/
theorem State.LegalWidth.div {s : State} {n : BitVec 16} (h : s.LegalWidth n) :
    8 * (n.toNat / 8) = n.toNat ∧ 0 < n.toNat / 8 := by
  have := h; omega

theorem radixOf_ok {r : BitVec 8} (h : LegalRadix r) : radixOf r = .ok r.toNat := by
  rw [radixOf, if_neg (by have := h; omega)]

theorem radixOf_bad {r : BitVec 8} (h : ¬LegalRadix r) : radixOf r = .error .radixOutOfRange := by
  rw [radixOf, if_pos (by have := h; omega)]

theorem State.inBuf_iff {s : State} {a n : Nat} : s.inBuf a n = true ↔ s.InRange a n := by
  simp [State.inBuf]

theorem State.load_ok {s : State} {addr : BitVec 16} {n : Nat} (h : s.InRange addr.toNat n) :
    s.load addr n = .ok (s.bufBytes addr.toNat n) := by
  rw [State.load, if_pos (State.inBuf_iff.2 h)]

theorem State.load_bad {s : State} {addr : BitVec 16} {n : Nat} (h : ¬s.InRange addr.toNat n) :
    s.load addr n = .error .bufRange := by
  rw [State.load, if_neg (fun h' => h (State.inBuf_iff.1 h'))]

theorem State.store_ok {s : State} {addr : BitVec 16} {bs : List Byte} (h : s.InRange addr.toNat bs.length) :
    s.store addr bs = .ok (s.setBuf addr.toNat bs) := by
  rw [State.store, if_pos (State.inBuf_iff.2 h)]

theorem State.store_bad {s : State} {addr : BitVec 16} {bs : List Byte} (h : ¬s.InRange addr.toNat bs.length) :
    s.store addr bs = .error .bufRange := by
  rw [State.store, if_neg (fun h' => h (State.inBuf_iff.1 h'))]

/-- A command always ends in a next state: its writes with `ERR = 0`, or the error it raised and nothing else. -/
theorem State.finish_cases (s : State) (r : Except Error State) :
    (∃ t, r = .ok t ∧ s.finish r = .next t.succeed) ∨ (∃ e, r = .error e ∧ s.finish r = .next (s.raise e)) := by
  cases r with
  | ok t => exact .inl ⟨t, rfl, rfl⟩
  | error e => exact .inr ⟨e, rfl, rfl⟩

@[simp] theorem State.finish_ok (s t : State) : s.finish (.ok t) = .next t.succeed := rfl
@[simp] theorem State.finish_error (s : State) (e : Error) : s.finish (.error e) = .next (s.raise e) := rfl

theorem unaryCommand_ok {op : IntVal → IntVal} {rd ra : Reg} {s : State} {a : IntVal} (h : s.v.get ra = some a) :
    unaryCommand op rd ra s = .ok (s.setV rd (op a)) := by
  simp only [unaryCommand, State.operand_of_some h]; rfl

theorem unaryCommand_empty {op : IntVal → IntVal} {rd ra : Reg} {s : State} (h : s.v.get ra = none) :
    unaryCommand op rd ra s = .error .invalidOperand := by
  simp only [unaryCommand, State.operand_of_none h]; rfl

theorem scalarCommand_ok {op : IntVal → Word} {ra : Reg} {s : State} {a : IntVal} (h : s.v.get ra = some a) :
    scalarCommand op ra s = .ok (s.setRes (op a)) := by
  simp only [scalarCommand, State.operand_of_some h]; rfl

theorem scalarCommand_empty {op : IntVal → Word} {ra : Reg} {s : State} (h : s.v.get ra = none) :
    scalarCommand op ra s = .error .invalidOperand := by
  simp only [scalarCommand, State.operand_of_none h]; rfl

theorem binaryCommand_ok {op : IntVal → IntVal → IntVal} {rd ra rb : Reg} {s : State} {a b : IntVal}
    (ha : s.v.get ra = some a) (hb : s.v.get rb = some b) :
    binaryCommand op rd ra rb s = .ok (s.setV rd (op a (b.coerce a.nb))) := by
  simp only [binaryCommand, State.operands_of_some ha hb]; rfl

theorem binaryCommand_empty {op : IntVal → IntVal → IntVal} {rd ra rb : Reg} {s : State}
    (h : s.v.get ra = none ∨ s.v.get rb = none) : binaryCommand op rd ra rb s = .error .invalidOperand := by
  simp only [binaryCommand, State.operands_of_empty h]; rfl

theorem compareCommand_ok {f : Ordering → Word} {ra rb : Reg} {s : State} {a b : IntVal} (ha : s.v.get ra = some a)
    (hb : s.v.get rb = some b) : compareCommand f ra rb s = .ok (s.setRes (f (a.compare (b.coerce a.nb)))) := by
  simp only [compareCommand, State.operands_of_some ha hb]; rfl

theorem compareCommand_empty {f : Ordering → Word} {ra rb : Reg} {s : State}
    (h : s.v.get ra = none ∨ s.v.get rb = none) : compareCommand f ra rb s = .error .invalidOperand := by
  simp only [compareCommand, State.operands_of_empty h]; rfl

/-- A command that stores `bs` and counts them in RES ends in the state `storedFrom` describes. -/
theorem State.storedFrom_setBuf (s : State) (a : Nat) (bs : List Byte) (w : Word) :
    s.storedFrom ((s.setBuf a bs).setRes w).succeed a bs w := by
  refine ⟨fun i h => ?_, fun q h => ?_, rfl⟩
  · exact s.bufByte_setBuf_inside a bs i h
  · exact s.bufByte_setBuf_outside a bs q h

end Sys2Proof.Machine
end

