-- ==== Sys2Proof/Laws/Exec.lean ====
section
/-!
SUPPORT. What executing a command can do, said once: it raises an error and changes nothing else, or it succeeds with
the writes of one of six shapes. Every statement about all commands is a case analysis on this.
-/
namespace Sys2Proof.Machine

/-- Every value in a register fits the unit. -/
def State.RegsFit (s : State) : Prop := ∀ q : Reg, ∀ y ∈ s.v.get q, y.fits s.maxBits

/-- `s'` has the value registers, BUF and parameters of `s`: all that a command reads. -/
structure Same (s s' : State) : Prop where
  v    : s'.v = s.v
  cfg  : s'.cfg = s.cfg
  buf  : s'.buf = s.buf
  draw : s'.draw = s.draw

theorem Same.refl (s : State) : Same s s := ⟨rfl, rfl, rfl, rfl⟩

theorem Same.get {s s' : State} (h : Same s s') (r : Reg) : s'.v.get r = s.v.get r := by rw [h.v]

theorem Same.legalWidth {s s' : State} (h : Same s s') (n : BitVec 16) : s'.LegalWidth n ↔ s.LegalWidth n := by
  unfold State.LegalWidth State.maxBits; rw [h.cfg]

theorem Same.inRange {s s' : State} (h : Same s s') (a n : Nat) : s'.InRange a n ↔ s.InRange a n := by
  unfold State.InRange State.bufSize; rw [h.cfg]

theorem Same.bufBytes {s s' : State} (h : Same s s') (a n : Nat) : s'.bufBytes a n = s.bufBytes a n := by
  simp only [State.bufBytes, State.bufByte, h.buf, h.draw]

/-- What a command writes when it succeeds, besides `ERR <- 0`. -/
inductive Write where
  | reg (r : Reg) (x : IntVal)
  | regs (q r : Reg) (x y : IntVal)
  | res (w : Word)
  | toint (w : Word) (u : Bool)
  | buf (a : Nat) (bs : List Byte) (w : Word)
  | clearEf

/-- A state after the writes. -/
def Write.apply : Write → State → State
  | .reg r x, s => s.setV r x
  | .regs q r x y, s => (s.setV q x).setV r y
  | .res w, s => s.setRes w
  | .toint w u, s => (s.setRes w).setRu u
  | .buf a bs w, s => (s.setBuf a bs).setRes w
  | .clearEf, s => s.clearEf

/-- The writes that a command `i` can make when it succeeds in `s`. -/
inductive Wrote (i : Instr) (s : State) : Write → Prop where
  /-- one destination register -/
  | reg (r : Reg) (x : IntVal) (hd : dests i = [r]) (hr : writesRes i = false) (hs : stores s i = none)
      (hc : i ≠ .clre) (hf : s.RegsFit → x.fits s.maxBits) : Wrote i s (.reg r x)
  /-- the two destinations of `DIVMOD` -/
  | regs (q r : Reg) (x y : IntVal) (hd : dests i = [q, r]) (hr : writesRes i = false) (hs : stores s i = none)
      (hc : i ≠ .clre) (hf : s.RegsFit → x.fits s.maxBits ∧ y.fits s.maxBits) : Wrote i s (.regs q r x y)
  /-- RES -/
  | res (w : Word) (hd : dests i = []) (hr : writesRes i = true) (hs : stores s i = none) (hc : i ≠ .clre)
      (ht : ∀ ra m, i ≠ .toint ra m) : Wrote i s (.res w)
  /-- RES and RU -/
  | toint (ra : Reg) (mode : Option Bool) (a : IntVal) (hi : i = .toint ra mode) (ha : s.v.get ra = some a) :
      Wrote i s (.toint a.toMachineInt (signMode mode a.unsigned))
  /-- BUF and RES -/
  | buf (a : Nat) (bs : List Byte) (w : Word) (hd : dests i = []) (hr : writesRes i = true)
      (hs : stores s i = some (a, bs)) (hc : i ≠ .clre) (hn : s.InRange a bs.length) : Wrote i s (.buf a bs w)
  /-- EF -/
  | clre (hi : i = .clre) : Wrote i s .clearEf

/-- From `s`, and alike from every state with the same inputs: `i` raises one of its errors and changes nothing else,
or succeeds with its writes. -/
def Ends (i : Instr) (s : State) (o : State → Host.Outcome State Fault Refusal) : Prop :=
  (∃ e ∈ mayRaise i, ∀ s', Same s s' → o s' = .next (s'.raise e)) ∨
  ∃ w, Wrote i s w ∧ ∀ s', Same s s' → o s' = .next (w.apply s').succeed

theorem IntVal.fits_of_nb {M : Nat} {x y : IntVal} (h : x.fits M) (hn : y.nb = x.nb) : y.fits M := by
  unfold IntVal.fits IntVal.width at *; rw [hn]; exact h

theorem fits_of_width {s : State} {n : BitVec 16} {x : IntVal} (h : s.LegalWidth n) (hn : x.nb = n.toNat / 8) :
    x.fits s.maxBits := by
  obtain ⟨h1, h2⟩ := h.div
  have := h.2.2
  unfold IntVal.fits IntVal.width; rw [hn]; omega

theorem ends_error {i : Instr} {s : State} {e : Error} (h : e ∈ mayRaise i) :
    Ends i s (fun s' => s'.finish (.error e)) := .inl ⟨e, h, fun _ _ => rfl⟩

/-- Outcomes that agree wherever the inputs are the same end alike. -/
theorem Ends.congr {i : Instr} {s : State} {o o' : State → Host.Outcome State Fault Refusal}
    (h : Ends i s o) (he : ∀ s', Same s s' → o' s' = o s') : Ends i s o' := by
  rcases h with ⟨e, hm, h⟩ | ⟨w, hw, h⟩
  · exact .inl ⟨e, hm, fun s' hs => (he s' hs).trans (h s' hs)⟩
  · exact .inr ⟨w, hw, fun s' hs => (he s' hs).trans (h s' hs)⟩

theorem two_sources (s : State) (ra rb : Reg) :
    (s.v.get ra = none ∨ s.v.get rb = none) ∨ ∃ a b, s.v.get ra = some a ∧ s.v.get rb = some b := by
  cases s.v.get ra <;> cases s.v.get rb <;> simp

/-- Reading two operands first. -/
theorem ends_operands {i : Instr} {ra rb : Reg} {s : State} (hm : .invalidOperand ∈ mayRaise i)
    {k : State → IntVal × IntVal → Except Error State}
    (h : ∀ a b, s.v.get ra = some a → s.v.get rb = some b →
      Ends i s (fun s' => s'.finish (k s' (a, b.coerce a.nb)))) :
    Ends i s (fun s' => s'.finish (s'.operands ra rb >>= k s')) := by
  rcases two_sources s ra rb with he | ⟨a, b, ha, hb⟩
  · refine (ends_error hm).congr fun s' hs => ?_
    rw [State.operands_of_empty (by rwa [hs.get, hs.get])]; rfl
  · refine (h a b ha hb).congr fun s' hs => ?_
    rw [State.operands_of_some ((hs.get ra).trans ha) ((hs.get rb).trans hb)]; rfl

theorem ends_binary {i : Instr} {op : IntVal → IntVal → IntVal} {rd ra rb : Reg} {s : State} (hd : dests i = [rd])
    (hr : writesRes i = false) (hs : stores s i = none) (hc : i ≠ .clre) (hm : .invalidOperand ∈ mayRaise i)
    (hop : ∀ a b : IntVal, a.nb = b.nb → (op a b).nb = a.nb) :
    Ends i s (fun s' => s'.finish (binaryCommand op rd ra rb s')) :=
  ends_operands hm fun a _ ha _ =>
    .inr ⟨_, .reg rd _ hd hr hs hc fun hf => IntVal.fits_of_nb (hf ra a ha) (hop a _ (by simp)), fun _ _ => rfl⟩

theorem ends_compare {i : Instr} {f : Ordering → Word} {ra rb : Reg} {s : State} (hd : dests i = [])
    (hr : writesRes i = true) (hs : stores s i = none) (hc : i ≠ .clre) (ht : ∀ ra m, i ≠ .toint ra m)
    (hm : .invalidOperand ∈ mayRaise i) : Ends i s (fun s' => s'.finish (compareCommand f ra rb s')) :=
  ends_operands hm fun _ _ _ _ => .inr ⟨_, .res _ hd hr hs hc ht, fun _ _ => rfl⟩

/-- Checking the width first. -/
theorem ends_width {i : Instr} {s : State} {n : BitVec 16} (hm : .invalidWidth ∈ mayRaise i)
    {k : State → Nat → Except Error State}
    (h : s.LegalWidth n → Ends i s (fun s' => s'.finish (k s' (n.toNat / 8)))) :
    Ends i s (fun s' => s'.finish (s'.widthOf n >>= k s')) := by
  by_cases hw : s.LegalWidth n
  · refine (h hw).congr fun s' hs => ?_
    rw [State.widthOf_ok ((hs.legalWidth n).2 hw)]; rfl
  · refine (ends_error hm).congr fun s' hs => ?_
    rw [State.widthOf_bad (mt (hs.legalWidth n).1 hw)]; rfl

/-- Reading the source first. -/
theorem ends_operand {i : Instr} {s : State} {r : Reg} (hm : .invalidOperand ∈ mayRaise i)
    {k : State → IntVal → Except Error State}
    (h : ∀ a, s.v.get r = some a → Ends i s (fun s' => s'.finish (k s' a))) :
    Ends i s (fun s' => s'.finish (s'.operand r >>= k s')) := by
  cases ha : s.v.get r with
  | none =>
    refine (ends_error hm).congr fun s' hs => ?_
    rw [State.operand_of_none ((hs.get r).trans ha)]; rfl
  | some a =>
    refine (h a ha).congr fun s' hs => ?_
    rw [State.operand_of_some ((hs.get r).trans ha)]; rfl

theorem ends_unary {i : Instr} {op : IntVal → IntVal} {rd ra : Reg} {s : State} (hd : dests i = [rd])
    (hr : writesRes i = false) (hs : stores s i = none) (hc : i ≠ .clre) (hm : .invalidOperand ∈ mayRaise i)
    (hop : ∀ a, (op a).nb = a.nb) : Ends i s (fun s' => s'.finish (unaryCommand op rd ra s')) :=
  ends_operand hm fun a ha =>
    .inr ⟨_, .reg rd (op a) hd hr hs hc fun hf => IntVal.fits_of_nb (hf ra a ha) (hop a), fun _ _ => rfl⟩

theorem ends_scalar {i : Instr} {op : IntVal → Word} {ra : Reg} {s : State} (hd : dests i = [])
    (hr : writesRes i = true) (hs : stores s i = none) (hc : i ≠ .clre) (ht : ∀ ra m, i ≠ .toint ra m)
    (hm : .invalidOperand ∈ mayRaise i) : Ends i s (fun s' => s'.finish (scalarCommand op ra s')) :=
  ends_operand hm fun _ _ => .inr ⟨_, .res _ hd hr hs hc ht, fun _ _ => rfl⟩

/-- Checking the radix first. -/
theorem ends_radix {i : Instr} {s : State} {x : BitVec 8} (hm : .radixOutOfRange ∈ mayRaise i)
    {k : State → Nat → Except Error State} (h : LegalRadix x → Ends i s (fun s' => s'.finish (k s' x.toNat))) :
    Ends i s (fun s' => s'.finish (radixOf x >>= k s')) := by
  by_cases hx : LegalRadix x
  · refine (h hx).congr fun s' _ => ?_
    rw [radixOf_ok hx]; rfl
  · refine (ends_error hm).congr fun s' _ => ?_
    rw [radixOf_bad hx]; rfl

/-- Reading BUF first. -/
theorem ends_load {i : Instr} {s : State} {addr : BitVec 16} {n : Nat} (hm : .bufRange ∈ mayRaise i)
    {k : State → List Byte → Except Error State}
    (h : s.InRange addr.toNat n → Ends i s (fun s' => s'.finish (k s' (s.bufBytes addr.toNat n)))) :
    Ends i s (fun s' => s'.finish (s'.load addr n >>= k s')) := by
  by_cases hr : s.InRange addr.toNat n
  · refine (h hr).congr fun s' hs => ?_
    rw [State.load_ok ((hs.inRange _ _).2 hr), hs.bufBytes]; rfl
  · refine (ends_error hm).congr fun s' hs => ?_
    rw [State.load_bad (mt (hs.inRange _ _).1 hr)]; rfl

/-- Storing bytes and counting them. -/
theorem ends_store {i : Instr} {s : State} {addr : BitVec 16} {bs : List Byte} {w : Word}
    (hm : .bufRange ∈ mayRaise i) (hd : dests i = []) (hr : writesRes i = true)
    (hs : stores s i = some (addr.toNat, bs)) (hc : i ≠ .clre) :
    Ends i s (fun s' => s'.finish (s'.store addr bs >>= fun t => pure (t.setRes w))) := by
  by_cases hn : s.InRange addr.toNat bs.length
  · refine .inr ⟨_, .buf _ _ w hd hr hs hc hn, fun s' h => ?_⟩
    dsimp only
    rw [State.store_ok ((h.inRange _ _).2 hn)]; rfl
  · refine (ends_error hm).congr fun s' h => ?_
    rw [State.store_bad (mt (h.inRange _ _).1 hn)]; rfl

/-- Writing a value of the checked width. -/
theorem ends_write {i : Instr} {s : State} {rd : Reg} {n : BitVec 16} {x : IntVal} (hw : s.LegalWidth n)
    (hn : x.nb = n.toNat / 8) (hd : dests i = [rd]) (hr : writesRes i = false) (hs : stores s i = none)
    (hc : i ≠ .clre) : Ends i s (fun s' => s'.finish (pure (s'.setV rd x))) :=
  .inr ⟨_, .reg rd x hd hr hs hc fun _ => fits_of_width hw hn, fun _ _ => rfl⟩

theorem parse_nb {nb : Nat} {u : Bool} {radix : Nat} (h2 : 2 ≤ radix) {t : List Byte} {x : IntVal}
    (h : parse nb u radix t = .ok x) : x.nb = nb := by
  rw [parse_eq nb u h2] at h
  split at h
  · cases h; simp
  · cases h

theorem parse_error {nb : Nat} {u : Bool} {radix : Nat} (h2 : 2 ≤ radix) {t : List Byte} {e : Error}
    (h : parse nb u radix t = .error e) : e = .invalidDigit := by
  rw [parse_eq nb u h2] at h
  split at h
  · cases h
  · cases h; rfl

theorem constant_nb {nb : Nat} (h : 0 < nb) (c : ConstId) : (constant nb c).nb = nb := by
  cases c <;> simp [constant, IntVal.nb, IntVal.fromBytes] <;> omega

theorem ends_ldc (rd : Reg) (n : BitVec 16) (c : ConstId) (s : State) : Ends (.ldc rd n c) s (execLdc rd n c) :=
  ends_width (by simp [mayRaise]) fun hw => ends_write hw (constant_nb hw.div.2 c) rfl rfl rfl nofun

theorem ends_cast (rd ra : Reg) (m : Option Bool) (n : BitVec 16) (s : State) :
    Ends (.cast rd ra m n) s (execCast rd ra m n) :=
  ends_width (by simp [mayRaise]) fun hw => ends_operand (by simp [mayRaise]) fun a _ =>
    ends_write hw (by rw [IntVal.cast_eq]; simp) rfl rfl rfl nofun

theorem ends_fromint (rd : Reg) (u : Bool) (n : BitVec 16) (imm : Word) (s : State) :
    Ends (.fromint rd u n imm) s (execFromint rd u n imm) :=
  ends_width (by simp [mayRaise]) fun hw => ends_write hw (fromMachineInt_nb _ _ _) rfl rfl rfl nofun

theorem ends_toint (ra : Reg) (m : Option Bool) (s : State) : Ends (.toint ra m) s (execToint ra m) :=
  ends_operand (by simp [mayRaise]) fun a ha => .inr ⟨_, .toint ra m a rfl ha, fun _ _ => rfl⟩

theorem ends_fromw (rd : Reg) (u : Bool) (n addr len : BitVec 16) (s : State) :
    Ends (.fromw rd u n addr len) s (execFromw rd u n addr len) :=
  ends_width (by simp [mayRaise]) fun hw => ends_load (by simp [mayRaise]) fun _ =>
    ends_write hw (by simp) rfl rfl rfl nofun

theorem ends_fromb (rd : Reg) (u : Bool) (n addr len : BitVec 16) (s : State) :
    Ends (.fromb rd u n addr len) s (execFromb rd u n addr len) :=
  ends_width (by simp [mayRaise]) fun hw => ends_load (by simp [mayRaise]) fun _ =>
    ends_write hw (by simp) rfl rfl rfl nofun

theorem ends_tow (ra : Reg) (addr : BitVec 16) (s : State) : Ends (.tow ra addr) s (execTow ra addr) :=
  ends_operand (by simp [mayRaise]) fun a ha =>
    ends_store (by simp [mayRaise]) rfl rfl (by simp [stores, ha]) nofun

theorem ends_tob (ra : Reg) (addr : BitVec 16) (s : State) : Ends (.tob ra addr) s (execTob ra addr) :=
  ends_operand (by simp [mayRaise]) fun a ha =>
    ends_store (by simp [mayRaise]) rfl rfl (by simp [stores, ha]) nofun

theorem ends_parse (rd : Reg) (u : Bool) (n : BitVec 16) (radix : BitVec 8) (addr len : BitVec 16) (s : State) :
    Ends (.parse rd u n radix addr len) s (execParse rd u n radix addr len) := by
  refine ends_width (by simp [mayRaise]) fun hw => ends_radix (by simp [mayRaise]) fun hx =>
    ends_load (by simp [mayRaise]) fun _ => ?_
  cases hp : parse (n.toNat / 8) u radix.toNat (s.bufBytes addr.toNat len.toNat) with
  | error e => rw [parse_error hx.1 hp]; exact ends_error (by simp [mayRaise])
  | ok x => exact ends_write hw (parse_nb hx.1 hp) rfl rfl rfl nofun

theorem ends_fmt (ra : Reg) (radix : BitVec 8) (addr : BitVec 16) (s : State) :
    Ends (.fmt ra radix addr) s (execFmt ra radix addr) :=
  ends_operand (by simp [mayRaise]) fun a ha => ends_radix (by simp [mayRaise]) fun _ =>
    ends_store (by simp [mayRaise]) rfl rfl (by simp [stores, ha]) nofun

theorem ends_dbg (ra : Reg) (sp : Bool) (addr : BitVec 16) (s : State) :
    Ends (.dbg ra sp addr) s (execDbg ra sp addr) :=
  ends_operand (by simp [mayRaise]) fun a ha =>
    ends_store (by simp [mayRaise]) rfl rfl (by simp [stores, ha]) nofun

theorem divmod_cases (a b : IntVal) : a.divmod b = .error .divisionByZero ∨
    ∃ q r : IntVal, a.divmod b = .ok (q, r) ∧ q.nb = a.nb ∧ r.nb = a.nb := by
  unfold IntVal.divmod
  split
  · exact .inl rfl
  · exact .inr ⟨_, _, rfl, by simp, by simp⟩

theorem ends_divmod {rd rd2 : Reg} (ra rb : Reg) (s : State) (hne : rd ≠ rd2) :
    Ends (.divmod rd rd2 ra rb) s (execDivmod rd rd2 ra rb) := by
  have he : ∀ s', execDivmod rd rd2 ra rb s' = s'.finish (s'.operands ra rb >>= fun p =>
      p.1.divmod p.2 >>= fun x => pure ((s'.setV rd x.1).setV rd2 x.2)) := by
    intro s'; unfold execDivmod; rw [if_neg hne]
  rw [show execDivmod rd rd2 ra rb = _ from funext he]
  refine ends_operands (by simp [mayRaise]) fun a b ha hb => ?_
  rcases divmod_cases a (b.coerce a.nb) with h | ⟨q, r, h, hq, hr⟩ <;> simp only [h]
  · exact ends_error (by simp [mayRaise])
  · exact .inr ⟨_, .regs rd rd2 q r rfl rfl rfl nofun fun hf =>
      ⟨IntVal.fits_of_nb (hf ra a ha) hq, IntVal.fits_of_nb (hf ra a ha) hr⟩, fun _ _ => rfl⟩

theorem ends_div (rd ra rb : Reg) (s : State) : Ends (.div rd ra rb) s (execDiv rd ra rb) := by
  refine ends_operands (by simp [mayRaise]) fun a b ha hb => ?_
  rcases divmod_cases a (b.coerce a.nb) with h | ⟨q, r, h, hq, hr⟩ <;> simp only [h]
  · exact ends_error (by simp [mayRaise])
  · exact .inr ⟨_, .reg rd q rfl rfl rfl nofun fun hf => IntVal.fits_of_nb (hf ra a ha) hq, fun _ _ => rfl⟩

theorem ends_mod (rd ra rb : Reg) (s : State) : Ends (.mod rd ra rb) s (execMod rd ra rb) := by
  refine ends_operands (by simp [mayRaise]) fun a b ha hb => ?_
  rcases divmod_cases a (b.coerce a.nb) with h | ⟨q, r, h, hq, hr⟩ <;> simp only [h]
  · exact ends_error (by simp [mayRaise])
  · exact .inr ⟨_, .reg rd r rfl rfl rfl nofun fun hf => IntVal.fits_of_nb (hf ra a ha) hr, fun _ _ => rfl⟩

/-- What executing a well-formed command can do. -/
theorem exec_ends (i : Instr) (s : State) (h : i.wellFormed = true) : Ends i s (exec i) := by
  have m : ∀ {e : Error}, e ∈ [e] := by simp
  cases i with
  | ldc rd n c => exact ends_ldc rd n c s
  | cast rd ra m n => exact ends_cast rd ra m n s
  | cmp ra rb => exact ends_compare rfl rfl rfl nofun nofun m
  | eq ra rb => exact ends_compare rfl rfl rfl nofun nofun m
  | ne ra rb => exact ends_compare rfl rfl rfl nofun nofun m
  | lt ra rb => exact ends_compare rfl rfl rfl nofun nofun m
  | le ra rb => exact ends_compare rfl rfl rfl nofun nofun m
  | gt ra rb => exact ends_compare rfl rfl rfl nofun nofun m
  | ge ra rb => exact ends_compare rfl rfl rfl nofun nofun m
  | not rd ra => exact ends_unary rfl rfl rfl nofun m (by simp)
  | and rd ra rb => exact ends_binary rfl rfl rfl nofun m fun _ _ => IntVal.and_nb
  | or rd ra rb => exact ends_binary rfl rfl rfl nofun m fun _ _ => IntVal.or_nb
  | xor rd ra rb => exact ends_binary rfl rfl rfl nofun m fun _ _ => IntVal.xor_nb
  | shl rd ra k => exact ends_unary rfl rfl rfl nofun m (by simp)
  | shr rd ra k => exact ends_unary rfl rfl rfl nofun m (by simp)
  | shru rd ra k => exact ends_unary rfl rfl rfl nofun m (by simp)
  | isset ra k => exact ends_scalar rfl rfl rfl nofun nofun m
  | setbit rd ra bv k => exact ends_unary rfl rfl rfl nofun m (by simp)
  | bitlen ra => exact ends_scalar rfl rfl rfl nofun nofun m
  | add rd ra rb => exact ends_binary rfl rfl rfl nofun m (by simp)
  | neg rd ra => exact ends_unary rfl rfl rfl nofun m (by simp)
  | sub rd ra rb => exact ends_binary rfl rfl rfl nofun m (by simp)
  | abs rd ra => exact ends_unary rfl rfl rfl nofun m (by simp)
  | mul rd ra rb => exact ends_binary rfl rfl rfl nofun m (by simp)
  | divmod rd rd2 ra rb => exact ends_divmod ra rb s (by simpa [Instr.wellFormed] using h)
  | div rd ra rb => exact ends_div rd ra rb s
  | mod rd ra rb => exact ends_mod rd ra rb s
  | fromint rd u n imm => exact ends_fromint rd u n imm s
  | toint ra m => exact ends_toint ra m s
  | fromw rd u n addr len => exact ends_fromw rd u n addr len s
  | tow ra addr => exact ends_tow ra addr s
  | fromb rd u n addr len => exact ends_fromb rd u n addr len s
  | tob ra addr => exact ends_tob ra addr s
  | parse rd u n radix addr len => exact ends_parse rd u n radix addr len s
  | fmt ra radix addr => exact ends_fmt ra radix addr s
  | dbg ra sp addr => exact ends_dbg ra sp addr s
  | clre => exact .inr ⟨_, .clre rfl, fun _ _ => rfl⟩

/-- A `DIVMOD` with equal destinations raises `IllegalCommand` (log 12). -/
theorem exec_illformed (i : Instr) (s : State) (h : i.wellFormed = false) : exec i s = .next (s.raise .illegalCommand) := by
  cases i with
  | divmod rd rd2 ra rb =>
    have : rd = rd2 := by simpa [Instr.wellFormed] using h
    show execDivmod _ _ _ _ _ = _
    unfold execDivmod
    rw [if_pos this]; rfl
  | _ => exact absurd h (by simp [Instr.wellFormed])

/-- What executing any term can do from `s`, and alike from every state with the same inputs. -/
theorem exec_uniform (i : Instr) (s : State) :
    (∃ e, ∀ s', Same s s' → exec i s' = .next (s'.raise e)) ∨
    ∃ w, Wrote i s w ∧ ∀ s', Same s s' → exec i s' = .next (w.apply s').succeed := by
  cases h : i.wellFormed with
  | true =>
    rcases exec_ends i s h with ⟨e, -, he⟩ | h
    · exact .inl ⟨e, he⟩
    · exact .inr h
  | false => exact .inl ⟨_, fun s' _ => exec_illformed i s' h⟩

/-- What executing any term can do: an error and nothing else, or the writes of a command. -/
theorem exec_cases (i : Instr) (s : State) :
    (∃ e, exec i s = .next (s.raise e)) ∨ ∃ w, Wrote i s w ∧ exec i s = .next (w.apply s).succeed := by
  rcases exec_uniform i s with ⟨e, h⟩ | ⟨w, hw, h⟩
  · exact .inl ⟨e, h s (.refl s)⟩
  · exact .inr ⟨w, hw, h s (.refl s)⟩

/-- `DIVMOD` of two values, by what the division function gives. -/
theorem exec_divmod_of {s : State} {rd rd2 ra rb : Reg} {a b : IntVal} (hne : rd ≠ rd2) (ha : s.v.get ra = some a)
    (hb : s.v.get rb = some b) : exec (.divmod rd rd2 ra rb) s =
      s.finish ((a.divmod (b.coerce a.nb)).map fun x => (s.setV rd x.1).setV rd2 x.2) := by
  show execDivmod _ _ _ _ _ = _
  unfold execDivmod
  rw [if_neg hne, State.operands_of_some ha hb]
  simp only [bind, Except.bind]
  cases a.divmod (b.coerce a.nb) <;> rfl

/-- `DIV` of two values, by what the division function gives. -/
theorem exec_div_of {s : State} {rd ra rb : Reg} {a b : IntVal} (ha : s.v.get ra = some a)
    (hb : s.v.get rb = some b) : exec (.div rd ra rb) s =
      s.finish ((a.divmod (b.coerce a.nb)).map fun x => s.setV rd x.1) := by
  show execDiv _ _ _ _ = _
  unfold execDiv
  rw [State.operands_of_some ha hb]
  simp only [bind, Except.bind]
  cases a.divmod (b.coerce a.nb) <;> rfl

/-- `MOD` of two values, by what the division function gives. -/
theorem exec_mod_of {s : State} {rd ra rb : Reg} {a b : IntVal} (ha : s.v.get ra = some a)
    (hb : s.v.get rb = some b) : exec (.mod rd ra rb) s =
      s.finish ((a.divmod (b.coerce a.nb)).map fun x => s.setV rd x.2) := by
  show execMod _ _ _ _ = _
  unfold execMod
  rw [State.operands_of_some ha hb]
  simp only [bind, Except.bind]
  cases a.divmod (b.coerce a.nb) <;> rfl

/-- The end of a command that stored bytes leaves BUF as the store did. -/
theorem State.bufBytes_done (s : State) (w : Word) (a n : Nat) :
    (s.setRes w).succeed.bufBytes a n = s.bufBytes a n := rfl

end Sys2Proof.Machine
end

