-- ==== Sys2Proof/Laws/PerInstr.lean ====
section
/-!
SUPPORT. Per command: the fields of its descriptor decode to it, whatever its operands (30_encoding R71 to R74, R80).
-/
namespace Sys2Proof.Laws.FieldRoundTrip
open Sys2Proof

/-- Decoding the fields of the command gives the command. -/
def Statement (i : Instr) : Prop := i.wellFormed = true → decodeFields (encodeFields i) = .ok i

theorem ldc (rd : Reg) (nbits : BitVec 16) (c : ConstId) : Statement (.ldc rd nbits c) := fun _ =>
  (Fields.checked_eq rfl rfl rfl).trans (by rw [show (encodeFields (.ldc rd nbits c)).imm = c.imm from rfl, decodeConst_imm]; rfl)
theorem cast (rd ra : Reg) (mode : Option Bool) (nbits : BitVec 16) : Statement (.cast rd ra mode nbits) := fun _ => by
  rcases mode with _ | _ | _ <;> exact Fields.checked_eq rfl rfl rfl
theorem cmp (ra rb : Reg) : Statement (.cmp ra rb) :=
  fun _ => Fields.checked_eq rfl rfl rfl
theorem eq (ra rb : Reg) : Statement (.eq ra rb) :=
  fun _ => Fields.checked_eq rfl rfl rfl
theorem ne (ra rb : Reg) : Statement (.ne ra rb) :=
  fun _ => Fields.checked_eq rfl rfl rfl
theorem lt (ra rb : Reg) : Statement (.lt ra rb) :=
  fun _ => Fields.checked_eq rfl rfl rfl
theorem le (ra rb : Reg) : Statement (.le ra rb) :=
  fun _ => Fields.checked_eq rfl rfl rfl
theorem gt (ra rb : Reg) : Statement (.gt ra rb) :=
  fun _ => Fields.checked_eq rfl rfl rfl
theorem ge (ra rb : Reg) : Statement (.ge ra rb) :=
  fun _ => Fields.checked_eq rfl rfl rfl
theorem not (rd ra : Reg) : Statement (.not rd ra) :=
  fun _ => Fields.checked_eq rfl rfl rfl
theorem and (rd ra rb : Reg) : Statement (.and rd ra rb) :=
  fun _ => Fields.checked_eq rfl rfl rfl
theorem or (rd ra rb : Reg) : Statement (.or rd ra rb) :=
  fun _ => Fields.checked_eq rfl rfl rfl
theorem xor (rd ra rb : Reg) : Statement (.xor rd ra rb) :=
  fun _ => Fields.checked_eq rfl rfl rfl
theorem shl (rd ra : Reg) (k : Word) : Statement (.shl rd ra k) :=
  fun _ => Fields.checked_eq rfl rfl rfl
theorem shr (rd ra : Reg) (k : Word) : Statement (.shr rd ra k) :=
  fun _ => Fields.checked_eq rfl rfl rfl
theorem shru (rd ra : Reg) (k : Word) : Statement (.shru rd ra k) :=
  fun _ => Fields.checked_eq rfl rfl rfl
theorem isset (ra : Reg) (i : Word) : Statement (.isset ra i) :=
  fun _ => Fields.checked_eq rfl rfl rfl
theorem setbit (rd ra : Reg) (bv : Bool) (i : Word) : Statement (.setbit rd ra bv i) :=
  fun _ => Fields.checked_eq rfl rfl rfl
theorem bitlen (ra : Reg) : Statement (.bitlen ra) :=
  fun _ => Fields.checked_eq rfl rfl rfl
theorem add (rd ra rb : Reg) : Statement (.add rd ra rb) :=
  fun _ => Fields.checked_eq rfl rfl rfl
theorem neg (rd ra : Reg) : Statement (.neg rd ra) :=
  fun _ => Fields.checked_eq rfl rfl rfl
theorem sub (rd ra rb : Reg) : Statement (.sub rd ra rb) :=
  fun _ => Fields.checked_eq rfl rfl rfl
theorem abs (rd ra : Reg) : Statement (.abs rd ra) :=
  fun _ => Fields.checked_eq rfl rfl rfl
theorem mul (rd ra rb : Reg) : Statement (.mul rd ra rb) :=
  fun _ => Fields.checked_eq rfl rfl rfl
theorem divmod (rd rd2 ra rb : Reg) : Statement (.divmod rd rd2 ra rb) := fun h => by
  have h' : rd ≠ rd2 := by simpa [Instr.wellFormed] using h
  exact (Fields.checked_eq rfl rfl rfl).trans (if_neg h')
theorem div (rd ra rb : Reg) : Statement (.div rd ra rb) :=
  fun _ => Fields.checked_eq rfl rfl rfl
theorem mod (rd ra rb : Reg) : Statement (.mod rd ra rb) :=
  fun _ => Fields.checked_eq rfl rfl rfl
theorem fromint (rd : Reg) (u : Bool) (nbits : BitVec 16) (imm : Word) : Statement (.fromint rd u nbits imm) :=
  fun _ => Fields.checked_eq rfl rfl rfl
theorem toint (ra : Reg) (mode : Option Bool) : Statement (.toint ra mode) := fun _ => by
  rcases mode with _ | _ | _ <;> exact Fields.checked_eq rfl rfl rfl
theorem fromw (rd : Reg) (u : Bool) (nbits addr len : BitVec 16) : Statement (.fromw rd u nbits addr len) :=
  fun _ => Fields.checked_eq rfl rfl rfl
theorem tow (ra : Reg) (addr : BitVec 16) : Statement (.tow ra addr) :=
  fun _ => Fields.checked_eq rfl rfl rfl
theorem fromb (rd : Reg) (u : Bool) (nbits addr len : BitVec 16) : Statement (.fromb rd u nbits addr len) :=
  fun _ => Fields.checked_eq rfl rfl rfl
theorem tob (ra : Reg) (addr : BitVec 16) : Statement (.tob ra addr) :=
  fun _ => Fields.checked_eq rfl rfl rfl
theorem parse (rd : Reg) (u : Bool) (nbits : BitVec 16) (radix : BitVec 8) (addr len : BitVec 16) : Statement (.parse rd u nbits radix addr len) :=
  fun _ => Fields.checked_eq rfl rfl rfl
theorem fmt (ra : Reg) (radix : BitVec 8) (addr : BitVec 16) : Statement (.fmt ra radix addr) :=
  fun _ => Fields.checked_eq rfl rfl rfl
theorem dbg (ra : Reg) (sp : Bool) (addr : BitVec 16) : Statement (.dbg ra sp addr) :=
  fun _ => Fields.checked_eq rfl rfl rfl
theorem clre : Statement .clre :=
  fun _ => Fields.checked_eq rfl rfl rfl

end Sys2Proof.Laws.FieldRoundTrip
end

