-- ==== Sys2Proof/Tests/Slice0.lean ====
section
/-!
SUPPORT. The model's own tests. Every expected result is copied from the tables of spec/95_test_vectors.md (the id of
the vector stands in the comment), from the encoding rules R71 and R74, or worked out by hand from the rule named. The
theorems `witness_...` show, for each obligation with hypotheses, a state and operands that meet them together.
-/
namespace Sys2Proof.Tests
open Machine

/-- A signed value. -/
def sv (bs : List Byte) : IntVal := ⟨bs, false⟩

/-- An unsigned value. -/
def uv (bs : List Byte) : IntVal := ⟨bs, true⟩

/-- The state after reset with `a` in V0. -/
def st1 (a : IntVal) : State := State.reset.setV 0 a

/-- The state after reset with `a` in V0 and `b` in V1. -/
def st2 (a b : IntVal) : State := (st1 a).setV 1 b

/-- The state after reset with `bs` in BUF from address 0. -/
def stB (bs : List Byte) : State := State.reset.setBuf 0 bs

/-- V2 after a command. -/
def v2 (i : Instr) (s : State) : Option IntVal := match exec i s with | .next t => t.v.get 2 | _ => none

/-- V2 and V3 after a command. -/
def v23 (i : Instr) (s : State) : Option IntVal × Option IntVal :=
  match exec i s with | .next t => (t.v.get 2, t.v.get 3) | _ => (none, none)

/-- RES after a command. -/
def res (i : Instr) (s : State) : Option Word := match exec i s with | .next t => some t.res | _ => none

/-- STATUS after a command. -/
def stat (i : Instr) (s : State) : Option Word := match exec i s with | .next t => some t.status.word | _ => none

/-- The first `n` bytes of BUF from `a`, and RES, after a command. -/
def bufRes (i : Instr) (s : State) (a n : Nat) : Option (List Byte × Word) :=
  match exec i s with | .next t => some (t.bufBytes a n, t.res) | _ => none

/-! ### Well-formed terms (R80) -/

/-- R80 condition (6): the one ill-formed shape is refused. -/
theorem test_wellFormed_refuses_same_destinations :
    (Instr.divmod 1 1 0 0).wellFormed = false ∧ (Instr.divmod 0 0 0 0).wellFormed = false := by decide

theorem test_wellFormed_accepts_distinct_destinations : (Instr.divmod 1 0 1 0).wellFormed = true := by decide

/-! ### Descriptors written out from R71 and R74 (those of part 3 of the vectors among them) -/

theorem test_decode_ldc : decode 0x00000000000000020000000800000001 = .ok (.ldc 0 8 .one) := by decide

theorem test_decode_cast : decode 0x00000000000000000000001006000502 = .ok (.cast 5 0 (some true) 16) := by decide

theorem test_decode_cast_inherits : decode 0x00000000000000000000001000000302 = .ok (.cast 3 0 none 16) := by decide

theorem test_decode_cmp : decode 0x00000000000000000000000000030010 = .ok (.cmp 3 0) := by decide

theorem test_decode_eq : decode 0x00000000000000000000000000040011 = .ok (.eq 4 0) := by decide

theorem test_decode_ne : decode 0x000000000000000000000000002f0012 = .ok (.ne 15 2) := by decide

theorem test_decode_lt : decode 0x00000000000000000000000000530013 = .ok (.lt 3 5) := by decide

theorem test_decode_le : decode 0x00000000000000000000000000f10014 = .ok (.le 1 15) := by decide

theorem test_decode_gt : decode 0x00000000000000000000000000120015 = .ok (.gt 2 1) := by decide

theorem test_decode_ge : decode 0x00000000000000000000000000980016 = .ok (.ge 8 9) := by decide

theorem test_decode_not : decode 0x00000000000000000000000000060620 = .ok (.not 6 6) := by decide

theorem test_decode_and : decode 0x00000000000000000000000000210721 = .ok (.and 7 1 2) := by decide

theorem test_decode_or : decode 0x000000000000000000000000003e0d22 = .ok (.or 13 14 3) := by decide

theorem test_decode_xor : decode 0x00000000000000000000000000530623 = .ok (.xor 6 3 5) := by decide

theorem test_decode_shl : decode 0x000000000000001f0000000000000124 = .ok (.shl 1 0 31) := by decide

theorem test_decode_shr : decode 0x000000000000003c0000000000020325 = .ok (.shr 3 2 60) := by decide

theorem test_decode_shru : decode 0x000000000000003c0000000000020426 = .ok (.shru 4 2 60) := by decide

theorem test_decode_isset : decode 0x000000000000003e0000000000010027 = .ok (.isset 1 62) := by decide

theorem test_decode_setbit : decode 0x00000000000000400000000008040528 = .ok (.setbit 5 4 true 64) := by decide

theorem test_decode_bitlen : decode 0x00000000000000000000000000000029 = .ok (.bitlen 0) := by decide

theorem test_decode_add : decode 0x00000000000000000000000000100230 = .ok (.add 2 0 1) := by decide

theorem test_decode_neg : decode 0x00000000000000000000000000050a31 = .ok (.neg 10 5) := by decide

theorem test_decode_sub : decode 0x00000000000000000000000000c60b32 = .ok (.sub 11 6 12) := by decide

theorem test_decode_abs : decode 0x000000000000000000000000000f0033 = .ok (.abs 0 15) := by decide

theorem test_decode_mul : decode 0x00000000000000000000000000120434 = .ok (.mul 4 2 1) := by decide

theorem test_decode_divmod : decode 0x00000000000000000000000000103235 = .ok (.divmod 2 3 0 1) := by decide

theorem test_decode_div : decode 0x00000000000000000000000000100236 = .ok (.div 2 0 1) := by decide

theorem test_decode_mod : decode 0x00000000000000000000000000450937 = .ok (.mod 9 5 4) := by decide

theorem test_decode_fromint : decode 0x000000007fffffff0000002000000040 = .ok (.fromint 0 false 32 0x7fffffff) := by decide

theorem test_decode_toint : decode 0x00000000000000000000000006060041 = .ok (.toint 6 (some true)) := by decide

theorem test_decode_fromw : decode 0x00020080000000000000004001000042 = .ok (.fromw 0 true 64 0x80 2) := by decide

theorem test_decode_tow : decode 0x00000040000000000000000000020043 = .ok (.tow 2 0x40) := by decide

theorem test_decode_fromb : decode 0x0011fff0000000000000000801000444 = .ok (.fromb 4 true 8 0xfff0 17) := by decide

theorem test_decode_tob : decode 0x00000048000000000000000000050045 = .ok (.tob 5 0x48) := by decide

theorem test_decode_parse : decode 0x0005000000000000000a001000000050 = .ok (.parse 0 false 16 10 0 5) := by decide

theorem test_decode_fmt : decode 0x0000010000000000000a000000020051 = .ok (.fmt 2 10 0x100) := by decide

theorem test_decode_dbg : decode 0x0000ffe0000000000000000010030052 = .ok (.dbg 3 true 0xffe0) := by decide

theorem test_decode_clre : decode 0x0000000000000000000000000000007f = .ok (.clre) := by decide

/-! ### Illegal descriptors: V60-1 to V60-10, one for each condition of R80 -/

theorem test_illegal_opcode_0 : decode 0x00000000000000000000000000000000 = .error .unassignedOpcode := by decide

theorem test_illegal_opcode_3 : decode 0x00000000000000000000000000000003 = .error .unassignedOpcode := by decide

theorem test_illegal_unused_nbits : decode 0x00000000000000000000000800000030 = .error .unusedField := by decide

theorem test_illegal_reserved_29 : decode 0x0000000000000000000000002000007f = .error .reservedBit := by decide

theorem test_illegal_reserved_56 : decode 0x0000000000000000010000000000007f = .error .reservedBit := by decide

theorem test_illegal_unused_rd : decode 0x00000000000000000000000000000127 = .error .unusedField := by decide

theorem test_illegal_override : decode 0x00000000000000000000000804000002 = .error .badOverride := by decide

theorem test_illegal_const_id : decode 0x00000000000000080000000800000001 = .error .badConstId := by decide

theorem test_illegal_same_destinations : decode 0x00000000000000000000000000001135 = .error .sameDestinations := by decide

/-! ### One or two results for each command -/

/-- V41-13 -/
theorem test_ldc_min_value : v2 (.ldc 2 16 .minValue) State.reset = some (sv [0x00, 0x80]) := by decide

/-- V41-7 -/
theorem test_ldc_max_unsigned_value : v2 (.ldc 2 8 .maxUnsignedValue) State.reset = some (uv [0xff]) := by decide

/-- V41-20 -/
theorem test_cast_widens_by_source_sign : v2 (.cast 2 0 (some true) 16) (st1 (sv [0xff])) = some (uv [0xff, 0xff]) := by decide

/-- V41-22 -/
theorem test_cast_unsigned_source : v2 (.cast 2 0 (some false) 16) (st1 (uv [0xff])) = some (sv [0xff, 0x00]) := by decide

/-- V42-3 -/
theorem test_cmp_flags_differ : res (.cmp 0 1) (st2 (sv [0xff]) (uv [0xff])) = some 0xffffffff := by decide

/-- V42-10 -/
theorem test_cmp_zero_pads : res (.cmp 0 1) (st2 (sv [0x01, 0x00]) (sv [0xff])) = some 0xffffffff := by decide

/-- V42-5 -/
theorem test_eq_by_compare : res (.eq 0 1) (st2 (sv [0x7f]) (uv [0x7f])) = some 1 := by decide

/-- V42-3 -/
theorem test_ne_flags_differ : res (.ne 0 1) (st2 (sv [0xff]) (uv [0xff])) = some 1 := by decide

/-- V42-6 -/
theorem test_lt_most_significant_first : res (.lt 0 1) (st2 (sv [0x00, 0x01]) (sv [0xff, 0x00])) = some 0 := by decide

/-- V42-8 -/
theorem test_lt_both_negative : res (.lt 0 1) (st2 (sv [0xfe]) (sv [0xff])) = some 1 := by decide

/-- V42-11 -/
theorem test_le_equal_after_truncation : res (.le 0 1) (st2 (sv [0x01]) (sv [0x01, 0x01])) = some 1 := by decide

/-- V42-9 -/
theorem test_gt_unsigned : res (.gt 0 1) (st2 (uv [0x00, 0x80]) (uv [0xff, 0x7f])) = some 1 := by decide

/-- V42-5 -/
theorem test_gt_equal : res (.gt 0 1) (st2 (sv [0x7f]) (uv [0x7f])) = some 0 := by decide

/-- V42-7 -/
theorem test_ge_negative : res (.ge 0 1) (st2 (sv [0x80]) (sv [0x7f])) = some 0 := by decide

/-- V43-1 -/
theorem test_not : v2 (.not 2 0) (st1 (sv [0xf1, 0x80])) = some (sv [0x0e, 0x7f]) := by decide

/-- V43-5 -/
theorem test_and_zero_pads : v2 (.and 2 0 1) (st2 (sv [0xff, 0xff]) (sv [0xff])) = some (sv [0xff, 0x00]) := by decide

/-- V43-6 -/
theorem test_or_truncates : v2 (.or 2 0 1) (st2 (uv [0x00]) (sv [0x34, 0x12])) = some (uv [0x34]) := by decide

/-- V43-4 -/
theorem test_xor : v2 (.xor 2 0 1) (st2 (sv [0xf1, 0x80]) (sv [0xf0, 0x0f])) = some (sv [0x01, 0x8f]) := by decide

/-- V43-13 -/
theorem test_shl_spills : v2 (.shl 2 0 4) (st1 (sv [0xff, 0x00])) = some (sv [0xf0, 0x0f]) := by decide

/-- V43-15 -/
theorem test_shl_reduces_the_count : v2 (.shl 2 0 0xffffffff) (st1 (sv [0x01, 0x00, 0x00])) = some (sv [0x00, 0x80, 0x00]) := by decide

/-- V43-16 -/
theorem test_shr_negative : v2 (.shr 2 0 1) (st1 (sv [0x01, 0x80])) = some (sv [0x00, 0xc0]) := by decide

/-- V43-18 -/
theorem test_shr_unsigned : v2 (.shr 2 0 1) (st1 (uv [0x01, 0x80])) = some (uv [0x00, 0x40]) := by decide

/-- V43-33 -/
theorem test_shru_negative : v2 (.shru 2 0 12) (st1 (sv [0x00, 0xff, 0xff, 0xff])) = some (sv [0xff, 0xff, 0x0f, 0x00]) := by decide

/-- V43-29 -/
theorem test_shru_reduces_the_count : v2 (.shru 2 0 20) (st1 (sv [0x01, 0x80])) = some (sv [0x00, 0x08]) := by decide

/-- V43-36 -/
theorem test_isset_top_bit : res (.isset 0 15) (st1 (sv [0x01, 0x80])) = some 1 := by decide

/-- V43-37 -/
theorem test_isset_beyond_the_width : res (.isset 0 16) (st1 (sv [0x01, 0x80])) = some 0 := by decide

/-- V43-41 -/
theorem test_setbit_clears : v2 (.setbit 2 0 false 15) (st1 (sv [0x01, 0x80])) = some (sv [0x01, 0x00]) := by decide

/-- V43-44 -/
theorem test_setbit_beyond_the_width : v2 (.setbit 2 0 true 16) (st1 (sv [0x01, 0x80])) = some (sv [0x01, 0x80]) := by decide

/-- V43-45 -/
theorem test_bitlen_zero : res (.bitlen 0) (st1 (sv [0x00, 0x00])) = some 0 := by decide

/-- V43-48 -/
theorem test_bitlen_second_byte : res (.bitlen 0) (st1 (sv [0x00, 0x01])) = some 9 := by decide

/-- V44-1 -/
theorem test_add_wraps : v2 (.add 2 0 1) (st2 (sv [0x7f]) (sv [0x01])) = some (sv [0x80]) := by decide

/-- V44-5 -/
theorem test_add_zero_pads : v2 (.add 2 0 1) (st2 (sv [0x2c, 0x01]) (sv [0xff])) = some (sv [0x2b, 0x02]) := by decide

/-- V44-16 -/
theorem test_neg_min_value : v2 (.neg 2 0) (st1 (sv [0x80])) = some (sv [0x80]) := by decide

/-- V44-18 -/
theorem test_neg_unsigned : v2 (.neg 2 0) (st1 (uv [0x05])) = some (uv [0xfb]) := by decide

/-- V44-7 -/
theorem test_sub_takes_the_receivers_flag : v2 (.sub 2 0 1) (st2 (uv [0x0a]) (sv [0xfd])) = some (uv [0x0d]) := by decide

/-- V44-5 -/
theorem test_sub_zero_pads : v2 (.sub 2 0 1) (st2 (sv [0x2c, 0x01]) (sv [0xff])) = some (sv [0x2d, 0x00]) := by decide

/-- V44-16 -/
theorem test_abs_min_value : v2 (.abs 2 0) (st1 (sv [0x80])) = some (uv [0x80]) := by decide

/-- V44-15 -/
theorem test_abs_negative : v2 (.abs 2 0) (st1 (sv [0xfb])) = some (uv [0x05]) := by decide

/-- V44-4 -/
theorem test_mul_wraps : v2 (.mul 2 0 1) (st2 (sv [0xe8, 0x03]) (sv [0x18, 0xfc])) = some (sv [0xc0, 0xbd]) := by decide

/-- V44-8 -/
theorem test_mul_mixed : v2 (.mul 2 0 1) (st2 (sv [0xfd]) (uv [0x0a])) = some (sv [0xe2]) := by decide

/-- V44-23 -/
theorem test_divmod_truncates : v23 (.divmod 2 3 0 1) (st2 (sv [0xf9]) (sv [0x02])) = (some (sv [0xfd]), some (sv [0xff])) := by decide

/-- V44-34 -/
theorem test_divmod_mixed : v23 (.divmod 2 3 0 1) (st2 (uv [0x0a]) (sv [0xfd])) = (some (uv [0xfd]), some (uv [0x01])) := by decide

/-- V44-26 -/
theorem test_div_min_value_by_minus_one : v2 (.div 2 0 1) (st2 (sv [0x80]) (sv [0xff])) = some (sv [0x80]) := by decide

/-- V44-46 -/
theorem test_div_by_zero_after_coercion : stat (.div 2 0 1) (st2 (sv [0x05]) (sv [0x00, 0x01])) = some 0x16 := by decide

/-- V44-35 -/
theorem test_mod_takes_the_dividends_sign : v2 (.mod 2 0 1) (st2 (sv [0xf6]) (uv [0xfd])) = some (sv [0xf6]) := by decide

/-- V44-43 -/
theorem test_mod_zero_by_zero : stat (.mod 2 0 1) (st2 (sv [0x00]) (sv [0x00])) = some 0x16 := by decide

/-- V45-12 -/
theorem test_fromint_sign_extends : v2 (.fromint 2 false 64 0x80000000) State.reset =
    some (sv [0x00, 0x00, 0x00, 0x80, 0xff, 0xff, 0xff, 0xff]) := by decide

/-- V45-3 -/
theorem test_fromint_truncates : v2 (.fromint 2 false 8 0x00001234) State.reset = some (sv [0x34]) := by decide

/-- V45-14 -/
theorem test_toint_sign_extends : res (.toint 0 none) (st1 (sv [0xff])) = some 0xffffffff := by decide

/-- V45-25: RU is 1, no clamping -/
theorem test_toint_override : stat (.toint 0 (some true)) (st1 (sv [0xff])) = some 0x20 := by decide

/-- V45-36 -/
theorem test_fromw_drops_the_high_half : v2 (.fromw 2 false 48 0 2)
    (stB [0x78, 0x56, 0x34, 0x12, 0xf0, 0xde, 0xbc, 0x9a, 0x01, 0x02, 0x03, 0x04]) =
    some (sv [0x78, 0x56, 0x34, 0x12, 0xf0, 0xde]) := by decide

/-- V45-40 -/
theorem test_fromw_no_words : v2 (.fromw 2 true 8 0 0) State.reset = some (uv [0x00]) := by decide

/-- V45-27 -/
theorem test_tow_pads_with_zero : bufRes (.tow 0 0x40) (st1 (sv [0xff])) 0x40 4 = some ([0xff, 0x00, 0x00, 0x00], 1) := by decide

/-- V45-26 -/
theorem test_tow_two_words : bufRes (.tow 0 0) (st1 (sv [0xff, 0xff, 0xff, 0xff, 0xff, 0x7f])) 0 8 =
    some ([0xff, 0xff, 0xff, 0xff, 0xff, 0x7f, 0x00, 0x00], 2) := by decide

/-- V45-44 -/
theorem test_fromb_zero_pads : v2 (.fromb 2 true 16 4 1)
    (stB [0x78, 0x56, 0x34, 0x12, 0xf0, 0xde, 0xbc, 0x9a, 0x01, 0x02, 0x03, 0x04]) = some (uv [0xf0, 0x00]) := by decide

/-- V60-32 -/
theorem test_fromb_checks_the_whole_range : stat (.fromb 4 true 8 0xfff0 17) State.reset = some 0x15 := by decide

/-- V45-48 -/
theorem test_tob : bufRes (.tob 0 0x20) (st1 (sv [0x00, 0x80])) 0x20 2 = some ([0x00, 0x80], 2) := by decide

/-- V60-29: the last byte of BUF is usable -/
theorem test_tob_last_address : stat (.tob 0 0xffff) (st1 (sv [0x00])) = some 0 := by decide

/-- V46-7: the text -128 -/
theorem test_parse_min_value : v2 (.parse 2 false 8 10 0 4) (stB [0x2d, 0x31, 0x32, 0x38]) = some (sv [0x80]) := by decide

/-- V46-22: the text infinity -/
theorem test_parse_not_infinity : stat (.parse 2 false 32 10 0 8)
    (stB [0x69, 0x6e, 0x66, 0x69, 0x6e, 0x69, 0x74, 0x79]) = some 0x17 := by decide

/-- V46-48: the text -3k -/
theorem test_fmt_radix_36 : bufRes (.fmt 0 36 0x10) (st1 (sv [0x80])) 0x10 3 = some ([0x2d, 0x33, 0x6b], 3) := by decide

/-- V46-41: the text -1 -/
theorem test_fmt_minus_one : bufRes (.fmt 0 10 0) (st1 (sv [0xff, 0xff, 0xff, 0xff])) 0 2 = some ([0x2d, 0x31], 2) := by decide

/-- V46-67: the text 10100101 U -/
theorem test_dbg_marker : bufRes (.dbg 0 true 0) (st1 (uv [0xa5])) 0 10 =
    some ([0x31, 0x30, 0x31, 0x30, 0x30, 0x31, 0x30, 0x31, 0x20, 0x55], 10) := by decide

/-- V46-68 without sp: no marker -/
theorem test_dbg_signed : bufRes (.dbg 0 false 0) (st1 (sv [0xa5])) 0 8 =
    some ([0x31, 0x30, 0x31, 0x30, 0x30, 0x31, 0x30, 0x31], 8) := by decide

/-- V60-39 -/
theorem test_clre_keeps_ru : stat .clre { State.reset with status := ⟨3, true, true⟩ } = some 0x20 := by decide

/-! ### Assembler lines (R85, R86) -/

theorem test_assembler_line :
    Assembler.line "  parse v1, 8, s, 10, 0xffff, 0 ; a comment".toList = some (.parse 1 false 8 10 0xffff 0) := by decide

theorem test_assembler_refuses_a_large_field : Assembler.line "FMT v0, 256, 0".toList = none := by decide

/-! ### Witnesses: the hypotheses of the obligations can be met

`witness_<Obligation>` meets the hypotheses of that obligation; where several obligations ask the same of a state (a
source register that holds a value), one theorem serves them all and says which. -/

/-- For DecodeOfEncode and FirstErrorIsReported. -/
theorem witness_wellFormed : (Instr.parse 15 true 0xffff 0xff 0xffff 0xffff).wellFormed = true ∧
    (Instr.divmod 15 14 15 15).wellFormed = true := by decide

theorem witness_EncodeOfDecode : decode 0x0011fff0000000000000000801000444 = .ok (.fromb 4 true 8 0xfff0 17) := by decide

/-- Opcode 0, and a `DIVMOD` with `rd = rd2`. -/
theorem witness_IllegalDescriptorRaises : (∀ row ∈ opcodeTable, row.spells 0 = false) ∧
    ∀ row ∈ opcodeTable, row.spells 0x00000000000000000000000000001135 = false := by decide

theorem witness_AssembledLinesAreLegal :
    Assembler.line "DIVMOD v2, v3, v0, v1".toList = some (.divmod 2 3 0 1) := by decide

theorem witness_StepKeepsInv : ∃ s t : State, s.Inv ∧ step s = .next t ∧ t.v.get 0 = some (sv [0x64, 0, 0, 0]) :=
  ⟨State.reset.withIssue 0x00000000000000640000002000000040, _, by decide, rfl, by decide⟩

/-- The three clauses. -/
theorem witness_StepRunsTheIssuedCommand :
    decode 0x7f = .ok .clre ∧ (State.reset.withIssue 0x7f).pending = .issue 0x7f :: [] ∧
    decodeTableWord 128 0x7f = some .clre := ⟨by decide, rfl, by decide⟩

/-- The last address of BUF. -/
theorem witness_HostTransactions : 65535 < State.reset.bufSize := by decide

/-- The first address that is none, read and written, and an idle unit. -/
theorem witness_ModelsOwnStops :
    (({ State.reset with pending := [.readBuf 65536] } : State).bufSize ≤ 65536 ∧
      ({ State.reset with pending := [.readBuf 65536] } : State).pending = .readBuf 65536 :: []) ∧
    (({ State.reset with pending := [.writeBuf 65536 0] } : State).bufSize ≤ 65536 ∧
      ({ State.reset with pending := [.writeBuf 65536 0] } : State).pending = .writeBuf 65536 0 :: []) ∧
    State.reset.pending = [] := ⟨⟨by decide, rfl⟩, ⟨by decide, rfl⟩, rfl⟩

theorem witness_CfgHoldsTheParameters : ∃ t, step (State.reset.withIssue 0x7f) = .next t ∧ t.cfg = 0xffff0080 :=
  ⟨_, rfl, by decide⟩

/-- For FirstErrorIsReported: no error, and each error of a legal command first. -/
theorem witness_FirstErrorIsReported :
    firstError State.reset .clre = none ∧
    firstError State.reset (.cast 1 0 none 12) = some .invalidWidth ∧
    firstError State.reset (.fmt 0 99 0) = some .invalidOperand ∧
    firstError State.reset (.parse 1 false 8 1 0xffff 2) = some .radixOutOfRange ∧
    firstError State.reset (.parse 1 false 8 10 0xffff 2) = some .bufRange ∧
    firstError (st2 (sv [0x05]) (sv [0x00, 0x01])) (.div 2 0 1) = some .divisionByZero ∧
    firstError (stB [0x31, 0x32, 0x61]) (.parse 1 false 8 10 0 3) = some .invalidDigit ∧
    firstError (st1 (sv [0x01, 0x00])) (.tob 0 0xffff) = some .bufRange := by decide

/-- A success and an error. -/
theorem witness_ErrorsByCommand : (Instr.bitlen 3).wellFormed = true ∧ (∃ t, exec (.bitlen 3) State.reset = .next t) ∧
    ∃ t, exec .clre State.reset = .next t := ⟨rfl, ⟨_, rfl⟩, ⟨_, rfl⟩⟩

/-- For ErrorsArePrecise and the third clause of ResIsWrittenByItsCommandsOnly: a command that fails. -/
theorem witness_ErrorsArePrecise : ∃ t u, issue 0 State.reset = .next t ∧ t.status.err ≠ 0 ∧
    exec (.bitlen 3) State.reset = .next u ∧ u.status.err ≠ 0 := ⟨_, _, rfl, by decide, rfl, by decide⟩

/-- For StatusFields: an illegal descriptor, `CLRE`, `TOINT` of a value, `Reset`, and the two accesses to BUF. -/
theorem witness_StatusFields :
    (∃ t, issue 0 (st1 (uv [0xff])) = .next t) ∧ (∃ t, issue 0x7f (st1 (uv [0xff])) = .next t) ∧
    (∃ t, issue 0x41 (st1 (uv [0xff])) = .next t ∧ decode 0x41 = .ok (.toint 0 none) ∧
      (st1 (uv [0xff])).v.get 0 = some (uv [0xff])) ∧
    (∃ t, transact .reset State.reset = .next t) ∧ (∃ t, transact (.readBuf 0) State.reset = .next t) ∧
    ∃ t, transact (.writeBuf 65535 1) State.reset = .next t :=
  ⟨⟨_, rfl⟩, ⟨_, rfl⟩, ⟨_, rfl, by decide, by decide⟩, ⟨_, rfl⟩, ⟨_, rfl⟩, ⟨_, rfl⟩⟩

/-- For ResIsWrittenByItsCommandsOnly: a command that writes RES, one that does not, an illegal descriptor, the host's
transactions. -/
theorem witness_ResIsWrittenByItsCommandsOnly :
    (∃ t, exec (.bitlen 0) (st1 (sv [0x40])) = .next t ∧ writesRes (.bitlen 0) = true ∧ t.status.err = 0) ∧
    (∃ t, exec (.not 2 0) (st1 (sv [0x40])) = .next t ∧ writesRes (.not 2 0) = false) ∧
    (decode 0 = .error .unassignedOpcode ∧ ∃ t, issue 0 State.reset = .next t) ∧
    (∃ t, transact (.readReg .res) State.reset = .next t) ∧ (∃ t, transact .reset State.reset = .next t) :=
  ⟨⟨_, rfl, rfl, by decide⟩, ⟨_, rfl, rfl⟩, ⟨by decide, _, rfl⟩, ⟨_, rfl⟩, ⟨_, rfl⟩⟩

theorem witness_OtherRegistersUnchanged : ∃ t, exec (.divmod 2 3 0 1) (st2 (sv [0x07]) (sv [0x02])) = .next t ∧
    (4 : Reg) ∉ dests (.divmod 2 3 0 1) := ⟨_, rfl, by decide⟩

/-- The bytes just below and just above the two that a `TOB` stores at 0x20; a command that stores nothing. -/
theorem witness_OtherBytesUnchanged :
    (∃ t, exec (.tob 0 0x20) (st1 (sv [0x00, 0x80])) = .next t) ∧
    stores (st1 (sv [0x00, 0x80])) (.tob 0 0x20) = some (0x20, [0x00, 0x80]) ∧
    (0x1f < 0x20 ∨ 0x20 + [(0x00 : Byte), 0x80].length ≤ 0x1f) ∧
    (0x22 < 0x20 ∨ 0x20 + [(0x00 : Byte), 0x80].length ≤ 0x22) ∧
    stores State.reset .clre = none := ⟨⟨_, rfl⟩, by decide, by decide, by decide, rfl⟩

/-- For NoCommandTouchesTheHost and ErrorsDoNotNest too. -/
theorem witness_RegistersEmptyOnlyByReset : ∃ t, step ((st1 (sv [0x01])).withIssue 0x7f) = .next t ∧
    ((st1 (sv [0x01])).withIssue 0x7f).pending.head? ≠ some .reset ∧
    ((st1 (sv [0x01])).withIssue 0x7f).v.get 0 ≠ none ∧ ∃ u, exec .clre (st1 (sv [0x01])) = .next u :=
  ⟨_, rfl, by decide, by decide, _, rfl⟩

/-- Widths 0, 12 and 136 are illegal at MAXBITS = 128, widths 8 and 128 are legal: for IllegalWidthRaises,
LdcWritesTheConstant, CastKeepsTheValue, FromintWritesTheInteger and every other statement with a legal width. -/
theorem witness_IllegalWidthRaises :
    (¬State.reset.LegalWidth 0 ∧ ¬State.reset.LegalWidth 12 ∧ ¬State.reset.LegalWidth 136 ∧
      ¬State.reset.LegalWidth 0xffff) ∧
    (State.reset.LegalWidth 8 ∧ State.reset.LegalWidth 128) ∧
    widthField (.ldc 0 0 .zero) = some 0 ∧ widthField (.cast 0 1 none 12) = some 12 ∧
    widthField (.fromb 0 true 136 0 0) = some 136 ∧
    stat (.ldc 2 128 .one) State.reset = some 0 ∧ dests (.ldc 2 128 .one) = [2] :=
  ⟨by decide, by decide, rfl, rfl, rfl, by decide, rfl⟩

/-- An empty first source, an empty second source, an empty source beside a legal width. -/
theorem witness_EmptySourceRaises :
    ((0 : Reg) ∈ sources (.add 2 0 1) ∧ State.reset.v.get 0 = none ∧ (Instr.add 2 0 1).wellFormed = true) ∧
    ((1 : Reg) ∈ sources (.add 2 0 1) ∧ (st1 (sv [0x01])).v.get 1 = none) ∧
    ((0 : Reg) ∈ sources (.cast 2 0 none 8) ∧ widthField (.cast 2 0 none 8) = some 8 ∧ State.reset.LegalWidth 8) := by
  decide

/-- Radices 1 and 37 with the other fields legal, radices 2 and 36; a read and a store one byte past the end; a read of
no byte. -/
theorem witness_RadixAndRangeRaise :
    (radixField (.fmt 0 1 0) = some 1 ∧ ¬LegalRadix 1 ∧ ¬LegalRadix 37 ∧ LegalRadix 2 ∧ LegalRadix 36 ∧
      widthField (.fmt 0 1 0) = none ∧ sources (.fmt 0 1 0) = [0] ∧ (st1 (sv [0x05])).v.get 0 ≠ none) ∧
    (reads (.parse 2 false 8 10 0xffff 2) = some (0xffff, 2) ∧ State.reset.bufSize < 0xffff + 2 ∧
      State.reset.LegalWidth 8 ∧ radixField (.parse 2 false 8 10 0xffff 2) = some 10 ∧ LegalRadix 10) ∧
    (stores (st1 (sv [0x01, 0x00])) (.tob 0 0xffff) = some (0xffff, [0x01, 0x00]) ∧
      radixField (.tob 0 0xffff) = none ∧ (st1 (sv [0x01, 0x00])).bufSize < 0xffff + [(0x01 : Byte), 0x00].length) ∧
    (reads (.fromb 2 false 8 0xffff 0) = some (0xffff, 0)) := by decide

theorem witness_RadixAndRangeRaise_no_byte : ∃ t, exec (.fromb 2 false 8 0xffff 0) State.reset = .next t := ⟨_, rfl⟩

/-- One source register: for CastKeepsTheValue, NotComplements, LogicalShiftsScaleTheBits, ShrDividesTheValue,
IssetReadsOneBit, SetbitWritesOneBit, BitlenIsTheLeastLength, NegAndAbs (both inner cases) and TointLeavesTheLowWord. -/
theorem witness_one_source : (st1 (sv [0x80])).v.get 0 = some (sv [0x80]) ∧ 0 < (sv [0x80]).nb ∧
    (sv [0x80]).ubits = 2 ^ ((sv [0x80]).width - 1) ∧ (sv [0x80]).unsigned = false ∧
    (st1 (uv [0x01, 0x80])).v.get 0 = some (uv [0x01, 0x80]) ∧ (st1 (sv [0x80])).LegalWidth 8 := by decide

/-- Two source registers, of one width and of two: for CoercionTruncatesOrPads, CmpLeavesTheOrder,
PredicatesTestTheComparison, PredicatesOrderTheValues, AndOrXorBytewise, AddSubMulWrap, AdditionIsCarryIteration and
MultiplicationIsShiftAndAdd. -/
theorem witness_two_sources : (st2 (sv [0x2c, 0x01]) (uv [0xff])).v.get 0 = some (sv [0x2c, 0x01]) ∧
    (st2 (sv [0x2c, 0x01]) (uv [0xff])).v.get 1 = some (uv [0xff]) ∧
    (st2 (sv [0x05]) (sv [0x03])).v.get 0 = some (sv [0x05]) ∧
    (st2 (sv [0x05]) (sv [0x03])).v.get 1 = some (sv [0x03]) := by decide

/-- Equal bytes under different flags, the high bit set and clear: PredicatesTestTheComparison's clause for `EQ`. -/
theorem witness_PredicatesTestTheComparison :
    (st2 (sv [0xff]) (uv [0xff])).v.get 0 = some (sv [0xff]) ∧ (st2 (sv [0xff]) (uv [0xff])).v.get 1 = some (uv [0xff]) ∧
    (sv [0xff]).bytes = (uv [0xff]).bytes ∧ (sv [0xff]).unsigned ≠ (uv [0xff]).unsigned ∧
    (st2 (uv [0x7f]) (sv [0x7f])).v.get 0 = some (uv [0x7f]) ∧ (st2 (uv [0x7f]) (sv [0x7f])).v.get 1 = some (sv [0x7f]) ∧
    (uv [0x7f]).bytes = (sv [0x7f]).bytes ∧ (uv [0x7f]).unsigned ≠ (sv [0x7f]).unsigned := by decide

/-- A divisor that is not zero at the dividend's width: for DivisionTruncates, DivisionIdentity and DivisionIsRestoring
(its first case). -/
theorem witness_DivisionTruncates : (st2 (sv [0xf9]) (uv [0x02, 0x01])).v.get 0 = some (sv [0xf9]) ∧
    (st2 (sv [0xf9]) (uv [0x02, 0x01])).v.get 1 = some (uv [0x02, 0x01]) ∧
    (uv [0x02, 0x01]).ubits % 2 ^ (sv [0xf9]).width ≠ 0 ∧ (2 : Reg) ≠ 3 ∧ (2 : Reg) ≠ 1 ∧ (3 : Reg) ≠ 1 ∧
    restoringDivmod (sv [0xf9]) ((uv [0x02, 0x01]).coerce 1) = .ok (sv [0xfd], sv [0xff]) := by decide

/-- A divisor that is zero after truncation to the dividend's width, and the zero dividend. -/
theorem witness_DivisionByZeroRaises : (st2 (sv [0x00]) (sv [0x00, 0x01])).v.get 0 = some (sv [0x00]) ∧
    (st2 (sv [0x00]) (sv [0x00, 0x01])).v.get 1 = some (sv [0x00, 0x01]) ∧
    (sv [0x00, 0x01]).ubits % 2 ^ (sv [0x00]).width = 0 ∧
    restoringDivmod (sv [0x00]) ((sv [0x00, 0x01]).coerce 1) = .error .divisionByZero := by decide

theorem witness_BytesIgnoreFlags : (Instr.add 2 0 1).mnemonic ∈ ["NOT", "AND", "OR", "XOR", "SHL", "SHRU", "SETBIT",
      "ADD", "NEG", "SUB", "MUL"] ∧ (2 : Reg) ∈ dests (.add 2 0 1) ∧ sources (.add 2 0 1) = [0, 1] ∧
    (st2 (sv [0xff]) (sv [0x01])).v.get 0 = some (sv [0xff]) ∧
    (st2 (uv [0xff]) (sv [0x01])).v.get 0 = some ((sv [0xff]).retag true) ∧
    (st2 (sv [0xff]) (sv [0x01])).v.get 1 = some (sv [0x01]) ∧
    (st2 (uv [0xff]) (sv [0x01])).v.get 1 = some ((sv [0x01]).retag false) := by decide

/-- Both clauses, at the last word of BUF and with no byte at all. -/
theorem witness_FromwAndFrombReadBytes : State.reset.LegalWidth 128 ∧
    State.reset.InRange (0xfffc : BitVec 16).toNat (4 * (1 : BitVec 16).toNat) ∧
    State.reset.InRange (0xffff : BitVec 16).toNat (1 : BitVec 16).toNat ∧
    State.reset.InRange (0xffff : BitVec 16).toNat (4 * (0 : BitVec 16).toNat) := by decide

/-- Both clauses: three bytes at the end of BUF for `TOB`, a whole word for `TOW`. -/
theorem witness_TowAndTobStoreBytes : (st1 (uv [0xef, 0xcd, 0xab])).v.get 0 = some (uv [0xef, 0xcd, 0xab]) ∧
    (st1 (uv [0xef, 0xcd, 0xab])).InRange (0xfffd : BitVec 16).toNat (uv [0xef, 0xcd, 0xab]).nb ∧
    (st1 (uv [0xef, 0xcd, 0xab])).InRange (0xfffc : BitVec 16).toNat
      (4 * (((uv [0xef, 0xcd, 0xab]).width + 31) / 32)) := by decide

theorem witness_TowThenFrombGivesTheValue : (st1 (uv [0xef, 0xcd, 0xab])).v.get 0 = some (uv [0xef, 0xcd, 0xab]) ∧
    (st1 (uv [0xef, 0xcd, 0xab])).LegalWidth 24 ∧ (24 : BitVec 16).toNat = (uv [0xef, 0xcd, 0xab]).width ∧
    (3 : BitVec 16).toNat = (uv [0xef, 0xcd, 0xab]).nb ∧
    (st1 (uv [0xef, 0xcd, 0xab])).InRange (0xfffc : BitVec 16).toNat
      (4 * (((uv [0xef, 0xcd, 0xab]).width + 31) / 32)) := by decide

/-- Both cases of the match, at the two boundary radices, and the empty text. -/
theorem witness_ParseWritesTheNumber : (stB [0x2d, 0x7a]).LegalWidth 8 ∧ LegalRadix 36 ∧ LegalRadix 2 ∧
    (stB [0x2d, 0x7a]).InRange (0 : BitVec 16).toNat (2 : BitVec 16).toNat ∧
    textValue 36 ((stB [0x2d, 0x7a]).bufBytes 0 2) = some (-35) ∧
    textValue 2 ((stB [0x2d, 0x7a]).bufBytes 0 2) = none ∧ textValue 10 [] = some 0 := by decide

/-- A value with a numeral of four characters ending at the last byte of BUF; for ParseOfFmtGivesTheValue too. -/
theorem witness_FmtStoresTheNumeral : (st1 (sv [0x80])).v.get 0 = some (sv [0x80]) ∧ 0 < (sv [0x80]).nb ∧
    LegalRadix 10 ∧ (st1 (sv [0x80])).LegalWidth 8 ∧ (8 : BitVec 16).toNat = (sv [0x80]).width ∧
    numeral (10 : BitVec 8).toNat (sv [0x80]).val = [0x2d, 0x31, 0x32, 0x38] ∧
    (st1 (sv [0x80])).InRange (0xfffc : BitVec 16).toNat 4 := by
  refine ⟨by decide, by decide, by decide, by decide, by decide, ?_, by decide⟩
  rw [show (sv [0x80]).val = -128 by decide]
  simp [numeral, charMinus, digitChar]

/-- A signed and an unsigned value, the longer text ending at the last byte of BUF. -/
theorem witness_DbgStoresTheBits : (st1 (uv [0xa5])).v.get 0 = some (uv [0xa5]) ∧
    (st1 (uv [0xa5])).InRange (0xfff6 : BitVec 16).toNat (9 * (uv [0xa5]).nb - 1 + 2) ∧
    (st1 (sv [0xa5])).InRange (0xfff8 : BitVec 16).toNat (8 * (sv [0xa5]).nb + 0) := by decide

/-- A `CLRE` with a reserved bit set (V60-5). -/
theorem witness_ClreClearsTheErrorFlag :
    (0x2000007f : Descriptor).extractLsb' 0 8 = 0x7f ∧ (0x2000007f : Descriptor) ≠ 0x7f := by decide


end Sys2Proof.Tests
end

/-!
The statements about the state: what each host transaction can do, the invariant, and what a command writes and what
it leaves unchanged. All follow from `exec_cases` and `transact_cases`, which say once what a command and a host
transaction can do.
-/
namespace Sys2Proof.Machine

/-! ### What a command, a transaction and a step can do -/

/-- The state a command ends in: that of `exec_cases`. -/
theorem exec_next {i : Instr} {s t : State} (h : exec i s = .next t) :
    (∃ e, t = s.raise e) ∨ ∃ w, Wrote i s w ∧ t = (w.apply s).succeed := by
  rcases exec_cases i s with ⟨e, he⟩ | ⟨w, hw, he⟩ <;> cases h.symm.trans he
  · exact .inl ⟨e, rfl⟩
  · exact .inr ⟨w, hw, rfl⟩

theorem issue_of_legal {d : Descriptor} {i : Instr} (h : decode d = .ok i) (s : State) : issue d s = exec i s := by
  rw [issue, h]

theorem issue_of_illegal {d : Descriptor} {x : DecodeError} (h : decode d = .error x) (s : State) :
    issue d s = .next (s.raise .illegalCommand) := by
  rw [issue, h]

/-- The state an issued descriptor leads to: an error and nothing else, or the writes of the command it spells. -/
theorem issue_next {d : Descriptor} {s t : State} (h : issue d s = .next t) :
    (∃ e, t = s.raise e) ∨ ∃ i w, decode d = .ok i ∧ Wrote i s w ∧ t = (w.apply s).succeed := by
  cases hd : decode d with
  | error x => exact .inl ⟨_, Host.Outcome.next.inj (h.symm.trans (issue_of_illegal hd s))⟩
  | ok i =>
    rw [issue_of_legal hd] at h
    rcases exec_next h with he | ⟨w, hw, ht⟩
    · exact .inl he
    · exact .inr ⟨i, w, rfl, hw, ht⟩

theorem transact_readBuf {s : State} {a : Nat} (h : a < s.bufSize) :
    transact (.readBuf a) s = .next { s with reply := some (.byte (s.bufByte a)) } := by
  rw [transact, if_pos h]

theorem transact_writeBuf {s : State} {a : Nat} (h : a < s.bufSize) (b : Byte) :
    transact (.writeBuf a b) s = .next (s.setBuf a [b]) := by
  rw [transact, if_pos h]

theorem transact_readBuf_outside {s : State} {a : Nat} (h : s.bufSize ≤ a) :
    transact (.readBuf a) s = .fault .hostBufAddress := by
  rw [transact, if_neg (Nat.not_lt.2 h)]

theorem transact_writeBuf_outside {s : State} {a : Nat} (h : s.bufSize ≤ a) (b : Byte) :
    transact (.writeBuf a b) s = .fault .hostBufAddress := by
  rw [transact, if_neg (Nat.not_lt.2 h)]

/-- The state a `ReadReg` leads to. -/
theorem transact_readReg_next {s t : State} {r : HostReg} (h : transact (.readReg r) s = .next t) :
    t = { s with reply := some (.reg (s.hostReg r)) } := (Host.Outcome.next.inj h).symm

/-- The state a `Reset` leads to. -/
theorem transact_reset_next {s t : State} (h : transact .reset s = .next t) : t = s.resetUnit :=
  (Host.Outcome.next.inj h).symm

/-- The state a `ReadBuf` leads to. -/
theorem transact_readBuf_next {s t : State} {a : Nat} (h : transact (.readBuf a) s = .next t) :
    t = { s with reply := some (.byte (s.bufByte a)) } := by
  rcases Nat.lt_or_ge a s.bufSize with ha | ha
  · exact Host.Outcome.next.inj (h.symm.trans (transact_readBuf ha))
  · cases h.symm.trans (transact_readBuf_outside ha)

/-- The state a `WriteBuf` leads to, and that its address lies in BUF. -/
theorem transact_writeBuf_next {s t : State} {a : Nat} {b : Byte} (h : transact (.writeBuf a b) s = .next t) :
    a < s.bufSize ∧ t = s.setBuf a [b] := by
  rcases Nat.lt_or_ge a s.bufSize with ha | ha
  · exact ⟨ha, Host.Outcome.next.inj (h.symm.trans (transact_writeBuf ha b))⟩
  · cases h.symm.trans (transact_writeBuf_outside ha b)

/-- What a host transaction can do: issue a descriptor, change the latest answer alone, write one byte of BUF, or reset
the unit. -/
theorem transact_cases {tr : Transaction} {s t : State} (h : transact tr s = .next t) :
    (∃ d, tr = .issue d ∧ issue d s = .next t) ∨ (∃ p, t = { s with reply := some p }) ∨
    (∃ a b, a < s.bufSize ∧ t = s.setBuf a [b]) ∨ (tr = .reset ∧ t = s.resetUnit) := by
  cases tr with
  | issue d => exact .inl ⟨d, rfl, h⟩
  | readReg r => exact .inr (.inl ⟨_, transact_readReg_next h⟩)
  | readBuf a => exact .inr (.inl ⟨_, transact_readBuf_next h⟩)
  | writeBuf a b => exact .inr (.inr (.inl ⟨a, b, transact_writeBuf_next h⟩))
  | reset => exact .inr (.inr (.inr ⟨rfl, transact_reset_next h⟩))

theorem step_idle {s : State} (h : s.pending = []) : step s = .next s := by
  rw [step, nextTransaction, h]

theorem step_pending {s : State} {tr : Transaction} {ts : List Transaction} (h : s.pending = tr :: ts) :
    step s = transact tr { s with pending := ts } := by
  rw [step, nextTransaction, h]

/-- A step keeps a property that every transaction keeps and that says nothing of the pending transactions. -/
theorem step_keeps {P : State → Prop} (hp : ∀ s ts, P s → P { s with pending := ts })
    (ht : ∀ tr s t, P s → transact tr s = .next t → P t) {s t : State} (hs : P s) (h : step s = .next t) :
    P t := by
  cases hq : s.pending with
  | nil => rw [step_idle hq] at h; exact Host.Outcome.next.inj h ▸ hs
  | cons tr ts => rw [step_pending hq] at h; exact ht tr _ t (hp s ts hs) h

/-! ### What the writes of a command leave unchanged -/

@[simp] theorem Write.apply_cfg (w : Write) (s : State) : (w.apply s).cfg = s.cfg := by cases w <;> rfl
@[simp] theorem Write.apply_draw (w : Write) (s : State) : (w.apply s).draw = s.draw := by cases w <;> rfl
@[simp] theorem Write.apply_pending (w : Write) (s : State) : (w.apply s).pending = s.pending := by cases w <;> rfl
@[simp] theorem Write.apply_reply (w : Write) (s : State) : (w.apply s).reply = s.reply := by cases w <;> rfl

/-- A register that is no destination. -/
theorem Wrote.get_of_notMem_dests {i : Instr} {s : State} {w : Write} (h : Wrote i s w) {r : Reg} (hr : r ∉ dests i) :
    (w.apply s).v.get r = s.v.get r := by
  cases h with
  | reg q x hd => exact get_set_of_ne _ _ (by simpa [hd, eq_comm] using hr)
  | regs p q x y hd =>
    obtain ⟨hp, hq⟩ : r ≠ p ∧ r ≠ q := by simpa [hd] using hr
    exact (get_set_of_ne _ _ hq.symm).trans (get_set_of_ne _ _ hp.symm)
  | _ => rfl

/-- A byte of BUF outside the bytes stored. -/
theorem Wrote.bufByte_of_outside {i : Instr} {s : State} {w : Write} (h : Wrote i s w) {a : Nat}
    (ha : ∀ p, stores s i = some p → a < p.1 ∨ p.1 + p.2.length ≤ a) : (w.apply s).bufByte a = s.bufByte a := by
  cases h with
  | buf b bs w _ _ hs => exact s.bufByte_setBuf_outside b bs a (ha (b, bs) hs)
  | _ => rfl

/-- RES, of a command that does not write it. -/
theorem Wrote.res_of_not_writesRes {i : Instr} {s : State} {w : Write} (h : Wrote i s w) (hr : writesRes i = false) :
    (w.apply s).res = s.res := by
  cases h with
  | reg | regs | clre => rfl
  | res _ _ hr' | buf _ _ _ _ hr' => cases hr.symm.trans hr'
  | toint ra m a hi => subst hi; cases hr

/-- A command that writes RES writes all of it: the RES before is lost. -/
theorem Wrote.apply_of_writesRes {i : Instr} {s : State} {w : Write} (h : Wrote i s w) (hr : writesRes i = true)
    (x : Word) : w.apply { s with res := x } = w.apply s := by
  cases h with
  | res | toint | buf => rfl
  | reg _ _ _ hr' | regs _ _ _ _ _ hr' => cases hr.symm.trans hr'
  | clre hi => subst hi; cases hr

/-- `CLRE` clears EF and every other success keeps it. -/
theorem Wrote.ef {i : Instr} {s : State} {w : Write} (h : Wrote i s w) :
    (w.apply s).status.ef = (s.status.ef && decide (i ≠ .clre)) := by
  cases h with
  | reg _ _ _ _ _ hc | regs _ _ _ _ _ _ _ hc | res _ _ _ _ hc | buf _ _ _ _ _ _ hc =>
    simp [hc, Write.apply]
  | toint ra m a hi => simp [hi, Write.apply, Status.withRu]
  | clre hi => simp [hi, Write.apply, Status.cleared]

/-- RU is kept by every success but that of `TOINT`. -/
theorem Wrote.ru_of_not_toint {i : Instr} {s : State} {w : Write} (h : Wrote i s w) (ht : ∀ ra m, i ≠ .toint ra m) :
    (w.apply s).status.ru = s.status.ru := by
  cases h with
  | toint ra m a hi => exact absurd hi (ht ra m)
  | _ => rfl

/-! ### The registers after reset -/

@[simp] theorem State.resetUnit_get (s : State) (r : Reg) : s.resetUnit.v.get r = none := by
  simp [Vector.get_eq_getElem]

@[simp] theorem State.reset_get (r : Reg) : State.reset.v.get r = none := State.reset.resetUnit_get r

/-- Empty registers hold no value that does not fit. -/
theorem State.RegsFit.of_empty {s : State} (h : ∀ r : Reg, s.v.get r = none) : s.RegsFit := fun r x hx => by
  rw [h r] at hx; cases hx

/-! ### Errors and STATUS -/

@[simp] theorem Error.code_ne_zero (e : Error) : e.code ≠ 0#4 := by cases e <;> decide

theorem Error.code_le (e : Error) : e.code.toNat ≤ 7 := by cases e <;> decide

/-- The layout of STATUS (R26). -/
theorem Status.word_fields (st : Status) : st.word.extractLsb' 0 4 = st.err ∧ st.word.getLsbD 4 = st.ef ∧
    st.word.getLsbD 5 = st.ru ∧ st.word.extractLsb' 6 26 = 0 := by
  simp (disch := omega) only [Status.word, extractLsb'_append_low, extractLsb'_append_high, getLsbD_append_low,
    getLsbD_append_high, BitVec.extractLsb'_eq_self, Nat.reduceSub]
  simp

theorem exec_toint_of_some {s : State} {ra : Reg} {a : IntVal} (mode : Option Bool) (h : s.v.get ra = some a) :
    exec (.toint ra mode) s = .next ((s.setRes a.toMachineInt).setRu (signMode mode a.unsigned)).succeed := by
  show execToint _ _ _ = _
  rw [execToint, State.operand_of_some h]; rfl

theorem exec_bitlen_of_none {s : State} {r : Reg} (h : s.v.get r = none) : exec (.bitlen r) s = .next (s.failed 3) := by
  show execBitlen _ _ = _
  rw [execBitlen, scalarCommand_empty h]; rfl

/-! ### The invariant -/

theorem State.Inv.setV {s : State} (h : s.Inv) {x : IntVal} (hx : x.fits s.maxBits) (r : Reg) : (s.setV r x).Inv := by
  obtain ⟨hparams, hregs, hrest⟩ := h
  refine ⟨hparams, fun q y hy => ?_, hrest⟩
  rw [State.setV_v, get_set] at hy
  split at hy
  · cases hy; exact hx
  · exact hregs q y hy

theorem State.Inv.setRes {s : State} (h : s.Inv) (w : Word) : (s.setRes w).Inv := h

theorem State.Inv.setRu {s : State} (h : s.Inv) (u : Bool) : (s.setRu u).Inv := h

theorem State.Inv.clearEf {s : State} (h : s.Inv) : s.clearEf.Inv := h

theorem State.Inv.setBuf {s : State} (h : s.Inv) {a : Nat} {bs : List Byte} (hn : s.InRange a bs.length) :
    (s.setBuf a bs).Inv := by
  obtain ⟨hparams, hregs, herr, hwf, hlt⟩ := h
  exact ⟨hparams, hregs, herr, Memory.writeBytes_wf hwf a bs,
    Memory.writeBytes_lt hlt a bs (hn.imp_left List.length_eq_zero_iff.1)⟩

theorem State.Inv.raise {s : State} (h : s.Inv) (e : Error) : (s.raise e).Inv := by
  obtain ⟨hparams, hregs, -, hbuf⟩ := h
  exact ⟨hparams, hregs, e.code_le, hbuf⟩

theorem State.Inv.succeed {s : State} (h : s.Inv) : s.succeed.Inv := by
  obtain ⟨hparams, hregs, -, hbuf⟩ := h
  exact ⟨hparams, hregs, Nat.zero_le 7, hbuf⟩

theorem State.Inv.resetUnit {s : State} (h : s.Inv) : s.resetUnit.Inv := by
  obtain ⟨hparams, -⟩ := h
  exact ⟨hparams, State.RegsFit.of_empty s.resetUnit_get, Nat.zero_le 7, List.Pairwise.nil, nofun⟩

/-- The writes of a command keep the invariant. -/
theorem Wrote.inv {i : Instr} {s : State} {w : Write} (h : Wrote i s w) (hs : s.Inv) : (w.apply s).Inv := by
  have hfit : s.RegsFit := by
    obtain ⟨-, hregs, -⟩ := hs
    exact hregs
  cases h with
  | reg r x _ _ _ _ hf => exact hs.setV (hf hfit) r
  | regs q r x y _ _ _ _ hf =>
    obtain ⟨hx, hy⟩ := hf hfit
    exact (hs.setV hx q).setV hy r
  | res w => exact hs.setRes w
  | toint ra m a => exact (hs.setRes _).setRu _
  | buf a bs w _ _ _ _ hn => exact (hs.setBuf hn).setRes w
  | clre => exact hs.clearEf

/-- An issued descriptor keeps the invariant. -/
theorem issue_keeps_inv {d : Descriptor} {s t : State} (hs : s.Inv) (h : issue d s = .next t) : t.Inv := by
  rcases issue_next h with ⟨e, rfl⟩ | ⟨i, w, -, hw, rfl⟩
  · exact hs.raise e
  · exact (hw.inv hs).succeed

/-- Every host transaction keeps the invariant. -/
theorem transact_keeps_inv (tr : Transaction) (s t : State) (hs : s.Inv) (h : transact tr s = .next t) : t.Inv := by
  rcases transact_cases h with ⟨d, -, hd⟩ | ⟨p, rfl⟩ | ⟨a, b, ha, rfl⟩ | ⟨-, rfl⟩
  · exact issue_keeps_inv hs hd
  · exact hs
  · exact hs.setBuf (.inr ha)
  · exact hs.resetUnit

/-! ### The frame of a step -/

/-- No command changes CFG or anything of the host's. -/
theorem exec_host_frame {i : Instr} {s t : State} (h : exec i s = .next t) :
    t.cfg = s.cfg ∧ t.draw = s.draw ∧ t.pending = s.pending ∧ t.reply = s.reply := by
  rcases exec_next h with ⟨e, rfl⟩ | ⟨w, -, rfl⟩ <;> simp

/-- No host transaction changes CFG. -/
theorem transact_cfg {tr : Transaction} {s t : State} (h : transact tr s = .next t) : t.cfg = s.cfg := by
  rcases transact_cases h with ⟨d, -, hd⟩ | ⟨p, rfl⟩ | ⟨a, b, -, rfl⟩ | ⟨-, rfl⟩
  · rcases issue_next hd with ⟨e, rfl⟩ | ⟨i, w, -, -, rfl⟩ <;> simp
  · rfl
  · rfl
  · rfl

theorem step_cfg {s t : State} (h : step s = .next t) : t.cfg = s.cfg :=
  step_keeps (P := fun u => u.cfg = s.cfg) (fun _ _ hu => hu) (fun _ _ _ hu ht => (transact_cfg ht).trans hu) rfl h

/-- A command that does not write RES, or ends with an error, leaves it. -/
theorem exec_res_frame {i : Instr} {s t : State} (h : exec i s = .next t)
    (hr : writesRes i = false ∨ t.status.err ≠ 0) : t.res = s.res := by
  rcases exec_next h with ⟨e, rfl⟩ | ⟨w, hw, rfl⟩
  · rfl
  · exact hw.res_of_not_writesRes (hr.resolve_right (not_not_intro rfl))

/-- The end of a successful command that writes RES does not depend on the RES before. -/
theorem exec_of_writesRes {i : Instr} {s t : State} (h : exec i s = .next t) (hr : writesRes i = true)
    (hok : t.status.err = 0) (x : Word) : exec i { s with res := x } = .next t := by
  rcases exec_uniform i s with ⟨e, he⟩ | ⟨w, hw, he⟩
  · obtain rfl := Host.Outcome.next.inj (h.symm.trans (he s (.refl s)))
    exact absurd hok e.code_ne_zero
  · obtain rfl := Host.Outcome.next.inj (h.symm.trans (he s (.refl s)))
    have hsame : Same s { s with res := x } := ⟨rfl, rfl, rfl, rfl⟩
    rw [he _ hsame, hw.apply_of_writesRes hr]

/-- The commands that write RES, by their mnemonics (R25). -/
theorem writesRes_iff_mnemonic (i : Instr) : writesRes i = true ↔ i.mnemonic ∈ ["CMP", "EQ", "NE", "LT", "LE", "GT",
    "GE", "ISSET", "BITLEN", "TOINT", "TOW", "TOB", "FMT", "DBG"] := by
  cases i <;> simp [writesRes, Instr.mnemonic]

/-- What an issued descriptor leaves in STATUS: ERR and EF always, RU unless a `TOINT` succeeds. -/
theorem issue_status {d : Descriptor} {s t : State} (h : issue d s = .next t) :
    (t.status.err = 0 ∨ ∃ e : Error, t.status.err = e.code) ∧
    t.status.ef = (t.status.err != 0 || (s.status.ef && decide (decode d ≠ .ok .clre))) ∧
    (t.status.err ≠ 0 ∨ (∀ ra mode, decode d ≠ .ok (.toint ra mode)) → t.status.ru = s.status.ru) := by
  rcases issue_next h with ⟨e, rfl⟩ | ⟨i, w, hd, hw, rfl⟩
  · exact ⟨.inr ⟨e, rfl⟩, by simp [Status.raised], fun _ => rfl⟩
  · refine ⟨.inl rfl, by simp [hd, hw.ef], fun hru => hw.ru_of_not_toint fun ra m hi => ?_⟩
    exact hru.resolve_left (not_not_intro rfl) ra m (hi ▸ hd)

/-- A `TOINT` of a value leaves the mode it asks for in RU. -/
theorem issue_toint_ru {d : Descriptor} {s t : State} {ra : Reg} {mode : Option Bool} {a : IntVal}
    (h : issue d s = .next t) (hd : decode d = .ok (.toint ra mode)) (ha : s.v.get ra = some a) :
    t.status.ru = signMode mode a.unsigned := by
  rw [issue_of_legal hd, exec_toint_of_some mode ha] at h
  exact Host.Outcome.next.inj h ▸ rfl

/-- The descriptor of a table word that decodes. -/
theorem decode_of_decodeTableWord {n w : Nat} {i : Instr} (h : decodeTableWord n w = some i) :
    decode (descriptorOfWord n w) = .ok i := by
  unfold decodeTableWord at h
  cases hd : decode (descriptorOfWord n w) with
  | error x => rw [hd] at h; cases h
  | ok j => rw [hd] at h; cases h; rfl

theorem step_issue {s : State} {d : Descriptor} {i : Instr} {ts : List Transaction} (hd : decode d = .ok i)
    (hp : s.pending = .issue d :: ts) : step s = exec i { s with pending := ts } :=
  (step_pending hp).trans (issue_of_legal hd _)

theorem step_withIssue {d : Descriptor} {i : Instr} (hd : decode d = .ok i) (s : State) :
    step (s.withIssue d) = exec i s := step_issue hd (s.withIssue_pending d)

/-! ### The obligations -/

/-- Settles O10: every transaction keeps the invariant, because each of the writes of a command does. -/
theorem stepKeepsInv : Obligations.StepKeepsInv := fun _ _ =>
  step_keeps (P := State.Inv) (fun _ _ h => h) transact_keeps_inv

/-- Settles O14: no transaction writes CFG; `maxBits` and `bufSize` are read from its halves. -/
theorem cfgHoldsTheParameters : Obligations.CfgHoldsTheParameters := fun _ _ h =>
  ⟨step_cfg h, rfl, rfl, Nat.le_add_left 1 _⟩

/-- Settles O19: ERR and EF by the two ends of a command, RU by the one write that touches it. -/
theorem statusFields : Obligations.StatusFields := by
  refine ⟨fun s => ⟨rfl, s.status.word_fields⟩, fun d s t h => ?_, fun s t h => ?_, fun s t a b h => ?_⟩
  · obtain ⟨herr, hef, hru⟩ := issue_status h
    refine ⟨herr, hef, hru, fun ra mode a hd ha => (issue_toint_ru h hd ha).trans ?_⟩
    cases mode <;> rfl
  · rw [transact_reset_next h]; rfl
  · rcases h with h | h
    · rw [transact_readBuf_next h]
    · rw [(transact_writeBuf_next h).2]; rfl

/-- Settles O20: the writes of a command reach RES exactly when `writesRes` says so. -/
theorem resIsWrittenByItsCommandsOnly : Obligations.ResIsWrittenByItsCommandsOnly := by
  refine ⟨writesRes_iff_mnemonic, fun i s t x h hr hok => exec_of_writesRes h hr hok x, fun i s t => exec_res_frame,
    fun d s t x hd h => ?_, fun s t r a b h => ?_, fun s => rfl, fun s t h => ?_, rfl⟩
  · rw [← Host.Outcome.next.inj ((issue_of_illegal hd s).symm.trans h)]; rfl
  · rcases h with h | h | h
    · rw [transact_readReg_next h]
    · rw [transact_readBuf_next h]
    · rw [(transact_writeBuf_next h).2]; rfl
  · rw [transact_reset_next h]; rfl

/-- Settles O21: the writes of a command set its destinations only. -/
theorem otherRegistersUnchanged : Obligations.OtherRegistersUnchanged := by
  intro i s t r h hr
  rcases exec_next h with ⟨e, rfl⟩ | ⟨w, hw, rfl⟩
  · rfl
  · exact hw.get_of_notMem_dests hr

/-- Settles O22: the one write that reaches BUF stores the bytes `stores` names. -/
theorem otherBytesUnchanged : Obligations.OtherBytesUnchanged := by
  intro i s t h a ha
  rcases exec_next h with ⟨e, rfl⟩ | ⟨w, hw, rfl⟩
  · rfl
  · exact hw.bufByte_of_outside ha

/-- Settles O23: neither an error nor any write reaches these fields. -/
theorem noCommandTouchesTheHost : Obligations.NoCommandTouchesTheHost := fun _ _ _ => exec_host_frame

/-- Settles O8: the state is that of `resetUnit`, whose registers are all empty and whose BUF lists no byte. -/
theorem resetLeavesTheSpecsState : Obligations.ResetLeavesTheSpecsState := fun s =>
  ⟨s.resetUnit, rfl, fun r => ⟨s.resetUnit_get r, exec_bitlen_of_none (s.resetUnit_get r)⟩, rfl, rfl, rfl, rfl,
    rfl, ⟨Nat.succ_ne_self s.draw, fun _ => rfl⟩, State.reset_get, rfl, rfl, fun _ => rfl⟩

/-- Settles O9: no register holds a value and BUF lists no byte. -/
theorem resetStateMeetsInv : Obligations.ResetStateMeetsInv :=
  ⟨by decide, State.RegsFit.of_empty State.reset_get, Nat.zero_le 7, State.reset_buf_wf, nofun⟩

/-- Settles O11: a step takes the first pending transaction. -/
theorem stepRunsTheIssuedCommand : Obligations.StepRunsTheIssuedCommand :=
  ⟨fun _ _ _ _ hd hp => step_issue hd hp, fun s _ _ hd => step_withIssue hd s,
    fun s _ _ _ h => step_withIssue (decode_of_decodeTableWord h) s⟩

/-- Settles O12: a read changes the answer alone, and BUF answers a read after a write as `bufByte_setBuf` says. -/
theorem hostTransactions : Obligations.HostTransactions := by
  refine ⟨fun s => ⟨rfl, rfl, rfl⟩, fun s a ha => ⟨transact_readBuf ha, fun b => ?_⟩⟩
  refine ⟨_, transact_writeBuf ha b, rfl, s.bufByte_setBuf_inside a [b] 0 Nat.one_pos, fun q hq => ?_⟩
  exact s.bufByte_setBuf_outside a [b] q (Nat.lt_or_gt_of_ne hq)

/-- Settles O13: an address at or above BUFSIZE fails the check of both accesses, and a step with no transaction
pending is idle. -/
theorem modelsOwnStops : Obligations.ModelsOwnStops := by
  refine ⟨fun s a b ts ha hp => ?_, fun s => step_idle⟩
  rcases hp with hp | hp
  · exact (step_pending hp).trans (transact_readBuf_outside (s := { s with pending := ts }) ha)
  · exact (step_pending hp).trans (transact_writeBuf_outside (s := { s with pending := ts }) ha b)

end Sys2Proof.Machine

/-!
The statements about BUF: the radix and range checks of the commands that read or store text, bytes or words, and the
round trip of `TOW` and `FROMB`. A command whose checks before the access pass is its access followed by the rest
(`exec_of_reads`, `exec_of_stores`); what an access out of range does then follows for all of them at once.
-/
namespace Sys2Proof.Machine

/-! ### A check that passes, and one that ends the command -/

/-- A check that passes hands its value to the rest of the command. -/
theorem State.finish_bind_of_ok {α : Type} {r : Except Error α} {x : α} (h : r = .ok x) (s : State)
    (k : α → Except Error State) : s.finish (r >>= k) = s.finish (k x) := by
  rw [h]; rfl

/-- A check that fails ends the command with its error. -/
theorem State.finish_bind_of_error {α : Type} {r : Except Error α} {e : Error} (h : r = .error e) (s : State)
    (k : α → Except Error State) : s.finish (r >>= k) = .next (s.raise e) := by
  rw [h]; rfl

theorem Error.eq_bufRange_of_code {e : Error} (h : e.code = 5) : e = .bufRange := by
  cases e with
  | bufRange => rfl
  | _ => cases h

/-! ### Every command, by the checks before its access to BUF -/

/-- A command raises `InvalidWidth` on an illegal width, whatever else is wrong: the width is the first check. -/
theorem exec_of_illegal_width {i : Instr} {s : State} {n : BitVec 16} (h : widthField i = some n)
    (hn : ¬s.LegalWidth n) : exec i s = .next (s.raise .invalidWidth) := by
  cases i with
  | ldc | cast | fromint | fromw | fromb | parse =>
    cases h
    exact s.finish_bind_of_error (State.widthOf_bad hn) _
  | _ => cases h

/-- A command whose width and source checks pass raises `RadixOutOfRange` on an illegal radix. -/
theorem exec_of_illegal_radix {i : Instr} {s : State} {x : BitVec 8} (h : radixField i = some x)
    (hx : ¬LegalRadix x) (hw : ∀ n, widthField i = some n → s.LegalWidth n)
    (hr : ∀ r ∈ sources i, s.v.get r ≠ none) : exec i s = .next (s.raise .radixOutOfRange) := by
  cases i with
  | parse rd u n radix addr len =>
    cases h
    refine (s.finish_bind_of_ok (State.widthOf_ok (hw n rfl)) _).trans ?_
    exact s.finish_bind_of_error (radixOf_bad hx) _
  | fmt ra radix addr =>
    cases h
    obtain ⟨a, ha⟩ := Option.ne_none_iff_exists'.1 (hr ra List.mem_cons_self)
    refine (s.finish_bind_of_ok (State.operand_of_some ha) _).trans ?_
    exact s.finish_bind_of_error (radixOf_bad hx) _
  | _ => cases h

/-- A command that reads BUF has no source register. -/
theorem sources_of_reads {i : Instr} {p : Nat × Nat} (h : reads i = some p) : sources i = [] := by
  cases i with
  | fromw | fromb | parse => rfl
  | _ => cases h

/-- A command that reads BUF, its checks before the read passed, is that read and then steps that never raise
`BufRange`. -/
theorem exec_of_reads {i : Instr} {s : State} {p : Nat × Nat} (h : reads i = some p)
    (hw : ∀ n, widthField i = some n → s.LegalWidth n) (hx : ∀ x, radixField i = some x → LegalRadix x) :
    ∃ (addr : BitVec 16) (k : List Byte → Except Error State), addr.toNat = p.1 ∧
      exec i s = s.finish (s.load addr p.2 >>= k) ∧ ∀ bs, k bs ≠ .error .bufRange := by
  cases i with
  | fromw rd u n addr len | fromb rd u n addr len =>
    cases h
    exact ⟨addr, _, rfl, s.finish_bind_of_ok (State.widthOf_ok (hw n rfl)) _, nofun⟩
  | parse rd u n radix addr len =>
    cases h
    have hradix : LegalRadix radix := hx radix rfl
    refine ⟨addr, _, rfl, (s.finish_bind_of_ok (State.widthOf_ok (hw n rfl)) _).trans
      (s.finish_bind_of_ok (radixOf_ok hradix) _), fun bs hbs => ?_⟩
    cases hp : parse (n.toNat / 8) u radix.toNat bs with
    | error e => rw [hp, parse_error hradix.1 hp] at hbs; cases hbs
    | ok x => rw [hp] at hbs; cases hbs
  | _ => cases h

/-- A command that stores in BUF, its checks before the store passed, is that store and then a number for RES. -/
theorem exec_of_stores {i : Instr} {s : State} {p : Nat × List Byte} (h : stores s i = some p)
    (hx : ∀ x, radixField i = some x → LegalRadix x) :
    ∃ (addr : BitVec 16) (w : Word), addr.toNat = p.1 ∧
      exec i s = s.finish (s.store addr p.2 >>= fun t => pure (t.setRes w)) := by
  cases i with
  | tow ra addr | tob ra addr | dbg ra _ addr =>
    obtain ⟨a, ha, rfl⟩ := Option.map_eq_some_iff.1 h
    exact ⟨addr, _, rfl, s.finish_bind_of_ok (State.operand_of_some ha) _⟩
  | fmt ra radix addr =>
    obtain ⟨a, ha, rfl⟩ := Option.map_eq_some_iff.1 h
    exact ⟨addr, _, rfl, (s.finish_bind_of_ok (State.operand_of_some ha) _).trans
      (s.finish_bind_of_ok (radixOf_ok (hx radix rfl)) _)⟩
  | _ => cases h

/-- A read of no byte never raises `BufRange`: the checks before it raise other errors, and so do the steps after. -/
theorem exec_of_reads_no_byte {i : Instr} {s : State} {p : Nat × Nat} (h : reads i = some p) (h0 : p.2 = 0) :
    (∃ t : State, exec i s = .next t.succeed) ∨ ∃ e, e ≠ .bufRange ∧ exec i s = .next (s.raise e) := by
  by_cases hw : ∀ n, widthField i = some n → s.LegalWidth n
  · by_cases hx : ∀ x, radixField i = some x → LegalRadix x
    · obtain ⟨addr, k, -, hexec, hk⟩ := exec_of_reads h hw hx
      rw [s.finish_bind_of_ok (State.load_ok (.inl h0))] at hexec
      rcases s.finish_cases (k (s.bufBytes addr.toNat p.2)) with ⟨t, -, ht⟩ | ⟨e, he, ht⟩
      · exact .inl ⟨t, hexec.trans ht⟩
      · exact .inr ⟨e, fun heq => hk _ (heq ▸ he), hexec.trans ht⟩
    · push Not at hx
      obtain ⟨x, hxi, hx⟩ := hx
      exact .inr ⟨.radixOutOfRange, nofun, exec_of_illegal_radix hxi hx hw (by simp [sources_of_reads h])⟩
  · push Not at hw
    obtain ⟨n, hni, hn⟩ := hw
    exact .inr ⟨.invalidWidth, nofun, exec_of_illegal_width hni hn⟩

/-! ### The two ends of the round trip -/

/-- `TOW` of a value whose word image stays within BUF. -/
theorem exec_tow_of {s : State} {ra : Reg} {addr : BitVec 16} {a : IntVal} (ha : s.v.get ra = some a)
    (hn : s.InRange addr.toNat a.wordImage.length) : exec (.tow ra addr) s =
      .next ((s.setBuf addr.toNat a.wordImage).setRes (BitVec.ofNat 32 a.wordCount)).succeed := by
  show execTow _ _ _ = _
  rw [execTow, State.finish_bind_of_ok (State.operand_of_some ha), State.finish_bind_of_ok (State.store_ok hn)]; rfl

/-- `FROMB` at a legal width of bytes that stay within BUF. -/
theorem exec_fromb_of {s : State} {n addr len : BitVec 16} (hw : s.LegalWidth n)
    (hn : s.InRange addr.toNat len.toNat) (rd : Reg) (u : Bool) : exec (.fromb rd u n addr len) s =
      .next (s.wroteV rd (IntVal.fromBytes (n.toNat / 8) (s.bufBytes addr.toNat len.toNat) u)) := by
  show execFromb _ _ _ _ _ _ = _
  rw [execFromb, State.finish_bind_of_ok (State.widthOf_ok hw), State.finish_bind_of_ok (State.load_ok hn)]; rfl

/-- A value is built again from its own bytes. -/
theorem IntVal.fromBytes_bytes (a : IntVal) : IntVal.fromBytes a.nb a.bytes a.unsigned = a := by
  simp [IntVal.fromBytes, IntVal.nb]

/-- The word image is at least as long as the bytes it pads. -/
theorem IntVal.nb_le_length_wordImage (a : IntVal) : a.nb ≤ a.wordImage.length := by
  simp [IntVal.wordImage, IntVal.nb]

/-- The bytes of a value, read back from its word image. -/
theorem State.bufBytes_setBuf_wordImage (s : State) (addr : Nat) (a : IntVal) :
    (s.setBuf addr a.wordImage).bufBytes addr a.nb = a.bytes :=
  s.bufBytes_setBuf_prefix addr a.bytes _

/-! ### The obligations -/

/-- Settles O28: an access out of range is refused right after the checks the hypotheses say pass, and one of no byte
never is. -/
theorem radixAndRangeRaise : Obligations.RadixAndRangeRaise := by
  refine ⟨fun i s x h hx hw hr => ?_, fun i s p h hp hn hw hx => ?_, fun i s p h hp hn hx => ?_,
    fun i s t p h h0 ht => ?_⟩
  · exact exec_of_illegal_radix h (by unfold LegalRadix; omega) hw hr
  · obtain ⟨addr, k, haddr, hexec, -⟩ := exec_of_reads h hw hx
    refine hexec.trans (s.finish_bind_of_error (State.load_bad ?_) k)
    unfold State.InRange; omega
  · obtain ⟨addr, w, haddr, hexec⟩ := exec_of_stores h hx
    refine hexec.trans (s.finish_bind_of_error (State.store_bad ?_) _)
    have := List.length_pos_iff.2 hp
    unfold State.InRange; omega
  · rcases exec_of_reads_no_byte h h0 with ⟨u, hu⟩ | ⟨e, he, hu⟩ <;> cases ht.symm.trans hu
    · exact nofun
    · exact mt Error.eq_bufRange_of_code he

/-- Settles O55: the first bytes of the word image are the value's own, and `FROMB` builds the value from them. -/
theorem towThenFrombGivesTheValue : Obligations.TowThenFrombGivesTheValue := by
  intro s ra rd addr n len a ha hw hn hlen hrange
  rw [← a.wordImage_length] at hrange
  have hle := a.nb_le_length_wordImage
  have hnb : n.toNat / 8 = a.nb := by rw [hn, IntVal.width]; omega
  have hload : s.InRange addr.toNat len.toNat := by
    unfold State.InRange at hrange ⊢; omega
  refine ⟨_, exec_tow_of ha hrange, (exec_fromb_of ?_ ?_ rd a.unsigned).trans ?_⟩
  · exact hw
  · exact hload
  · rw [State.bufBytes_done, hlen, hnb, State.bufBytes_setBuf_wordImage, a.fromBytes_bytes]

end Sys2Proof.Machine

/-!
The statements about the encoding (30_encoding R70 to R86): the decoder and the encoder invert each other, and the
decoder reads the opcode table. A descriptor and its fields determine each other, so all is said of fields. A row of
the table and the decoder's arm for its opcode are compared once (`OpcodeRow.Decoded`), through the format they share.
-/
namespace Sys2Proof.Laws.FieldRoundTrip

/-- The round trip of every command: the lemma of its constructor. -/
theorem holds : ∀ i : Instr, Statement i
  | .ldc a b c => ldc a b c | .cast a b c d => cast a b c d
  | .cmp a b => cmp a b | .eq a b => eq a b | .ne a b => ne a b | .lt a b => lt a b | .le a b => le a b
  | .gt a b => gt a b | .ge a b => ge a b
  | .not a b => not a b | .and a b c => and a b c | .or a b c => or a b c | .xor a b c => xor a b c
  | .shl a b c => shl a b c | .shr a b c => shr a b c | .shru a b c => shru a b c | .isset a b => isset a b
  | .setbit a b c d => setbit a b c d | .bitlen a => bitlen a
  | .add a b c => add a b c | .neg a b => neg a b | .sub a b c => sub a b c | .abs a b => abs a b
  | .mul a b c => mul a b c
  | .divmod a b c d => divmod a b c d | .div a b c => div a b c | .mod a b c => mod a b c
  | .fromint a b c d => fromint a b c d | .toint a b => toint a b | .fromw a b c d e => fromw a b c d e
  | .tow a b => tow a b | .fromb a b c d e => fromb a b c d e | .tob a b => tob a b
  | .parse a b c d e f => parse a b c d e f | .fmt a b c => fmt a b c | .dbg a b c => dbg a b c | .clre => clre

end Sys2Proof.Laws.FieldRoundTrip

namespace Sys2Proof

/-! ### The encoder and the decoder -/

theorem decode_encode {i : Instr} (h : i.wellFormed = true) : decode (encode i) = .ok i := by
  rw [decode, encode, Fields.ofDescriptor_toDescriptor, Laws.FieldRoundTrip.holds i h]

theorem exists_of_map_eq_ok {ε α β : Type} {x : Except ε α} {g : α → β} {b : β} (h : x.map g = .ok b) :
    ∃ a, x = .ok a ∧ g a = b := by
  cases x with
  | error e => cases h
  | ok a => exact ⟨a, rfl, Except.ok.inj h⟩

/-- Fields with opcode `o` that pass the check of a format are those of the command `i`, when `i` has that opcode and
its operands are the fields the format uses. -/
theorem encodeFields_of_checked {f : Fields} {fmt : Format} {x : Except DecodeError Instr} {i : Instr} {o : Nat}
    (h : f.checked fmt x = .ok i) (ho : f.op.toNat = o)
    (hx : x = .ok i → i.wellFormed = true ∧ encodeFields i = { fmt.keep f with op := BitVec.ofNat 8 o }) :
    i.wellFormed = true ∧ encodeFields i = f := by
  obtain ⟨-, -, hk, hi⟩ := Fields.checked_ok h
  obtain ⟨hw, he⟩ := hx hi
  refine ⟨hw, he.trans ?_⟩
  rw [← ho, BitVec.ofNat_toNat, BitVec.setWidth_eq, hk]

/-- The same for a command that takes an operand `a` which its arm decodes first. -/
theorem encodeFields_of_checked_map {α : Type} {f : Fields} {fmt : Format} {y : Except DecodeError α} {g : α → Instr}
    {i : Instr} {o : Nat} (h : f.checked fmt (y.map g) = .ok i) (ho : f.op.toNat = o)
    (hg : ∀ a, y = .ok a → (g a).wellFormed = true ∧ encodeFields (g a) = { fmt.keep f with op := BitVec.ofNat 8 o }) :
    i.wellFormed = true ∧ encodeFields i = f := by
  refine encodeFields_of_checked h ho fun hx => ?_
  obtain ⟨a, ha, rfl⟩ := exists_of_map_eq_ok hx
  exact hg a ha

/-- Fields that decode are those of the command they decode to: the opcode map of R74, row by row. -/
theorem encodeFields_of_decodeFields {f : Fields} {i : Instr} (h : decodeFields f = .ok i) :
    i.wellFormed = true ∧ encodeFields i = f := by
  unfold decodeFields at h
  split at h
  case h_1 ho => -- LDC
    refine encodeFields_of_checked_map h ho fun c hc => ?_
    simp [Instr.wellFormed, encodeFields, Format.keep, decodeConst_ok hc]
  case h_2 ho => -- CAST
    refine encodeFields_of_checked_map h ho fun m hm => ?_
    simp [Instr.wellFormed, encodeFields, Format.keep, decodeMode_ok hm]
  case h_25 ho => -- DIVMOD
    refine encodeFields_of_checked h ho fun hx => ?_
    split at hx <;> cases hx
    next hne => exact ⟨bne_iff_ne.2 hne, rfl⟩
  case h_29 ho => -- TOINT
    refine encodeFields_of_checked_map h ho fun m hm => ?_
    simp [Instr.wellFormed, encodeFields, Format.keep, decodeMode_ok hm]
  case h_38 => cases h
  all_goals
    next ho =>
    refine encodeFields_of_checked h ho fun hx => ?_
    cases hx
    exact ⟨rfl, rfl⟩

/-- Settles O2: fields and descriptor determine each other, and the fields of each command decode to it. -/
theorem decodeOfEncode : Obligations.DecodeOfEncode := fun _ => decode_encode

/-- Settles O3: the fields a format uses are a command's own operands, and every other field is zero. -/
theorem encodeOfDecode : Obligations.EncodeOfDecode := by
  intro d i h
  obtain ⟨hw, he⟩ := encodeFields_of_decodeFields h
  exact ⟨hw, by rw [encode, he, Fields.toDescriptor_ofDescriptor]⟩

/-! ### The masks of the formats -/

/-- The fields of the bitwise conjunction of two descriptors. -/
def Fields.and (f g : Fields) : Fields where
  op      := f.op &&& g.op
  rd      := (BitVec.ofFin (w := 4) f.rd &&& BitVec.ofFin (w := 4) g.rd).toFin
  rd2     := (BitVec.ofFin (w := 4) f.rd2 &&& BitVec.ofFin (w := 4) g.rd2).toFin
  ra      := (BitVec.ofFin (w := 4) f.ra &&& BitVec.ofFin (w := 4) g.ra).toFin
  rb      := (BitVec.ofFin (w := 4) f.rb &&& BitVec.ofFin (w := 4) g.rb).toFin
  u       := f.u && g.u
  uov     := f.uov && g.uov
  uval    := f.uval && g.uval
  bv      := f.bv && g.bv
  sp      := f.sp && g.sp
  rsvLow  := f.rsvLow &&& g.rsvLow
  nbits   := f.nbits &&& g.nbits
  radix   := f.radix &&& g.radix
  rsvHigh := f.rsvHigh &&& g.rsvHigh
  imm     := f.imm &&& g.imm
  addr    := f.addr &&& g.addr
  len     := f.len &&& g.len

theorem Fields.ofDescriptor_and (d m : Descriptor) :
    Fields.ofDescriptor (d &&& m) = (Fields.ofDescriptor d).and (Fields.ofDescriptor m) := by
  simp only [Fields.ofDescriptor, Fields.and, extractLsb'_and, BitVec.getLsbD_and, ofFin_toFin_extract]

/-- Every bit one. -/
def Fields.ones : Fields :=
  ⟨BitVec.allOnes 8, 15, 15, 15, 15, true, true, true, true, true, BitVec.allOnes 3, BitVec.allOnes 16,
    BitVec.allOnes 8, BitVec.allOnes 8, BitVec.allOnes 32, BitVec.allOnes 16, BitVec.allOnes 16⟩

/-- The bits a format fixes: those of the opcode, and those of the fields it does not use (R73, R75). -/
def Format.fixed (fmt : Format) : Descriptor :=
  ~~~ (fmt.keep Fields.ones).toDescriptor ||| 0xff

/-- The descriptor with opcode `o` and every other field zero. -/
def opcodeWord (o : BitVec 8) : Descriptor := ({ Fields.zero with op := o } : Fields).toDescriptor

/-- A descriptor meets the mask of a format with an opcode exactly when it has that opcode and every field that the
format does not use is zero (R73, R75). -/
theorem Format.and_fixed_eq_iff (fmt : Format) (d : Descriptor) (o : BitVec 8) :
    d &&& fmt.fixed = opcodeWord o ↔
      (Fields.ofDescriptor d).op = o ∧ Fields.ofDescriptor d = fmt.keep (Fields.ofDescriptor d) := by
  rw [← Fields.ofDescriptor_inj, Fields.ofDescriptor_and, opcodeWord, Fields.ofDescriptor_toDescriptor]
  generalize Fields.ofDescriptor d = f
  obtain ⟨op, rd, rd2, ra, rb, u, uov, uval, bv, sp, rl, nb, rx, rh, imm, addr, len⟩ := f
  have h3 (x : BitVec 3) : x &&& 0x7#3 = x := BitVec.and_allOnes
  have h8 (x : BitVec 8) : x &&& 0xff#8 = x := BitVec.and_allOnes
  have h16 (x : BitVec 16) : x &&& 0xffff#16 = x := BitVec.and_allOnes
  have h32 (x : BitVec 32) : x &&& 0xffffffff#32 = x := BitVec.and_allOnes
  have hones : ∀ r : Reg, r &&& 15 = r := by decide
  cases fmt <;>
    simp [Format.fixed, Format.keep, Fields.and, Fields.zero, Fields.ones, Fields.ofDescriptor, Fields.toDescriptor,
      h3, h8, h16, h32, hones]

/-! ### The rows of the opcode table and the decoder -/

/-- The check passes exactly the fields that the format keeps all of: no format keeps a reserved bit. -/
theorem Fields.checked_eq_ok_iff {f : Fields} {fmt : Format} {x : Except DecodeError Instr} {i : Instr} :
    f.checked fmt x = .ok i ↔ f = fmt.keep f ∧ x = .ok i := by
  constructor
  · intro h
    obtain ⟨-, -, hk, hx⟩ := Fields.checked_ok h
    exact ⟨hk.symm, hx⟩
  · rintro ⟨hk, hx⟩
    have hlow : (fmt.keep f).rsvLow = 0 := by cases fmt <;> rfl
    have hhigh : (fmt.keep f).rsvHigh = 0 := by cases fmt <;> rfl
    rw [← hk] at hlow hhigh
    rw [Fields.checked_eq hlow hhigh hk.symm, hx]

/-- The opcode of a row. -/
def OpcodeRow.op (row : OpcodeRow) : BitVec 8 := row.pattern.extractLsb' 0 8

/-- The row and the decoder's arm for its opcode say the same: the row's mask fixes what the arm's format checks, and
the row's condition holds exactly when the arm gives a command, which is one of the row's mnemonic. -/
structure OpcodeRow.DecodedBy (row : OpcodeRow) (fmt : Format) (x : Fields → Except DecodeError Instr) : Prop where
  mask : row.mask = fmt.fixed
  pattern : row.pattern = opcodeWord row.op
  decodes : ∀ f, f.op = row.op → decodeFields f = f.checked fmt (x f)
  legal : ∀ f, row.legal f = true ↔ ∃ i, x f = .ok i
  mnemonic : ∀ f i, x f = .ok i → i.mnemonic = row.mnemonic

/-- The decoder has an arm for the row. -/
def OpcodeRow.Decoded (row : OpcodeRow) : Prop := ∃ fmt x, row.DecodedBy fmt x

/-- A descriptor spells a row that the decoder has an arm for exactly when it has the row's opcode and decodes. -/
theorem OpcodeRow.Decoded.spells_iff {row : OpcodeRow} (h : row.Decoded) (d : Descriptor) :
    row.spells d = true ↔ (Fields.ofDescriptor d).op = row.op ∧ ∃ i, decode d = .ok i := by
  obtain ⟨fmt, x, hmask, hpattern, hdecodes, hlegal, -⟩ := h
  rw [OpcodeRow.spells, hmask, hpattern, Bool.and_eq_true, beq_iff_eq, Format.and_fixed_eq_iff, hlegal, and_assoc]
  refine and_congr_right fun ho => ?_
  simp only [decode, hdecodes _ ho, Fields.checked_eq_ok_iff, exists_and_left]

/-- A descriptor with the opcode of such a row decodes to no command but one of the row's mnemonic. -/
theorem OpcodeRow.Decoded.mnemonic {row : OpcodeRow} (h : row.Decoded) {d : Descriptor} {i : Instr}
    (ho : (Fields.ofDescriptor d).op = row.op) (hd : decode d = .ok i) : row.mnemonic = i.mnemonic := by
  obtain ⟨fmt, x, -, -, hdecodes, -, hmnemonic⟩ := h
  rw [decode, hdecodes _ ho, Fields.checked_eq_ok_iff] at hd
  exact (hmnemonic _ _ hd.2).symm

/-- A row without a further condition, whose arm always gives a command. -/
theorem OpcodeRow.Decoded.plain {row : OpcodeRow} (fmt : Format) {g : Fields → Instr}
    (decodes : ∀ f, f.op = row.op → decodeFields f = f.checked fmt (.ok (g f)) := by
      intro f h; rw [decodeFields, h]; rfl)
    (mask : row.mask = fmt.fixed := by decide) (pattern : row.pattern = opcodeWord row.op := by decide)
    (legal : row.legal = noConstraint := by rfl) (mnemonic : ∀ f, (g f).mnemonic = row.mnemonic := by intro f; rfl) :
    row.Decoded :=
  ⟨fmt, fun f => .ok (g f), mask, pattern, decodes, fun f => by simp [legal, noConstraint],
    fun f _ h => Except.ok.inj h ▸ mnemonic f⟩

/-- A row whose condition is the legality of one operand, which the arm decodes and the command takes. -/
theorem OpcodeRow.Decoded.operand {row : OpcodeRow} (fmt : Format) {α : Type} {y : Fields → Except DecodeError α}
    {g : Fields → α → Instr} (legal : ∀ f, row.legal f = true ↔ ∃ a, y f = .ok a)
    (decodes : ∀ f, f.op = row.op → decodeFields f = f.checked fmt ((y f).map (g f)) := by
      intro f h; rw [decodeFields, h]; rfl)
    (mask : row.mask = fmt.fixed := by decide) (pattern : row.pattern = opcodeWord row.op := by decide)
    (mnemonic : ∀ f a, (g f a).mnemonic = row.mnemonic := by intro f a; rfl) : row.Decoded := by
  refine ⟨fmt, fun f => (y f).map (g f), mask, pattern, decodes, fun f => (legal f).trans ⟨?_, ?_⟩, fun f i h => ?_⟩
  · rintro ⟨a, ha⟩
    exact ⟨g f a, by rw [ha]; rfl⟩
  · rintro ⟨i, h⟩
    obtain ⟨a, ha, -⟩ := exists_of_map_eq_ok h
    exact ⟨a, ha⟩
  · obtain ⟨a, -, rfl⟩ := exists_of_map_eq_ok h
    exact mnemonic f a

/-- A constant id is legal exactly when it names a constant. -/
theorem constIdLegal_iff (f : Fields) : constIdLegal f = true ↔ ∃ c, decodeConst f.imm = .ok c := by
  rw [constIdLegal, decide_eq_true_iff]
  constructor
  · intro h
    unfold decodeConst
    generalize f.imm.toNat = n at h ⊢
    interval_cases n <;> exact ⟨_, rfl⟩
  · rintro ⟨c, hc⟩
    rw [← decodeConst_ok hc]
    cases c <;> decide

/-- An override is legal exactly when it is a sign mode or absent. -/
theorem overrideLegal_iff (f : Fields) : overrideLegal f = true ↔ ∃ m, decodeMode f.uov f.uval = .ok m := by
  rw [overrideLegal]
  cases f.uov <;> cases f.uval <;> simp [decodeMode]

theorem decoded_of_mem_widthCast : ∀ row ∈ opcodeRowsWidthCast, row.Decoded := by
  simp only [opcodeRowsWidthCast, List.forall_mem_cons]
  exact ⟨.operand .k constIdLegal_iff, .operand .c overrideLegal_iff, List.forall_mem_nil _⟩

theorem decoded_of_mem_compare : ∀ row ∈ opcodeRowsCompare, row.Decoded := by
  simp only [opcodeRowsCompare, List.forall_mem_cons]
  exact ⟨.plain .p, .plain .p, .plain .p, .plain .p, .plain .p, .plain .p, .plain .p, List.forall_mem_nil _⟩

theorem decoded_of_mem_bitwise : ∀ row ∈ opcodeRowsBitwise, row.Decoded := by
  simp only [opcodeRowsBitwise, List.forall_mem_cons]
  exact ⟨.plain .u, .plain .b, .plain .b, .plain .b, .plain .s, .plain .s, .plain .s, .plain .t, .plain .g, .plain .l,
    List.forall_mem_nil _⟩

theorem decoded_of_mem_arithmetic : ∀ row ∈ opcodeRowsArithmetic, row.Decoded := by
  simp only [opcodeRowsArithmetic, List.forall_mem_cons]
  refine ⟨.plain .b, .plain .u, .plain .b, .plain .u, .plain .b, ?divmod, .plain .b, .plain .b, List.forall_mem_nil _⟩
  case divmod =>
    refine ⟨.q, _, by decide, by decide, fun f h => by rw [decodeFields, h]; rfl, fun f => ?_, fun f i h => ?_⟩
    · by_cases h : f.rd = f.rd2 <;> simp [destinationsLegal, h]
    · split at h <;> cases h
      rfl

theorem decoded_of_mem_conversion : ∀ row ∈ opcodeRowsConversion, row.Decoded := by
  simp only [opcodeRowsConversion, List.forall_mem_cons]
  exact ⟨.plain .fi, .operand .ti overrideLegal_iff, .plain .ld, .plain .st, .plain .ld, .plain .st,
    List.forall_mem_nil _⟩

theorem decoded_of_mem_codec : ∀ row ∈ opcodeRowsCodec, row.Decoded := by
  simp only [opcodeRowsCodec, List.forall_mem_cons]
  exact ⟨.plain .pa, .plain .fm, .plain .db, .plain .z, List.forall_mem_nil _⟩

/-- The decoder has an arm for every row of the table. -/
theorem decoded_of_mem_opcodeTable : ∀ row ∈ opcodeTable, row.Decoded := by
  simp only [opcodeTable, List.forall_mem_append]
  exact ⟨⟨⟨⟨⟨decoded_of_mem_widthCast, decoded_of_mem_compare⟩, decoded_of_mem_bitwise⟩, decoded_of_mem_arithmetic⟩,
    decoded_of_mem_conversion⟩, decoded_of_mem_codec⟩

/-- The table has a row for the opcode of every command. -/
theorem op_mem_opcodeTable (i : Instr) : (encodeFields i).op ∈ opcodeTable.map OpcodeRow.op := by
  cases i <;> simp only [encodeFields] <;> decide

/-- A descriptor that decodes spells the row of its opcode. -/
theorem exists_spells_of_decode {d : Descriptor} {i : Instr} (h : decode d = .ok i) :
    ∃ row ∈ opcodeTable, row.spells d = true := by
  obtain ⟨-, he⟩ := encodeFields_of_decodeFields h
  obtain ⟨row, hrow, ho⟩ := List.mem_map.1 (op_mem_opcodeTable i)
  rw [he] at ho
  exact ⟨row, hrow, ((decoded_of_mem_opcodeTable row hrow).spells_iff d).2 ⟨ho.symm, i, h⟩⟩

/-- Settles O4: a row that is spelled has the opcode that the decoder read, and every opcode it reads has a row. -/
theorem decoderMatchesOpcodeTable : Obligations.DecoderMatchesOpcodeTable := by
  intro d
  split
  next i hd =>
    refine ⟨exists_spells_of_decode hd, fun row hrow hs => ?_⟩
    have hdec := decoded_of_mem_opcodeTable row hrow
    exact hdec.mnemonic ((hdec.spells_iff d).1 hs).1 hd
  next e hd =>
    refine fun row hrow => Bool.eq_false_iff.2 fun hs => ?_
    obtain ⟨-, i, hi⟩ := ((decoded_of_mem_opcodeTable row hrow).spells_iff d).1 hs
    cases hd.symm.trans hi

/-- Settles O5: such a descriptor decodes to no command, because one that does spells a row. -/
theorem illegalDescriptorRaises : Obligations.IllegalDescriptorRaises := by
  intro d s h
  cases hd : decode d with
  | ok i =>
    obtain ⟨row, hrow, hs⟩ := exists_spells_of_decode hd
    cases (h row hrow).symm.trans hs
  | error e => exact Machine.issue_of_illegal hd s

/-! ### The assembler -/

/-- The assembler refuses a command that is not well-formed. -/
theorem Assembler.wellFormed_of_line {l : List Char} {i : Instr} (h : Assembler.line l = some i) :
    i.wellFormed = true := by
  simp only [Assembler.line] at h
  split at h
  · split at h <;> cases h
    assumption
  · cases h

/-- Settles O7: an accepted line names a well-formed command. -/
theorem assembledLinesAreLegal : Obligations.AssembledLinesAreLegal := fun _ _ h =>
  decode_encode (Assembler.wellFormed_of_line h)

/-! ### Samples -/

/-- Settles O1, by running the decoder on the nine words. -/
theorem sampleDescriptorsDecode : Obligations.SampleDescriptorsDecode := by
  unfold Obligations.SampleDescriptorsDecode
  decide

/-- Settles O6, by running the assembler on the thirteen lines. -/
theorem assemblerSamples : Obligations.AssemblerSamples := by
  unfold Obligations.AssemblerSamples
  decide

end Sys2Proof

/-!
The statements of 40_common: the order of the checks before an operation (R100, R103, R104, R223), the coercion of the
second operand (R105) and the bytes that no flag reaches (R108). `exec_reports` runs every command along the list
`checks`, one lemma for each kind of check; the statements about errors are read off it.
-/
namespace Sys2Proof.Machine

/-! ### The order of the checks -/

/-- The outcome `o` of a command issued in `s` is the error of the first of the checks `cs` that fails, and a success if
none does. -/
def Reports (s : State) (cs : List (Bool × Error)) (o : Host.Outcome State Fault Refusal) : Prop :=
  match (cs.find? fun c => c.1).map fun c => c.2 with
  | some e => o = .next (s.raise e)
  | none   => ∃ t : State, o = .next t.succeed

theorem Reports.of_firstError {s : State} {i : Instr} {o : Host.Outcome State Fault Refusal} {e : Error}
    (h : Reports s (checks s i) o) (he : firstError s i = some e) : o = .next (s.raise e) := by
  unfold firstError at he
  simpa only [Reports, he] using h

theorem Reports.of_no_firstError {s : State} {i : Instr} {o : Host.Outcome State Fault Refusal}
    (h : Reports s (checks s i) o) (he : firstError s i = none) : ∃ t : State, o = .next t.succeed := by
  unfold firstError at he
  simpa only [Reports, he] using h

section
variable {s : State} {cs : List (Bool × Error)}

/-- A command with no check left succeeds. -/
theorem Reports.done {t : State} : Reports s [] (s.finish (.ok t)) := ⟨t, rfl⟩

/-- A check that a command has no part in. -/
theorem Reports.pass {e : Error} {o : Host.Outcome State Fault Refusal} (h : Reports s cs o) :
    Reports s ((false, e) :: cs) o := h

/-- A check made by the first step of a command. -/
theorem Reports.check {α : Type} {b : Bool} {e : Error} {r : Except Error α} {k : α → Except Error State}
    (hbad : b = true → r = .error e) (hok : b = false → ∃ x, r = .ok x ∧ Reports s cs (s.finish (k x))) :
    Reports s ((b, e) :: cs) (s.finish (r >>= k)) := by
  cases b with
  | true => exact s.finish_bind_of_error (hbad rfl) k
  | false =>
    obtain ⟨x, hx, hk⟩ := hok rfl
    rw [s.finish_bind_of_ok hx]
    exact hk

/-- `Reports.check`, of a check that a decidable condition fails. -/
theorem Reports.check_not {α : Type} {p : Prop} [Decidable p] {e : Error} {r : Except Error α} {x : α}
    {k : α → Except Error State} (hbad : ¬p → r = .error e) (hok : p → r = .ok x)
    (h : p → Reports s cs (s.finish (k x))) : Reports s ((decide ¬p, e) :: cs) (s.finish (r >>= k)) :=
  .check (fun hb => hbad (of_decide_eq_true hb)) fun hb =>
    have hp : p := not_not.1 (of_decide_eq_false hb)
    ⟨x, hok hp, h hp⟩

/-- The width (R103). -/
theorem Reports.width {n : BitVec 16} {k : Nat → Except Error State}
    (h : s.LegalWidth n → Reports s cs (s.finish (k (n.toNat / 8)))) :
    Reports s ((decide ¬s.LegalWidth n, .invalidWidth) :: cs) (s.finish (s.widthOf n >>= k)) :=
  .check_not State.widthOf_bad State.widthOf_ok h

/-- One source register (R104). -/
theorem Reports.operand {ra : Reg} {k : IntVal → Except Error State}
    (h : ∀ a, s.v.get ra = some a → Reports s cs (s.finish (k a))) :
    Reports s (([ra].any fun r => (s.v.get r).isNone, .invalidOperand) :: cs)
      (s.finish (s.operand ra >>= k)) := by
  refine .check (fun hb => State.operand_of_none (by simpa using hb)) fun hb => ?_
  obtain ⟨a, ha⟩ : ∃ a, s.v.get ra = some a := Option.isSome_iff_exists.1 (by simpa using hb)
  exact ⟨a, State.operand_of_some ha, h a ha⟩

/-- Two source registers (R104). -/
theorem Reports.operands {ra rb : Reg} {k : IntVal × IntVal → Except Error State}
    (h : ∀ a b, s.v.get ra = some a → s.v.get rb = some b → Reports s cs (s.finish (k (a, b.coerce a.nb)))) :
    Reports s (([ra, rb].any fun r => (s.v.get r).isNone, .invalidOperand) :: cs)
      (s.finish (s.operands ra rb >>= k)) := by
  refine .check (fun hb => State.operands_of_empty (by simpa using hb)) fun hb => ?_
  obtain ⟨hsomea, hsomeb⟩ : (s.v.get ra).isSome ∧ (s.v.get rb).isSome := by simpa using hb
  obtain ⟨a, ha⟩ := Option.isSome_iff_exists.1 hsomea
  obtain ⟨b, hb⟩ := Option.isSome_iff_exists.1 hsomeb
  exact ⟨_, State.operands_of_some ha hb, h a b ha hb⟩

/-- The radix (R100 step 4). -/
theorem Reports.radix {x : BitVec 8} {k : Nat → Except Error State}
    (h : LegalRadix x → Reports s cs (s.finish (k x.toNat))) :
    Reports s ((decide ¬LegalRadix x, .radixOutOfRange) :: cs) (s.finish (radixOf x >>= k)) :=
  .check_not radixOf_bad radixOf_ok h

/-- The range of a read of BUF (R55). -/
theorem Reports.load {addr : BitVec 16} {n : Nat} {k : List Byte → Except Error State}
    (h : Reports s cs (s.finish (k (s.bufBytes addr.toNat n)))) :
    Reports s ((decide ¬s.InRange addr.toNat n, .bufRange) :: cs) (s.finish (s.load addr n >>= k)) :=
  .check_not State.load_bad State.load_ok fun _ => h

/-- The range of the bytes `bs` that `i` stores in BUF (R55). -/
theorem Reports.store {i : Instr} {addr : BitVec 16} {bs : List Byte} {w : Word}
    (hs : stores s i = some (addr.toNat, bs)) :
    Reports s [((stores s i).any fun p => decide ¬s.InRange p.1 p.2.length, .bufRange)]
      (s.finish (s.store addr bs >>= fun t => pure (t.setRes w))) := by
  rw [hs]
  exact .check_not State.store_bad State.store_ok fun _ => .done

/-- The divisor (R165). -/
theorem Reports.divisor {i : Instr} {a b : IntVal} {k : IntVal × IntVal → Except Error State}
    (hz : zeroDivisor s i = (b.ubits % 2 ^ a.width == 0)) (h : ∀ x, Reports s cs (s.finish (k x))) :
    Reports s ((zeroDivisor s i, .divisionByZero) :: cs) (s.finish (a.divmod (b.coerce a.nb) >>= k)) := by
  have hb : zeroDivisor s i = (b.coerce a.nb).isZero := by rw [hz, IntVal.isZero, IntVal.coerce_ubits]; rfl
  rw [hb]
  exact .check (fun hb => if_pos hb) fun hb => ⟨_, if_neg (by simp [hb]), h _⟩

/-- The text of a `PARSE` (R190). -/
theorem Reports.text {nb radix : Nat} {u : Bool} {t : List Byte} {k : IntVal → Except Error State}
    (hr : 2 ≤ radix) (h : ∀ x, Reports s cs (s.finish (k x))) :
    Reports s (((textValue radix t).isNone, .invalidDigit) :: cs) (s.finish (parse nb u radix t >>= k)) := by
  rw [parse_eq nb u hr]
  cases textValue radix t with
  | none => exact .check (fun _ => rfl) nofun
  | some z => exact .check nofun fun _ => ⟨_, rfl, h _⟩

end

/-- Every command makes its checks in the order of R223 and reports the first that fails. -/
theorem exec_reports {i : Instr} (hi : i.wellFormed = true) (s : State) : Reports s (checks s i) (exec i s) := by
  cases i with
  | ldc | fromint => exact .width fun _ => .done
  | cast => exact .width fun _ => .operand fun _ _ => .done
  | cmp | eq | ne | lt | le | gt | ge | and | or | xor | add | sub | mul =>
    exact .pass <| .operands fun _ _ _ _ => .done
  | not | shl | shr | shru | isset | setbit | bitlen | neg | abs | toint =>
    exact .pass <| .operand fun _ _ => .done
  | div rd ra rb | mod rd ra rb =>
    refine .pass <| .operands fun a b ha hb => .pass <| .pass <| .divisor ?_ fun _ => .done
    simp only [zeroDivisor, ha, hb]
  | divmod rd rd2 ra rb =>
    have hne : rd ≠ rd2 := by simpa [Instr.wellFormed] using hi
    show Reports s _ (execDivmod rd rd2 ra rb s)
    rw [execDivmod, if_neg hne]
    refine .pass <| .operands fun a b ha hb => .pass <| .pass <| .divisor ?_ fun _ => .done
    simp only [zeroDivisor, ha, hb]
  | fromw | fromb => exact .width fun _ => .pass <| .pass <| .load .done
  | parse =>
    exact .width fun _ => .pass <| .radix fun hr => .load <| .pass <| .text hr.1 fun _ => .done
  | tow | tob | dbg =>
    exact .pass <| .operand fun a ha => .pass <| .pass <| .pass <| .pass <| .store (by simp [stores, ha])
  | fmt =>
    exact .pass <| .operand fun a ha => .radix fun _ => .pass <| .pass <| .pass <| .store (by simp [stores, ha])
  | clre => exact .done (s := s)

/-- The width is the first check and the sources are the second. -/
theorem firstError_of_emptySource {s : State} {i : Instr} {r : Reg} (hr : r ∈ sources i) (he : s.v.get r = none)
    (hw : ∀ n, widthField i = some n → s.LegalWidth n) : firstError s i = some .invalidOperand := by
  have hwidth : (widthField i).any (fun n => decide ¬s.LegalWidth n) = false := by
    cases h : widthField i with
    | none => rfl
    | some n => exact decide_eq_false (not_not.2 (hw n h))
  have hsource : emptySource s i = true := List.any_eq_true.2 ⟨r, hr, by rw [he]; rfl⟩
  rw [firstError, checks, hwidth, hsource]; rfl

/-! ### The width of the result -/

/-- The commands with a width field, by their mnemonics (R103). -/
theorem widthField_isSome_iff_mnemonic (i : Instr) :
    (widthField i).isSome = true ↔ i.mnemonic ∈ ["LDC", "CAST", "FROMINT", "FROMW", "FROMB", "PARSE"] := by
  cases i <;> simp [widthField, Instr.mnemonic]

/-- Where the steps `r` of a command succeed, they write to `rd` a value of `w` bits and do nothing else. -/
def WritesWidth (s : State) (rd : Reg) (w : Nat) (r : Except Error State) : Prop :=
  ∀ t, r = .ok t → ∃ x : IntVal, t = s.setV rd x ∧ x.width = w

section
variable {s : State} {rd : Reg} {w : Nat}

theorem WritesWidth.write {x : IntVal} {nb : Nat} (hw : 8 * nb = w) (hx : x.nb = nb) :
    WritesWidth s rd w (.ok (s.setV rd x)) := by
  rintro t ⟨⟩
  exact ⟨x, rfl, by rw [IntVal.width, hx, hw]⟩

theorem WritesWidth.bind {α : Type} {r : Except Error α} {k : α → Except Error State}
    (h : ∀ x, r = .ok x → WritesWidth s rd w (k x)) : WritesWidth s rd w (r >>= k) := by
  cases r with
  | ok x => exact h x rfl
  | error e => exact nofun

/-- The check of the width: past it the width is that of a positive number of bytes (R103). -/
theorem WritesWidth.width {n : BitVec 16} {k : Nat → Except Error State}
    (h : ∀ nb, 0 < nb → 8 * nb = n.toNat → WritesWidth s rd w (k nb)) : WritesWidth s rd w (s.widthOf n >>= k) := by
  refine .bind fun nb hnb => ?_
  by_cases hn : s.LegalWidth n
  · cases (State.widthOf_ok hn).symm.trans hnb
    exact h _ hn.div.2 hn.div.1
  · cases (State.widthOf_bad hn).symm.trans hnb

end

theorem two_le_of_radixOf {x : BitVec 8} {r : Nat} (h : radixOf x = .ok r) : 2 ≤ r := by
  by_cases hx : LegalRadix x
  · cases (radixOf_ok hx).symm.trans h
    exact hx.1
  · cases (radixOf_bad hx).symm.trans h

/-- A command with a width field writes a value of that width to its one destination. -/
theorem exec_of_widthField {i : Instr} {n : BitVec 16} (h : widthField i = some n) (s : State) :
    ∃ rd r, dests i = [rd] ∧ exec i s = s.finish r ∧ WritesWidth s rd n.toNat r := by
  cases i with
  | ldc rd _ c =>
    cases h
    exact ⟨rd, _, rfl, rfl, .width fun _ hpos hw => .write hw (constant_nb hpos c)⟩
  | cast rd =>
    cases h
    exact ⟨rd, _, rfl, rfl, .width fun _ _ hw => .bind fun _ _ => .write hw (IntVal.cast_nb _ _ _)⟩
  | fromint rd =>
    cases h
    exact ⟨rd, _, rfl, rfl, .width fun _ _ hw => .write hw (fromMachineInt_nb _ _ _)⟩
  | fromw rd | fromb rd =>
    cases h
    exact ⟨rd, _, rfl, rfl, .width fun _ _ hw => .bind fun _ _ => .write hw (IntVal.fromBytes_nb _ _ _)⟩
  | parse rd =>
    cases h
    exact ⟨rd, _, rfl, rfl, .width fun _ _ hw => .bind fun _ hr => .bind fun _ _ => .bind fun _ hx =>
      .write hw (parse_nb (two_le_of_radixOf hr) hx)⟩
  | _ => cases h

/-- A command with a width field that succeeds leaves a value of that width in its destination. -/
theorem exec_dest_width {i : Instr} {s t : State} {n : BitVec 16} (h : widthField i = some n)
    (ht : exec i s = .next t) (hok : t.status.err = 0) {r : Reg} (hr : r ∈ dests i) :
    ∃ x, t.v.get r = some x ∧ x.width = n.toNat := by
  obtain ⟨rd, steps, hdest, hexec, hwrites⟩ := exec_of_widthField h s
  obtain rfl : r = rd := by simpa [hdest] using hr
  rcases s.finish_cases steps with ⟨u, hu, hfin⟩ | ⟨e, -, hfin⟩ <;> cases ht.symm.trans (hexec.trans hfin)
  · obtain ⟨x, rfl, hx⟩ := hwrites u hu
    exact ⟨x, get_set_self _ _ _, hx⟩
  · exact absurd hok e.code_ne_zero

/-! ### The bytes that no flag reaches -/

/-- Two outcomes leave values with the same bytes in `rd`. -/
def SameBytes (rd : Reg) (o o' : Host.Outcome State Fault Refusal) : Prop :=
  ∃ t t' y y', o = .next t ∧ o' = .next t' ∧ t.v.get rd = some y ∧ t'.v.get rd = some y' ∧ y.bytes = y'.bytes

/-- The register `r` holds the same bytes in both states, under any flags. -/
def Retagged (s s' : State) (r : Reg) : Prop := ∃ x u, s.v.get r = some x ∧ s'.v.get r = some (x.retag u)

theorem sameBytes_setV {s s' : State} {rd : Reg} {x x' : IntVal} (h : x.bytes = x'.bytes) :
    SameBytes rd (s.finish (.ok (s.setV rd x))) (s'.finish (.ok (s'.setV rd x'))) :=
  ⟨_, _, x, x', rfl, rfl, get_set_self _ _ _, get_set_self _ _ _, h⟩

theorem sameBytes_unary {op : IntVal → IntVal} (hop : ∀ x u, (op x).bytes = (op (x.retag u)).bytes)
    {s s' : State} {ra : Reg} (ha : Retagged s s' ra) (rd : Reg) :
    SameBytes rd (s.finish (unaryCommand op rd ra s)) (s'.finish (unaryCommand op rd ra s')) := by
  obtain ⟨x, u, hx, hx'⟩ := ha
  rw [unaryCommand_ok hx, unaryCommand_ok hx']
  exact sameBytes_setV (hop x u)

theorem sameBytes_binary {op : IntVal → IntVal → IntVal}
    (hop : ∀ x y u w, (op x y).bytes = (op (x.retag u) (y.retag w)).bytes) {s s' : State} {ra rb : Reg}
    (ha : Retagged s s' ra) (hb : Retagged s s' rb) (rd : Reg) :
    SameBytes rd (s.finish (binaryCommand op rd ra rb s)) (s'.finish (binaryCommand op rd ra rb s')) := by
  obtain ⟨x, u, hx, hx'⟩ := ha
  obtain ⟨y, w, hy, hy'⟩ := hb
  rw [binaryCommand_ok hx hy, binaryCommand_ok hx' hy']
  exact sameBytes_setV (hop x (y.coerce x.nb) u w)

theorem IntVal.setBit_retag (a : IntVal) (i : Nat) (bv u : Bool) :
    (a.retag u).setBit i bv = (a.setBit i bv).retag u := by
  by_cases h : a.width ≤ i
  · rw [IntVal.setBit, IntVal.setBit, if_pos h]
    exact if_pos h
  · rw [IntVal.setBit, IntVal.setBit, if_neg h]
    refine (if_neg h).trans ?_
    cases bv <;> rfl

/-! ### The obligations -/

/-- Settles O16: every command makes its checks in the order of the list. -/
theorem firstErrorIsReported : Obligations.FirstErrorIsReported := by
  intro i s hi
  have h := exec_reports hi s
  split
  next e he => exact h.of_firstError he
  next he =>
    obtain ⟨t, ht⟩ := h.of_no_firstError he
    refine ⟨_, ht, rfl, ?_⟩
    rcases exec_next ht with ⟨e, heq⟩ | ⟨w, hw, heq⟩
    · exact absurd (congrArg (fun u : State => u.status.err) heq).symm e.code_ne_zero
    · rw [heq]; exact hw.ef

/-- Settles O15: a command ends with an error or with its writes. -/
theorem everyCommandCompletes : Obligations.EveryCommandCompletes := by
  intro i s
  rcases exec_cases i s with ⟨e, he⟩ | ⟨w, -, hw⟩
  · exact ⟨_, he⟩
  · exact ⟨_, hw⟩

/-- Settles O26: the width is the first check, and what passes it is written at that width. -/
theorem illegalWidthRaises : Obligations.IllegalWidthRaises :=
  ⟨widthField_isSome_iff_mnemonic, fun _ _ _ h hn => exec_of_illegal_width h hn,
    fun _ _ _ _ h ht hok _ hr => exec_dest_width h ht hok hr⟩

/-- Settles O27: after the width, the sources are the first check. -/
theorem emptySourceRaises : Obligations.EmptySourceRaises := fun _ s _ hi hr he hw =>
  (exec_reports hi s).of_firstError (firstError_of_emptySource hr he hw)

/-- Settles O31: the second operand is built from the source's bytes at the receiver's byte count. -/
theorem coercionTruncatesOrPads : Obligations.CoercionTruncatesOrPads := by
  intro s ra rb a b ha hb
  refine ⟨_, State.operands_of_some ha hb, b.coerce_nb a.nb, rfl, fun i hi => ?_, fun h => ?_, b.coerce_ubits a.nb⟩
  · refine (IntVal.fromBytes_byteAt _ _ hi).trans ?_
    split
    next => rfl
    next h => exact IntVal.byteAt_of_le (Nat.le_of_not_lt h)
  · rw [← h]; exact b.fromBytes_bytes

/-- Settles O50: none of the operations reads a flag but to hand it on. -/
theorem bytesIgnoreFlags : Obligations.BytesIgnoreFlags := by
  intro s s' i rd hi hrd hs
  have hret : ∀ r ∈ sources i, Retagged s s' r := hs
  cases i with
  | not | shl | shru | neg =>
    obtain rfl := List.mem_singleton.1 hrd
    exact sameBytes_unary (fun _ _ => rfl) (hret _ (by simp [sources])) _
  | setbit =>
    obtain rfl := List.mem_singleton.1 hrd
    exact sameBytes_unary (fun x u => by rw [IntVal.setBit_retag]; rfl) (hret _ (by simp [sources])) _
  | and | or | xor | add | sub | mul =>
    obtain rfl := List.mem_singleton.1 hrd
    exact sameBytes_binary (fun _ _ _ _ => rfl) (hret _ (by simp [sources])) (hret _ (by simp [sources])) _
  | _ => simp [Instr.mnemonic] at hi

end Sys2Proof.Machine

/-!
The statements about the width factory: the constants of `LDC`, by the number their bits spell and the sign they have
under their flag, and the sign-aware `CAST`, whose bits are those of `val(a)` (`IntVal.cast_ubits`) and which therefore
keeps the value wherever the new width holds it.
-/
namespace Sys2Proof.Machine

/-! ### The value of bits below and at the top bit -/

/-- Under either flag, a value whose top bit is clear denotes the number its bits spell (R7). -/
theorem IntVal.val_of_ubits_lt {v : IntVal} (h : v.ubits < 2 ^ (v.width - 1)) : v.val = v.ubits :=
  IntVal.val_of_not_neg (Bool.eq_false_iff.2 fun hneg => (v.isNeg_iff.1 hneg).2.2.not_gt h)

/-- Bytes whose number stays below the top bit keep it, under either flag. -/
theorem IntVal.fromBytes_val {nb : Nat} {bs : List Byte} (u : Bool) (h : natOfBytes bs < 2 ^ (8 * nb - 1)) :
    (IntVal.fromBytes nb bs u).val = natOfBytes bs := by
  have hw : (IntVal.fromBytes nb bs u).width = 8 * nb := by rw [IntVal.width, IntVal.fromBytes_nb]
  have hlt : natOfBytes bs < 2 ^ (8 * nb) := h.trans_le (Nat.pow_le_pow_right (by norm_num) (by omega))
  have hbits : (IntVal.fromBytes nb bs u).ubits = natOfBytes bs := by
    rw [IntVal.fromBytes_ubits, Nat.mod_eq_of_lt hlt]
  rw [IntVal.val_of_ubits_lt (by rwa [hw, hbits]), hbits]

/-- A signed value whose top bit is set denotes the number its bits spell less `2^N` (R7). -/
theorem IntVal.val_of_le_ubits {v : IntVal} (hu : v.unsigned = false) (hn : 0 < v.nb)
    (h : 2 ^ (v.width - 1) ≤ v.ubits) : v.val = v.ubits - 2 ^ v.width :=
  IntVal.val_of_neg (v.isNeg_iff.2 ⟨hu, hn, h⟩)

/-- A signed value lies in the range of every width that is not narrower than its own. -/
theorem IntVal.val_range_of_width_le {v : IntVal} (hu : v.unsigned = false) {n : Nat} (hw : v.width ≤ n) :
    -2 ^ (n - 1) ≤ v.val ∧ v.val < 2 ^ (n - 1) := by
  have hle : (2 : Int) ^ (v.width - 1) ≤ 2 ^ (n - 1) := pow_le_pow_right₀ (by norm_num) (by omega)
  rcases Nat.eq_zero_or_pos v.nb with hnb | hnb
  · have hbits : v.ubits = 0 := by simpa [IntVal.width, hnb] using v.ubits_lt
    have hpos : (0 : Int) < 2 ^ (n - 1) := by positivity
    rw [v.val_zero_iff.2 hbits]; omega
  · obtain ⟨hlo, hhi⟩ := IntVal.val_range hu hnb
    omega

/-! ### The constants -/

/-- The number each constant of width `n` denotes (R121). -/
def constantValue (n : Nat) : ConstId → Int
  | .zero | .uzero    => 0
  | .one | .uone      => 1
  | .minValue         => -2 ^ (n - 1)
  | .maxValue         => 2 ^ (n - 1) - 1
  | .maxUnsignedValue => 2 ^ n - 1
  | .negOne           => -1

theorem natOfBytes_maxBytes {nb : Nat} (h : 0 < nb) :
    natOfBytes (List.replicate (nb - 1) 0xff ++ [0x7f]) = 2 ^ (8 * nb - 1) - 1 := by
  have hsplit : 2 ^ (8 * nb - 1) = 2 ^ (8 * (nb - 1)) * 2 ^ 7 := by rw [← pow_add]; congr 1; omega
  have hpos : 0 < 2 ^ (8 * (nb - 1)) := by positivity
  have hones : natOfBytes (List.replicate (nb - 1) (0xff : Byte)) = 2 ^ (8 * (nb - 1)) - 1 := natOfBytes_ones _
  rw [natOfBytes_append, hones, List.length_replicate, hsplit]
  simp only [natOfBytes_cons, natOfBytes_nil, show (0x7f : Byte).toNat = 127 from rfl]
  omega

theorem constant_unsigned (nb : Nat) (c : ConstId) :
    (constant nb c).unsigned = decide (c = .uzero ∨ c = .uone ∨ c = .maxUnsignedValue) := by
  cases c <;> rfl

theorem constant_width {nb : Nat} (h : 0 < nb) (c : ConstId) : (constant nb c).width = 8 * nb := by
  rw [IntVal.width, constant_nb h]

theorem constant_val {nb : Nat} (h : 0 < nb) (c : ConstId) : (constant nb c).val = constantValue (8 * nb) c := by
  have hw := constant_width h c
  have hnb := constant_nb h c
  have hhalf : 1 < 2 ^ (8 * nb - 1) := Nat.one_lt_two_pow (by omega)
  have hfull : 2 ^ (8 * nb) = 2 * 2 ^ (8 * nb - 1) := by rw [← pow_succ']; congr 1; omega
  cases c with
  | zero | uzero => exact IntVal.fromBytes_val _ (Nat.zero_lt_of_lt hhalf)
  | one | uone => exact IntVal.fromBytes_val _ hhalf
  | minValue =>
    have hbits : (constant nb .minValue).ubits = 2 ^ (8 * nb - 1) := minBytes_ubits h
    rw [IntVal.val_of_le_ubits rfl (by omega) (by rw [hw, hbits]), hbits, hw, constantValue]
    zify at hfull; push_cast; omega
  | maxValue =>
    have hbits : (constant nb .maxValue).ubits = 2 ^ (8 * nb - 1) - 1 := natOfBytes_maxBytes h
    rw [IntVal.val_of_ubits_lt (by rw [hw, hbits]; omega), hbits, constantValue]
    push_cast [hhalf.le]; rfl
  | maxUnsignedValue =>
    have hbits : (constant nb .maxUnsignedValue).ubits = 2 ^ (8 * nb) - 1 := natOfBytes_ones nb
    rw [IntVal.val_of_unsigned rfl, hbits, constantValue]
    push_cast [Nat.one_le_two_pow]; rfl
  | negOne =>
    have hbits : (constant nb .negOne).ubits = 2 ^ (8 * nb) - 1 := natOfBytes_ones nb
    rw [IntVal.val_of_le_ubits rfl (by omega) (by rw [hw, hbits]; omega), hbits, hw, constantValue]
    push_cast [Nat.one_le_two_pow]; ring

/-- `LDC` at a legal width. -/
theorem exec_ldc_of {s : State} {n : BitVec 16} (hn : s.LegalWidth n) (rd : Reg) (c : ConstId) :
    exec (.ldc rd n c) s = .next (s.wroteV rd (constant (n.toNat / 8) c)) := by
  show execLdc _ _ _ _ = _
  rw [execLdc, State.finish_bind_of_ok (State.widthOf_ok hn)]; rfl

/-! ### The cast -/

theorem IntVal.cast_width (a : IntVal) (nb : Nat) (u : Bool) : (a.cast nb u).width = 8 * nb := by
  rw [IntVal.width, IntVal.cast_nb]

/-- A cast that keeps the flag, to a width that is not narrower, keeps the value (R123). -/
theorem IntVal.cast_val {a : IntVal} {nb : Nat} (hnb : 0 < nb) (hw : a.width ≤ 8 * nb) :
    (a.cast nb a.unsigned).val = a.val := by
  have hbits : ((a.cast nb a.unsigned).ubits : Int) = a.val % 2 ^ (a.cast nb a.unsigned).width := by
    rw [IntVal.cast_ubits, IntVal.cast_width]
  cases hu : a.unsigned with
  | true =>
    rw [hu] at hbits
    refine IntVal.val_eq_unsigned (IntVal.cast_unsigned _ _ _) hbits ?_ (a.val_lt.trans_le ?_)
    · rw [IntVal.val_of_unsigned hu]; positivity
    · rw [IntVal.cast_width]; exact pow_le_pow_right₀ (by norm_num) hw
  | false =>
    rw [hu] at hbits
    obtain ⟨hlo, hhi⟩ := IntVal.val_range_of_width_le hu hw
    exact IntVal.val_eq_signed (IntVal.cast_unsigned _ _ _) (by rwa [IntVal.cast_nb]) hbits
      (by rwa [IntVal.cast_width]) (by rwa [IntVal.cast_width])

/-- `CAST` of a value at a legal width. -/
theorem exec_cast_of {s : State} {ra : Reg} {a : IntVal} {n : BitVec 16} (hn : s.LegalWidth n)
    (ha : s.v.get ra = some a) (rd : Reg) (mode : Option Bool) : exec (.cast rd ra mode n) s =
      .next (s.wroteV rd (a.cast (n.toNat / 8) (signMode mode a.unsigned))) := by
  show execCast _ _ _ _ _ = _
  rw [execCast, State.finish_bind_of_ok (State.widthOf_ok hn), State.finish_bind_of_ok (State.operand_of_some ha)]; rfl

/-! ### The obligations -/

/-- Settles O29: what passes the width check is written, and the constants are valued one by one. -/
theorem ldcWritesTheConstant : Obligations.LdcWritesTheConstant := by
  intro s rd n c hn
  obtain ⟨hwidth, hpos⟩ := hn.div
  refine ⟨_, (constant_width hpos c).trans hwidth, constant_unsigned _ c, ?_, exec_ldc_of hn rd c⟩
  rw [constant_val hpos, hwidth]
  cases c <;> rfl

/-- Settles O30: the bits of the cast are those of the source's value, which a width not narrower holds. -/
theorem castKeepsTheValue : Obligations.CastKeepsTheValue := by
  intro s rd ra mode n a hn ha
  obtain ⟨hwidth, hpos⟩ := hn.div
  refine ⟨_, (IntVal.cast_width _ _ _).trans hwidth, ?_, ?_, fun hle hu => ?_, exec_cast_of hn ha rd mode⟩
  · cases mode <;> exact IntVal.cast_unsigned _ _ _
  · rw [IntVal.cast_ubits, hwidth]
  · rw [IntVal.cast_unsigned] at hu
    rw [hu, IntVal.cast_val hpos (hle.trans_eq hwidth.symm)]

end Sys2Proof.Machine

/-!
The statements about the comparator: `CMP` and the six predicates write a number that depends on `compare(a, b)` alone
(`finish_compareCommand`, `finish_predicate`), and `compare(a, b)` is the order of the numbers denoted
(`IntVal.compare_eq`).
-/
namespace Sys2Proof.Machine

/-! ### What the comparison is -/

/-- The comparison of two operands of one width, result by result (R137). -/
theorem IntVal.compare_lt_iff {a b : IntVal} (h : a.nb = b.nb) : a.compare b = .lt ↔ a.val < b.val := by
  rw [IntVal.compare_eq h, compare_lt_iff_lt]

theorem IntVal.compare_eq_iff {a b : IntVal} (h : a.nb = b.nb) : a.compare b = .eq ↔ a.val = b.val := by
  rw [IntVal.compare_eq h, compare_eq_iff_eq]

theorem IntVal.compare_gt_iff {a b : IntVal} (h : a.nb = b.nb) : a.compare b = .gt ↔ b.val < a.val := by
  rw [IntVal.compare_eq h, compare_gt_iff_gt]

theorem IntVal.compare_ne_gt_iff {a b : IntVal} (h : a.nb = b.nb) : a.compare b ≠ .gt ↔ a.val ≤ b.val := by
  rw [Ne, IntVal.compare_gt_iff h, not_lt]

theorem IntVal.compare_ne_lt_iff {a b : IntVal} (h : a.nb = b.nb) : a.compare b ≠ .lt ↔ b.val ≤ a.val := by
  rw [Ne, IntVal.compare_lt_iff h, not_lt]

theorem compareBytes_self (bs : List Byte) : compareBytes bs bs = .eq :=
  (compareBytes_eq rfl).trans (compare_eq_iff_eq.2 rfl)

/-- Of equal bytes under different flags only the signed operand can be negative, and it is when the high bit is set:
they are equal just when that bit is clear (R131). -/
theorem IntVal.compare_eq_iff_of_bytes_eq {a b : IntVal} (hbytes : a.bytes = b.bytes) (hu : a.unsigned ≠ b.unsigned) :
    a.compare b = .eq ↔ a.bit (a.width - 1) = false := by
  have hbit : b.bit (b.width - 1) = a.bit (a.width - 1) := by
    simp only [IntVal.bit, IntVal.byteAt, IntVal.width, IntVal.nb, hbytes]
  have hneg : (a.isNeg != b.isNeg) = a.bit (a.width - 1) := by
    rw [IntVal.isNeg, IntVal.isNeg, hbit, Bool.eq_not_of_ne hu.symm]
    cases a.unsigned <;> simp
  rw [IntVal.compare, hneg, ← hbytes, compareBytes_self]
  cases a.bit (a.width - 1) with
  | false => simp
  | true => cases a.isNeg <;> simp

/-! ### What the seven commands write -/

theorem boolWord_of_iff {t : Bool} {p : Prop} [Decidable p] (h : t = true ↔ p) :
    boolWord t = if p then 1 else 0 := by
  rw [boolWord, if_congr h rfl rfl]

/-- The number `CMP` writes, of integers in their order (R130). -/
theorem orderWord_compare (x y : Int) :
    orderWord (Ord.compare x y) = if x < y then 0xffffffff else if x = y then 0 else 1 := by
  rcases lt_trichotomy x y with h | h | h
  · rw [compare_lt_iff_lt.2 h, if_pos h]; rfl
  · rw [compare_eq_iff_eq.2 h, if_neg h.not_lt, if_pos h]; rfl
  · rw [compare_gt_iff_gt.2 h, if_neg h.not_gt, if_neg h.ne']; rfl

section
variable {s : State} {ra rb : Reg} {a b : IntVal}

/-- A command of the comparator whose sources hold values writes its number and nothing else. -/
theorem finish_compareCommand (ha : s.v.get ra = some a) (hb : s.v.get rb = some b) (f : Ordering → Word) :
    s.finish (compareCommand f ra rb s) = .next (s.wroteRes (f (a.compare (b.coerce a.nb)))) := by
  rw [compareCommand_ok ha hb, State.finish_ok, State.setRes_succeed]

/-- A predicate writes 1 where its test of the comparison says `p`, and 0 otherwise. -/
theorem finish_predicate (ha : s.v.get ra = some a) (hb : s.v.get rb = some b) {t : Ordering → Bool} {p : Prop}
    [Decidable p] (h : t (a.compare (b.coerce a.nb)) = true ↔ p) :
    s.finish (compareCommand (fun c => boolWord (t c)) ra rb s) = .next (s.wroteRes (if p then 1 else 0)) := by
  rw [finish_compareCommand ha hb, boolWord_of_iff h]

/-- `EQ` of equal bytes under different flags (R131). -/
theorem exec_eq_of_bytes_eq (ha : s.v.get ra = some a) (hb : s.v.get rb = some b) (hbytes : a.bytes = b.bytes)
    (hu : a.unsigned ≠ b.unsigned) :
    exec (.eq ra rb) s = .next (s.wroteRes (if a.bit (a.width - 1) then 0 else 1)) := by
  have hcoerce : b.coerce a.nb = b := by
    rw [IntVal.nb, hbytes]; exact b.fromBytes_bytes
  have htest : ((a.compare (b.coerce a.nb) == .eq) = true) ↔ ¬ a.bit (a.width - 1) = true := by
    rw [hcoerce, beq_iff_eq, IntVal.compare_eq_iff_of_bytes_eq hbytes hu, Bool.not_eq_true]
  refine (finish_predicate ha hb htest).trans ?_
  rw [ite_not]

end

/-! ### The obligations -/

/-- Settles O32: `CMP` writes the order of the operands' values. -/
theorem cmpLeavesTheOrder : Obligations.CmpLeavesTheOrder := by
  intro s ra rb a b ha hb
  refine (finish_compareCommand ha hb orderWord).trans ?_
  rw [IntVal.compare_eq (b.coerce_nb a.nb).symm, orderWord_compare]

/-- Settles O33: each predicate is one test of the comparison. -/
theorem predicatesTestTheComparison : Obligations.PredicatesTestTheComparison := by
  intro s ra rb a b ha hb
  exact ⟨finish_predicate ha hb beq_iff_eq, finish_predicate ha hb bne_iff_ne, finish_predicate ha hb beq_iff_eq,
    finish_predicate ha hb bne_iff_ne, finish_predicate ha hb beq_iff_eq, finish_predicate ha hb bne_iff_ne,
    exec_eq_of_bytes_eq ha hb, rfl, rfl, rfl, rfl, rfl, rfl⟩

/-- Settles O34: each test of the comparison is an order of the operands' values. -/
theorem predicatesOrderTheValues : Obligations.PredicatesOrderTheValues := by
  intro s ra rb a b ha hb
  have hnb : a.nb = (b.coerce a.nb).nb := (b.coerce_nb a.nb).symm
  exact ⟨finish_predicate ha hb (beq_iff_eq.trans (IntVal.compare_eq_iff hnb)),
    finish_predicate ha hb (bne_iff_ne.trans (IntVal.compare_eq_iff hnb).not),
    finish_predicate ha hb (beq_iff_eq.trans (IntVal.compare_lt_iff hnb)),
    finish_predicate ha hb (bne_iff_ne.trans (IntVal.compare_ne_gt_iff hnb)),
    finish_predicate ha hb (beq_iff_eq.trans (IntVal.compare_gt_iff hnb)),
    finish_predicate ha hb (bne_iff_ne.trans (IntVal.compare_ne_lt_iff hnb))⟩

end Sys2Proof.Machine

/-!
The statements about the bitwise engine. Each command is one of three shapes whose sources hold values
(`finish_unaryCommand`, `finish_binaryCommand`, `finish_scalarCommand`), so that what is left of a statement is about
the value written: its bytes for `NOT`, `AND`, `OR` and `XOR`, its bits for the shifts and the bit commands.
-/
namespace Sys2Proof.Machine

/-! ### What a command of each shape writes -/

section
variable {s : State} {ra rb : Reg} {a b : IntVal}

/-- A command of one source writes its result to the destination and nothing else. -/
theorem finish_unaryCommand (ha : s.v.get ra = some a) (op : IntVal → IntVal) (rd : Reg) :
    s.finish (unaryCommand op rd ra s) = .next (s.wroteV rd (op a)) := by
  rw [unaryCommand_ok ha, State.finish_ok, State.setV_succeed]

/-- A command of two sources applies its operation to the receiver and the coerced operand. -/
theorem finish_binaryCommand (ha : s.v.get ra = some a) (hb : s.v.get rb = some b) (op : IntVal → IntVal → IntVal)
    (rd : Reg) : s.finish (binaryCommand op rd ra rb s) = .next (s.wroteV rd (op a (b.coerce a.nb))) := by
  rw [binaryCommand_ok ha hb, State.finish_ok, State.setV_succeed]

/-- A command of one source whose result is a number writes it to RES and nothing else. -/
theorem finish_scalarCommand (ha : s.v.get ra = some a) (op : IntVal → Word) :
    s.finish (scalarCommand op ra s) = .next (s.wroteRes (op a)) := by
  rw [scalarCommand_ok ha, State.finish_ok, State.setRes_succeed]

end

/-! ### NOT -/

theorem IntVal.not_byteAt {a : IntVal} {i : Nat} (hi : i < a.nb) : a.not.byteAt i = ~~~a.byteAt i := by
  have hlen : i < a.bytes.length := hi
  simp [IntVal.byteAt, IntVal.not, hlen]

theorem IntVal.not_width (a : IntVal) : a.not.width = a.width := by
  rw [IntVal.width, IntVal.not_nb, IntVal.width]

@[simp] theorem IntVal.not_not (a : IntVal) : a.not.not = a := by
  refine IntVal.ext_ubits (by simp) rfl ?_
  have hlt := a.ubits_lt
  rw [IntVal.not_ubits, IntVal.not_width, IntVal.not_ubits]
  omega

/-- The complement of a signed value: its bits are those of `-val(a) - 1`, which the width holds (R140). -/
theorem IntVal.not_val {a : IntVal} (hn : 0 < a.nb) (hu : a.unsigned = false) : a.not.val = -a.val - 1 := by
  have hlt := a.ubits_lt
  have hbits : (a.not.ubits : Int) = (-a.val - 1) % 2 ^ a.width := by
    rw [show -a.val - 1 = -1 - a.val by ring, ← complement_mod, a.val_emod, IntVal.not_ubits]
    push_cast [show a.ubits ≤ 2 ^ a.width - 1 by omega, Nat.one_le_two_pow]
    rfl
  obtain ⟨hlo, hhi⟩ := IntVal.val_range hu hn
  exact IntVal.val_eq_signed hu (by rwa [IntVal.not_nb]) (by rwa [IntVal.not_width])
    (by rw [IntVal.not_width]; omega) (by rw [IntVal.not_width]; omega)

/-! ### AND, OR and XOR -/

/-- What `AND`, `OR` and `XOR` have in common: a command that combines the receiver's bytes with those of the coerced
operand writes a value of the receiver's width and flag, byte by byte (R141 to R143, R105, R106). -/
theorem exists_bytewise {op : IntVal → IntVal → IntVal} {f : Byte → Byte → Byte} (hf : f 0 0 = 0)
    (hop : ∀ x y : IntVal, op x y = ⟨List.zipWith f x.bytes y.bytes, x.unsigned⟩) {s : State} {ra rb : Reg}
    {a b : IntVal} (ha : s.v.get ra = some a) (hb : s.v.get rb = some b) (rd : Reg) :
    ∃ x : IntVal, x.nb = a.nb ∧ x.unsigned = a.unsigned ∧
      (∀ i, i < a.nb → x.byteAt i = f (a.byteAt i) (b.byteAt i)) ∧
      s.finish (binaryCommand op rd ra rb s) = .next (s.wroteV rd x) := by
  have hlen : a.bytes.length = (b.coerce a.nb).bytes.length := (b.coerce_nb a.nb).symm
  refine ⟨_, ?_, ?_, fun i hi => ?_, finish_binaryCommand ha hb op rd⟩ <;> rw [hop]
  · rw [IntVal.nb, List.length_zipWith, ← hlen, Nat.min_self, IntVal.nb]
  · exact (getD_zipWith hf hlen i).trans (congrArg _ (IntVal.fromBytes_byteAt b.bytes b.unsigned hi))

/-! ### The right shift of the value -/

theorem IntVal.ubits_of_width_eq_zero {v : IntVal} (h : v.width = 0) : v.ubits = 0 := by
  have hlt := v.ubits_lt
  rw [h] at hlt
  exact Nat.lt_one_iff.1 hlt

theorem IntVal.val_of_width_eq_zero {v : IntVal} (h : v.width = 0) : v.val = 0 :=
  v.val_zero_iff.2 (IntVal.ubits_of_width_eq_zero h)

theorem IntVal.shr_width (a : IntVal) (k : Nat) : (a.shr k).width = a.width := by
  rw [IntVal.width, IntVal.shr_nb, IntVal.width]

/-- `IntVal.shr_ubits` for the counts that occur: those reduced modulo a width, and any count at no width. -/
theorem IntVal.shr_shiftCount_ubits (a : IntVal) (imm : Word) :
    ((a.shr (shiftCount a imm)).ubits : Int) = a.val / 2 ^ shiftCount a imm % 2 ^ a.width := by
  rcases Nat.eq_zero_or_pos a.width with hw | hw
  · rw [IntVal.ubits_of_width_eq_zero ((a.shr_width _).trans hw), hw, pow_zero, Int.emod_one]
    rfl
  · exact IntVal.shr_ubits a (Nat.mod_lt _ hw).le

/-- Division by a positive number moves an integer towards 0, or towards -1 from below. -/
theorem ediv_between {x p : Int} (hp : 0 < p) :
    0 ≤ x ∧ 0 ≤ x / p ∧ x / p ≤ x ∨ x < 0 ∧ x ≤ x / p ∧ x / p < 0 := by
  rcases le_or_gt 0 x with hx | hx
  · exact .inl ⟨hx, Int.ediv_nonneg hx hp.le, Int.ediv_le_self p hx⟩
  · exact .inr ⟨hx, Int.le_ediv_of_mul_le hp (by nlinarith), Int.ediv_neg_of_neg_of_pos hx hp⟩

/-- A right shift denotes the floor of the quotient: it has the quotient's bits, and the quotient lies in every range
that holds `val(a)` (R145, R107). -/
theorem IntVal.shr_shiftCount_val (a : IntVal) (imm : Word) :
    (a.shr (shiftCount a imm)).val = a.val / 2 ^ shiftCount a imm := by
  have hbits := a.shr_shiftCount_ubits imm
  generalize shiftCount a imm = k at hbits ⊢
  rw [← a.shr_width k] at hbits
  have hquot := ediv_between (x := a.val) (p := 2 ^ k) (by positivity)
  cases hu : a.unsigned with
  | true =>
    have hnonneg : 0 ≤ a.val := by rw [IntVal.val_of_unsigned hu]; positivity
    have hlt := a.val_lt
    exact IntVal.val_eq_unsigned hu hbits (by omega) (by rw [IntVal.shr_width]; omega)
  | false =>
    rcases Nat.eq_zero_or_pos a.nb with hnb | hnb
    · have hw : a.width = 0 := by rw [IntVal.width, hnb]
      rw [IntVal.val_of_width_eq_zero ((a.shr_width k).trans hw), IntVal.val_of_width_eq_zero hw, Int.zero_ediv]
    · obtain ⟨hlo, hhi⟩ := IntVal.val_range hu hnb
      have hpos : (0 : Int) < 2 ^ (a.width - 1) := by positivity
      exact IntVal.val_eq_signed hu (by rwa [IntVal.shr_nb]) hbits (by rw [IntVal.shr_width]; omega)
        (by rw [IntVal.shr_width]; omega)

/-! ### One bit -/

theorem IntVal.isSet_iff (a : IntVal) (i : Nat) : a.isSet i = true ↔ i < a.width ∧ a.ubits.testBit i = true := by
  rw [IntVal.isSet, IntVal.bit_eq]
  by_cases hi : i < a.width <;> simp [hi]

theorem IntVal.setBit_of_le {a : IntVal} {i : Nat} (h : a.width ≤ i) (bv : Bool) : a.setBit i bv = a := by
  rw [IntVal.setBit, if_pos h]

/-! ### The obligations -/

/-- Settles O35: the complement, by its bytes, its bits and its value. -/
theorem notComplements : Obligations.NotComplements := fun _ rd _ a ha =>
  ⟨a.not, a.not_nb, rfl, fun _ => IntVal.not_byteAt, a.not_ubits, IntVal.not_val, a.not_not,
    finish_unaryCommand ha _ rd, rfl⟩

/-- Settles O36: the three commands combine bytes, each by its own operation on two bytes. -/
theorem andOrXorBytewise : Obligations.AndOrXorBytewise := fun _ rd _ _ _ _ ha hb =>
  ⟨exists_bytewise (op := IntVal.and) (by decide) (fun _ _ => rfl) ha hb rd,
    exists_bytewise (op := IntVal.or) (by decide) (fun _ _ => rfl) ha hb rd,
    exists_bytewise (op := IntVal.xor) (by decide) (fun _ _ => rfl) ha hb rd, rfl, rfl, rfl⟩

/-- Settles O37: the bits of both logical shifts, for every count. -/
theorem logicalShiftsScaleTheBits : Obligations.LogicalShiftsScaleTheBits := fun _ rd _ _ a ha =>
  ⟨⟨_, a.shl_nb _, rfl, a.shl_ubits _, finish_unaryCommand ha _ rd⟩,
    ⟨_, a.shru_nb _, rfl, a.shru_ubits _, finish_unaryCommand ha _ rd⟩⟩

/-- Settles O38: the floor of the quotient, by bits and by value. -/
theorem shrDividesTheValue : Obligations.ShrDividesTheValue := fun _ rd _ imm a ha =>
  ⟨_, a.shr_nb _, rfl, a.shr_shiftCount_ubits imm, a.shr_shiftCount_val imm, finish_unaryCommand ha _ rd⟩

/-- Settles O39: the model's bit test is that of the bits of the value. -/
theorem issetReadsOneBit : Obligations.IssetReadsOneBit := fun _ _ imm a ha =>
  (finish_scalarCommand ha _).trans (by rw [boolWord_of_iff (a.isSet_iff imm.toNat)])

/-- Settles O40: below the width one bit is written, and from the width on none. -/
theorem setbitWritesOneBit : Obligations.SetbitWritesOneBit := by
  intro s rd ra bv imm a ha
  refine ⟨_, a.setBit_nb imm.toNat bv, a.setBit_unsigned imm.toNat bv, fun h => IntVal.setBit_of_le h bv,
    fun j hj => ?_, finish_unaryCommand ha _ rd⟩
  rw [IntVal.setBit_testBit]
  exact if_congr (and_iff_right_of_imp fun h => h ▸ hj) rfl rfl

/-- Settles O41: the model's bit length is the least length. -/
theorem bitlenIsTheLeastLength : Obligations.BitlenIsTheLeastLength := by
  intro s ra a ha
  obtain ⟨hlt, hleast, hle⟩ := a.bitLength_spec
  exact ⟨a.bitLength, hlt, hleast, hle, finish_scalarCommand ha _⟩

end Sys2Proof.Machine

/-!
The statements about the arithmetic engine. `ADD`, `SUB`, `MUL`, `NEG` and `ABS` have the shapes of the bitwise
commands, so their statements are about the value written; `DIVMOD`, `DIV` and `MOD` are one division function, of which
`exec_division_of_ok` and `exec_division_of_error` hand on the quotient, the remainder or the error. That the spec's
loops compute the model's closed forms is in Laws/Algorithms.
-/
namespace Sys2Proof.Machine

/-! ### Negation and coercion -/

theorem IntVal.negate_width (a : IntVal) : a.negate.width = a.width := by
  rw [IntVal.width, IntVal.negate_nb, IntVal.width]

@[simp] theorem IntVal.negate_negate (a : IntVal) : a.negate.negate = a := by
  refine IntVal.ext_ubits (by simp) rfl ?_
  have hlt : (a.ubits : Int) < 2 ^ a.width := by exact_mod_cast a.ubits_lt
  zify
  rw [IntVal.negate_emod, IntVal.negate_width, IntVal.negate_emod, (Int.mod_modEq _ _).neg.eq, neg_neg,
    Int.emod_eq_of_lt (by positivity) hlt]

/-- `MIN_VALUE` is its own negation (R161). -/
theorem IntVal.negate_of_minValue {a : IntVal} (hn : 0 < a.nb) (h : a.ubits = 2 ^ (a.width - 1)) : a.negate = a := by
  have hw : 0 < a.width := Nat.mul_pos (by norm_num) hn
  have hhalf : 2 ^ a.width = 2 * 2 ^ (a.width - 1) := by rw [← pow_succ', Nat.sub_add_cancel hw]
  refine IntVal.ext_ubits a.negate_nb rfl ?_
  rw [IntVal.negate_ubits, show 2 ^ a.width - a.ubits = a.ubits by omega, Nat.mod_eq_of_lt a.ubits_lt]

theorem IntVal.coerce_of_nb_eq {v : IntVal} {n : Nat} (h : v.nb = n) : v.coerce n = v := by
  rw [← h]; exact v.fromBytes_bytes

/-! ### Quotient and remainder -/

/-- A value at the width and in the mode of `a` denotes the number its bits are congruent to, if that number lies
between 0 and `val(a)`. -/
theorem IntVal.val_eq_of_between {v a : IntVal} {z : Int} (hnb : v.nb = a.nb) (hu : v.unsigned = a.unsigned)
    (hbits : (v.ubits : Int) = z % 2 ^ a.width) (hz : 0 ≤ z ∧ z ≤ a.val ∨ a.val ≤ z ∧ z ≤ 0) : v.val = z := by
  have hw : v.width = a.width := by rw [IntVal.width, hnb, IntVal.width]
  rw [← hw] at hbits
  cases hau : a.unsigned with
  | true =>
    have hlt := a.val_lt
    have hnonneg : 0 ≤ a.val := by rw [IntVal.val_of_unsigned hau]; positivity
    exact IntVal.val_eq_unsigned (hu.trans hau) hbits (by omega) (by rw [hw]; omega)
  | false =>
    rcases Nat.eq_zero_or_pos a.nb with h0 | hpos
    · have hwidth : a.width = 0 := by rw [IntVal.width, h0]
      have hval := IntVal.val_of_width_eq_zero hwidth
      rw [IntVal.val_of_width_eq_zero (hw.trans hwidth)]
      omega
    · obtain ⟨hlo, hhi⟩ := IntVal.val_range hau hpos
      have hpow : (0 : Int) < 2 ^ (a.width - 1) := by positivity
      exact IntVal.val_eq_signed (hu.trans hau) (hnb ▸ hpos) hbits (by rw [hw]; omega) (by rw [hw]; omega)

/-- A remainder lies between 0 and the dividend. -/
theorem tmod_between (x y : Int) : 0 ≤ x.tmod y ∧ x.tmod y ≤ x ∨ x ≤ x.tmod y ∧ x.tmod y ≤ 0 := by
  have habs : (x.tmod y).natAbs ≤ x.natAbs := by rw [Int.natAbs_tmod]; exact Nat.mod_le _ _
  rcases le_total 0 x with hx | hx
  · have := Int.tmod_nonneg y hx
    omega
  · have := Int.tmod_nonneg y (neg_nonneg.2 hx)
    rw [Int.neg_tmod] at this
    omega

/-- The remainder denotes `val(a)` minus the quotient times `val(b)`: no width is too small for it (R165). -/
theorem IntVal.rem_val (a b : IntVal) : (a.rem b).val = a.val.tmod b.val :=
  IntVal.val_eq_of_between (a.rem_nb b) (a.rem_unsigned b) (a.rem_ubits b) (tmod_between _ _)

/-- The identity of R165: modulo `2^N`, quotient times divisor plus remainder is the dividend, in every mode. -/
theorem IntVal.quot_mul_add_rem {a b : IntVal} (h : a.nb = b.nb) : ((a.quot b).mul b).add (a.rem b) = a := by
  have hq : (a.quot b).width = a.width := by rw [IntVal.width, IntVal.quot_nb, IntVal.width]
  have hm : ((a.quot b).mul b).width = a.width := by rw [IntVal.width, IntVal.mul_nb, ← IntVal.width, hq]
  have hquot : (a.quot b).val ≡ a.val.tdiv b.val [ZMOD 2 ^ a.width] := by
    rw [Int.ModEq, ← a.quot_ubits b, ← hq, IntVal.val_emod]
  have hmul : (((a.quot b).mul b).ubits : Int) ≡ a.val.tdiv b.val * b.val [ZMOD 2 ^ a.width] := by
    rw [mul_emod _ _ ((a.quot_nb b).trans h), hq]
    exact (Int.mod_modEq _ _).trans (hquot.mul_right _)
  have hrem : ((a.rem b).ubits : Int) ≡ a.val.tmod b.val [ZMOD 2 ^ a.width] := by
    rw [IntVal.rem_ubits]
    exact Int.mod_modEq _ _
  refine IntVal.ext_ubits (by simp) (by simp) ?_
  zify
  calc ((((a.quot b).mul b).add (a.rem b)).ubits : Int)
      = (((a.quot b).mul b).ubits + (a.rem b).ubits) % 2 ^ a.width := by rw [IntVal.add_emod, hm]
    _ = (a.val.tdiv b.val * b.val + a.val.tmod b.val) % 2 ^ a.width := hmul.add hrem
    _ = a.ubits := by rw [Int.tdiv_mul_add_tmod, IntVal.val_emod]

section
variable {a b : IntVal}

theorem IntVal.coerce_isZero_iff : (b.coerce a.nb).isZero = true ↔ b.ubits % 2 ^ a.width = 0 := by
  rw [IntVal.isZero_iff, IntVal.coerce_ubits, IntVal.width]

theorem IntVal.divmod_coerce_of_eq_zero (h : b.ubits % 2 ^ a.width = 0) :
    a.divmod (b.coerce a.nb) = .error .divisionByZero :=
  if_pos (IntVal.coerce_isZero_iff.2 h)

theorem IntVal.divmod_coerce_of_ne_zero (h : b.ubits % 2 ^ a.width ≠ 0) :
    a.divmod (b.coerce a.nb) = .ok (a.quot (b.coerce a.nb), a.rem (b.coerce a.nb)) :=
  if_neg (mt IntVal.coerce_isZero_iff.1 h)

end

/-! ### What the commands write -/

theorem State.get_wroteV_self (s : State) (r : Reg) (x : IntVal) : (s.wroteV r x).v.get r = some x :=
  get_set_self s.v r (some x)

theorem State.get_wroteV_of_ne {s : State} {r q : Reg} {y : IntVal} (h : s.v.get q = some y) (x : IntVal)
    (hne : r ≠ q) : (s.wroteV r x).v.get q = some y :=
  (get_set_of_ne s.v (some x) hne).trans h

/-- `MUL` into its first operand and then `ADD` into the product. -/
theorem exec_mul_then_add {s : State} {rq rr rb : Reg} {q r b : IntVal} (hq : s.v.get rq = some q)
    (hr : s.v.get rr = some r) (hb : s.v.get rb = some b) (hne : rq ≠ rr) :
    ∃ t u, exec (.mul rq rq rb) s = .next t ∧ exec (.add rq rq rr) t = .next u ∧
      u.v.get rq = some ((q.mul (b.coerce q.nb)).add (r.coerce q.nb)) ∧ u.status.err = 0 :=
  ⟨_, _, finish_binaryCommand hq hb IntVal.mul rq,
    finish_binaryCommand (State.get_wroteV_self _ rq _) (State.get_wroteV_of_ne hr _ hne) IntVal.add rq,
    by rw [State.get_wroteV_self, IntVal.mul_nb], rfl⟩

section
variable {s : State} {ra rb : Reg} {a b : IntVal} (ha : s.v.get ra = some a) (hb : s.v.get rb = some b)
include ha hb

/-- Where the division function gives a quotient and a remainder, `DIVMOD` writes both, `DIV` and `MOD` one each. -/
theorem exec_division_of_ok {q r : IntVal} (h : a.divmod (b.coerce a.nb) = .ok (q, r)) (rd rd2 : Reg) :
    (rd ≠ rd2 → exec (.divmod rd rd2 ra rb) s = .next ((s.wroteV rd q).wroteV rd2 r)) ∧
    exec (.div rd ra rb) s = .next (s.wroteV rd q) ∧ exec (.mod rd ra rb) s = .next (s.wroteV rd r) := by
  rw [exec_div_of ha hb, exec_mod_of ha hb, h]
  refine ⟨fun hne => ?_, rfl, rfl⟩
  rw [exec_divmod_of hne ha hb, h]
  rfl

/-- Where the division function raises an error, so do the three commands. -/
theorem exec_division_of_error {e : Error} (h : a.divmod (b.coerce a.nb) = .error e) (rd rd2 : Reg) :
    (rd ≠ rd2 → exec (.divmod rd rd2 ra rb) s = .next (s.failed e.code)) ∧
    exec (.div rd ra rb) s = .next (s.failed e.code) ∧ exec (.mod rd ra rb) s = .next (s.failed e.code) := by
  rw [exec_div_of ha hb, exec_mod_of ha hb, h]
  refine ⟨fun hne => ?_, rfl, rfl⟩
  rw [exec_divmod_of hne ha hb, h]
  rfl

end

/-! ### The obligations -/

/-- Settles O42: the three results have the bits of the sum, difference and product, modulo the receiver's width. -/
theorem addSubMulWrap : Obligations.AddSubMulWrap := by
  intro s rd ra rb a b ha hb
  have hy : (b.coerce a.nb).ubits = b.ubits % 2 ^ a.width := b.coerce_ubits a.nb
  refine ⟨⟨_, a.add_nb _, rfl, ?_, finish_binaryCommand ha hb IntVal.add rd⟩,
    ⟨_, a.sub_nb _, rfl, ?_, finish_binaryCommand ha hb IntVal.sub rd⟩,
    ⟨_, a.mul_nb _, rfl, ?_, finish_binaryCommand ha hb IntVal.mul rd⟩⟩
  · rw [IntVal.add_ubits, hy]
  · rw [IntVal.sub_emod (b.coerce_nb a.nb).symm, hy]
  · rw [IntVal.mul_ubits, hy]

/-- Settles O43: negation is an involution that fixes `MIN_VALUE`, and `ABS` gives the magnitude. -/
theorem negAndAbs : Obligations.NegAndAbs := fun _ rd _ a ha =>
  ⟨⟨a.negate, a.negate_nb, rfl, a.negate_ubits, IntVal.negate_of_minValue, a.negate_negate,
      finish_unaryCommand ha _ rd⟩,
    a.absolute, a.absolute_nb, a.absolute_unsigned, a.absolute_ubits, finish_unaryCommand ha _ rd⟩

/-- Settles O44: the model's quotient has the bits of the truncated quotient, and its remainder is exact. -/
theorem divisionTruncates : Obligations.DivisionTruncates := fun _ rd rd2 _ _ a _ ha hb hne =>
  ⟨_, _, a.quot_nb _, a.quot_unsigned _, a.rem_nb _, a.rem_unsigned _, a.quot_ubits _, a.rem_val _,
    exec_division_of_ok ha hb (IntVal.divmod_coerce_of_ne_zero hne) rd rd2⟩

/-- Settles O45: the divisor is tested before the dividend is looked at. -/
theorem divisionByZeroRaises : Obligations.DivisionByZeroRaises := fun _ rd rd2 _ _ _ _ ha hb hz =>
  exec_division_of_error ha hb (IntVal.divmod_coerce_of_eq_zero hz) rd rd2

/-- Settles O46: `MUL` and `ADD` find in the registers the quotient and the remainder of `quot_mul_add_rem`. -/
theorem divisionIdentity : Obligations.DivisionIdentity := by
  intro s ra rb rq rr a b ha hb hne hqr hqb hrb
  obtain ⟨hdivmod, -, -⟩ := exec_division_of_ok ha hb (IntVal.divmod_coerce_of_ne_zero hne) rq rr
  have hid := IntVal.quot_mul_add_rem (b.coerce_nb a.nb).symm
  have hqnb := a.quot_nb (b.coerce a.nb)
  have hrnb := a.rem_nb (b.coerce a.nb)
  generalize a.quot (b.coerce a.nb) = q at hdivmod hid hqnb
  generalize a.rem (b.coerce a.nb) = r at hdivmod hid hrnb
  obtain ⟨t2, t3, hmul, hadd, hget, herr⟩ := exec_mul_then_add
    (State.get_wroteV_of_ne (s.get_wroteV_self rq q) r hqr.symm) (State.get_wroteV_self _ rr r)
    (State.get_wroteV_of_ne (State.get_wroteV_of_ne hb q hqb) r hrb) hqr
  refine ⟨_, t2, t3, hdivmod hqr, hmul, hadd, ?_, herr⟩
  rw [hget, hqnb, IntVal.coerce_of_nb_eq hrnb, hid]

/-- Settles O47: the carry iteration adds, and the three other commands are written over addition. -/
theorem additionIsCarryIteration : Obligations.AdditionIsCarryIteration := by
  intro s rd ra rb a b ha hb
  have hnb : a.nb = (b.coerce a.nb).nb := (b.coerce_nb a.nb).symm
  rw [carryAdd_eq hnb, carrySub_eq hnb, carryNegate_eq, carryAbsolute_eq]
  exact ⟨finish_binaryCommand ha hb IntVal.add rd, finish_binaryCommand ha hb IntVal.sub rd,
    finish_unaryCommand ha IntVal.negate rd, finish_unaryCommand ha IntVal.absolute rd⟩

/-- Settles O48: shift-and-add on the magnitudes gives the low bits of the product. -/
theorem multiplicationIsShiftAndAdd : Obligations.MultiplicationIsShiftAndAdd := by
  intro s rd ra rb a b ha hb
  rw [shiftAddMul_eq (b.coerce_nb a.nb).symm]
  exact finish_binaryCommand ha hb IntVal.mul rd

/-- Settles O49: restoring division is the division function, in its results and in its error. -/
theorem divisionIsRestoring : Obligations.DivisionIsRestoring := by
  intro s rd rd2 ra rb a b ha hb hne
  rw [restoringDivmod_eq (b.coerce_nb a.nb).symm]
  cases h : a.divmod (b.coerce a.nb) with
  | ok x =>
    obtain ⟨hdivmod, hdiv, hmod⟩ := exec_division_of_ok ha hb h rd rd2
    exact ⟨hdivmod hne, hdiv, hmod⟩
  | error e =>
    obtain ⟨hdivmod, hdiv, hmod⟩ := exec_division_of_error ha hb h rd rd2
    exact ⟨hdivmod hne, hdiv, hmod⟩

end Sys2Proof.Machine

/-!
The statements about numeric conversion. What each command does when its checks pass is said once (`exec_fromint_of`,
`exec_fromw_of`, `exec_tob_of`, beside `exec_toint_of_some`, `exec_fromb_of` and `exec_tow_of` above); what is left of a
statement is about the value built or the bytes stored.
-/
namespace Sys2Proof.Machine

/-! ### FROMINT -/

/-- The magnitude route of R180, and its exception `-2^31`, give the immediate modulo the width. -/
theorem fromMachineInt_ubits (nb : Nat) (u : Bool) (imm : Word) :
    ((fromMachineInt nb u imm.toInt).ubits : Int) = imm.toInt % 2 ^ (8 * nb) := by
  rw [fromMachineInt_eq nb u imm.le_toInt imm.toInt_lt, IntVal.ofInt_ubits]

theorem fromMachineInt_width (nb : Nat) (u : Bool) (x : Int) : (fromMachineInt nb u x).width = 8 * nb := by
  rw [IntVal.width, fromMachineInt_nb]

/-- `FROMINT` at a legal width. -/
theorem exec_fromint_of {s : State} {n : BitVec 16} (hn : s.LegalWidth n) (rd : Reg) (u : Bool) (imm : Word) :
    exec (.fromint rd u n imm) s = .next (s.wroteV rd (fromMachineInt (n.toNat / 8) u imm.toInt)) := by
  show execFromint _ _ _ _ _ = _
  rw [execFromint, State.finish_bind_of_ok (State.widthOf_ok hn)]; rfl

/-! ### FROMW and FROMB -/

theorem IntVal.fromBytes_width (nb : Nat) (bs : List Byte) (u : Bool) : (IntVal.fromBytes nb bs u).width = 8 * nb := by
  rw [IntVal.width, IntVal.fromBytes_nb]

/-- A value built from a range of BUF holds the bytes of that range, and zero beyond them. -/
theorem IntVal.fromBytes_bufBytes_byteAt (s : State) (a k : Nat) (u : Bool) {nb i : Nat} (hi : i < nb) :
    (IntVal.fromBytes nb (s.bufBytes a k) u).byteAt i = if i < k then s.bufByte (a + i) else 0 := by
  rw [IntVal.fromBytes_byteAt _ u hi, State.getD_bufBytes]

/-- `FROMW` at a legal width of words that stay within BUF. -/
theorem exec_fromw_of {s : State} {n addr len : BitVec 16} (hw : s.LegalWidth n)
    (hr : s.InRange addr.toNat (4 * len.toNat)) (rd : Reg) (u : Bool) : exec (.fromw rd u n addr len) s =
      .next (s.wroteV rd (IntVal.fromBytes (n.toNat / 8) (s.bufBytes addr.toNat (4 * len.toNat)) u)) := by
  show execFromw _ _ _ _ _ _ = _
  rw [execFromw, State.finish_bind_of_ok (State.widthOf_ok hw), State.finish_bind_of_ok (State.load_ok hr)]; rfl

/-! ### TOW and TOB -/

theorem IntVal.getElem_bytes (a : IntVal) {i : Nat} (h : i < a.bytes.length) : a.bytes[i] = a.byteAt i :=
  (List.getD_eq_getElem _ 0 h).symm

theorem IntVal.getElem_wordImage (a : IntVal) {i : Nat} (h : i < a.wordImage.length) :
    a.wordImage[i] = if i < a.nb then a.byteAt i else 0 := by
  rw [← List.getD_eq_getElem _ 0 h, IntVal.getD_wordImage]

/-- `TOB` of a value whose bytes stay within BUF. -/
theorem exec_tob_of {s : State} {ra : Reg} {addr : BitVec 16} {a : IntVal} (ha : s.v.get ra = some a)
    (hr : s.InRange addr.toNat a.nb) : exec (.tob ra addr) s =
      .next ((s.setBuf addr.toNat a.bytes).setRes (BitVec.ofNat 32 a.nb)).succeed := by
  show execTob _ _ _ = _
  rw [execTob, State.finish_bind_of_ok (State.operand_of_some ha), State.finish_bind_of_ok (State.store_ok hr)]; rfl

/-! ### The obligations -/

/-- Settles O51: an immediate is within the 32-bit range, where the machine-integer conversion is reduction modulo the
width. -/
theorem fromintWritesTheInteger : Obligations.FromintWritesTheInteger := by
  intro s rd u n imm hn
  obtain ⟨hwidth, -⟩ := hn.div
  refine ⟨_, (fromMachineInt_width _ _ _).trans hwidth, fromMachineInt_unsigned _ _ _, ?_, exec_fromint_of hn rd u imm⟩
  rw [fromMachineInt_ubits, hwidth]

/-- Settles O52: complementing a negative value before and after reassembling leaves its value modulo `2^32`. -/
theorem tointLeavesTheLowWord : Obligations.TointLeavesTheLowWord := by
  intro s ra mode a ha
  refine ⟨a.toMachineInt, a.toMachineInt_toNat, (exec_toint_of_some mode ha).trans ?_⟩
  cases mode <;> rfl

/-- Settles O53: both loads build the value from the bytes of their range, `4 * len` or `len` of them. -/
theorem fromwAndFrombReadBytes : Obligations.FromwAndFrombReadBytes := by
  intro s rd u n addr len hn
  have hwidth (bs : List Byte) : (IntVal.fromBytes (n.toNat / 8) bs u).width = n.toNat :=
    (IntVal.fromBytes_width _ bs u).trans hn.div.1
  exact ⟨fun hr => ⟨_, hwidth _, rfl, fun _ => IntVal.fromBytes_bufBytes_byteAt s _ _ u, exec_fromw_of hn hr rd u⟩,
    fun hr => ⟨_, hwidth _, rfl, fun _ => IntVal.fromBytes_bufBytes_byteAt s _ _ u, exec_fromb_of hn hr rd u⟩⟩

/-- Settles O54: `TOB` stores the bytes of the value and `TOW` its word image, at the address of the command. -/
theorem towAndTobStoreBytes : Obligations.TowAndTobStoreBytes := by
  intro s ra addr a ha
  refine ⟨fun hr => ?_, fun hr => ?_⟩
  · exact ⟨_, a.bytes, rfl, fun _ => a.getElem_bytes, s.storedFrom_setBuf _ _ _, exec_tob_of ha hr⟩
  · rw [← a.wordImage_length] at hr
    have hexec := exec_tow_of ha hr
    rw [a.wordCount_eq] at hexec
    exact ⟨_, a.wordImage, a.wordImage_length, fun _ => a.getElem_wordImage, s.storedFrom_setBuf _ _ _, hexec⟩

end Sys2Proof.Machine

/-!
The statements about the string codec. What each command does when its checks pass is said once (`exec_parse_of`,
`exec_fmt_of`, `exec_dbg_of`); which number a text denotes and which numeral a number has stand above (`parse_eq`,
`IntVal.format_eq`, `parse_numeral`). The rendering of `DBG` is described character by character (`dbgChars_getElem`).
-/
namespace Sys2Proof.Machine

/-! ### PARSE and FMT -/

/-- `PARSE` at a legal width and radix of a text that stays within BUF. -/
theorem exec_parse_of {s : State} {n addr len : BitVec 16} {radix : BitVec 8} (hw : s.LegalWidth n)
    (hx : LegalRadix radix) (hr : s.InRange addr.toNat len.toNat) (rd : Reg) (u : Bool) :
    exec (.parse rd u n radix addr len) s =
      s.finish ((parse (n.toNat / 8) u radix.toNat (s.bufBytes addr.toNat len.toNat)).map (s.setV rd)) := by
  show execParse _ _ _ _ _ _ _ = _
  rw [execParse, State.finish_bind_of_ok (State.widthOf_ok hw), State.finish_bind_of_ok (radixOf_ok hx),
    State.finish_bind_of_ok (State.load_ok hr)]
  cases parse (n.toNat / 8) u radix.toNat (s.bufBytes addr.toNat len.toNat) <;> rfl

/-- `FMT` at a legal radix of a value whose numeral stays within BUF. -/
theorem exec_fmt_of {s : State} {ra : Reg} {radix : BitVec 8} {addr : BitVec 16} {a : IntVal}
    (ha : s.v.get ra = some a) (hnb : 0 < a.nb) (hx : LegalRadix radix)
    (hr : s.InRange addr.toNat (numeral radix.toNat a.val).length) :
    exec (.fmt ra radix addr) s = .next ((s.setBuf addr.toNat (numeral radix.toNat a.val)).setRes
      (BitVec.ofNat 32 (numeral radix.toNat a.val).length)).succeed := by
  show execFmt _ _ _ _ = _
  rw [execFmt, State.finish_bind_of_ok (State.operand_of_some ha), State.finish_bind_of_ok (radixOf_ok hx),
    IntVal.format_eq hx.1 hx.2 hnb, State.finish_bind_of_ok (State.store_ok hr)]
  rfl

theorem IntVal.ofInt_width (nb : Nat) (x : Int) (u : Bool) : (IntVal.ofInt nb x u).width = 8 * nb := by
  rw [IntVal.width, IntVal.ofInt_nb]

/-- The numeral of a value whose width a width field can name has a length that the length field of `PARSE` can name. -/
theorem numeral_length_lt_of_width {radix : Nat} (h2 : 2 ≤ radix) {a : IntVal} {n : BitVec 16}
    (hn : n.toNat = a.width) : (numeral radix a.val).length < 2 ^ 16 := by
  have hlen := numeral_length h2 a
  have hlt := n.isLt
  rw [IntVal.width] at hn hlen
  omega

/-- A length below `2^16` is read back whole from the low half of RES. -/
theorem toNat_low_half_ofNat {k : Nat} (h : k < 2 ^ 16) : ((BitVec.ofNat 32 k).extractLsb' 0 16).toNat = k := by
  rw [BitVec.extractLsb'_toNat, BitVec.toNat_ofNat, Nat.shiftRight_zero]
  omega

/-! ### DBG -/

/-- Bit `k` of a list of bytes, counted from the top bit of its first byte. -/
def bitFromTop (bs : List Byte) (k : Nat) : Bool := (bs.getD (k / 8) 0).getLsbD (7 - k % 8)

theorem bitFromTop_cons_of_lt (b : Byte) (bs : List Byte) {k : Nat} (h : k < 8) :
    bitFromTop (b :: bs) k = b.getLsbD (7 - k) := by
  rw [bitFromTop, Nat.div_eq_of_lt h, Nat.mod_eq_of_lt h, List.getD_cons_zero]

theorem bitFromTop_cons_add (b : Byte) (bs : List Byte) (k : Nat) : bitFromTop (b :: bs) (8 + k) = bitFromTop bs k := by
  rw [bitFromTop, bitFromTop, show (8 + k) / 8 = k / 8 + 1 by omega, Nat.add_mod_left, List.getD_cons_succ]

/-- Of a value's bytes from the most significant down, bit `k` from the top is bit `N - 1 - k` of the value. -/
theorem IntVal.bitFromTop_reverse (a : IntVal) {k : Nat} (h : k < a.width) :
    bitFromTop a.bytes.reverse k = a.bit (a.width - 1 - k) := by
  have hw : a.width = 8 * a.bytes.length := rfl
  rw [bitFromTop, IntVal.bit, IntVal.byteAt, List.getD_eq_getElem?_getD, List.getD_eq_getElem?_getD,
    List.getElem?_reverse (by omega), show (a.width - 1 - k) / 8 = a.bytes.length - 1 - k / 8 by omega,
    show (a.width - 1 - k) % 8 = 7 - k % 8 by omega]

/-- The place from the top of the bit whose character stands at place `j` of a rendering. -/
def dbgBitIndex (sp : Bool) (j : Nat) : Nat := if sp then 8 * (j / 9) + j % 9 else j

/-- A place of a rendering that holds no space holds the character of a bit of the value. -/
theorem dbgBitIndex_lt {sp : Bool} {nb j : Nat} (h : j < if sp then 9 * nb - 1 else 8 * nb)
    (hspace : ¬(sp = true ∧ j % 9 = 8)) : dbgBitIndex sp j < 8 * nb := by
  cases sp with
  | false => exact h
  | true =>
    simp only [dbgBitIndex, true_and, if_true] at h hspace ⊢
    omega

/-- The character at place `j` of the rendering of bytes given from the most significant down (R199). -/
def dbgCharAt (sp : Bool) (bs : List Byte) (j : Nat) : Byte :=
  if sp = true ∧ j % 9 = 8 then 0x20 else if bitFromTop bs (dbgBitIndex sp j) then 0x31 else 0x30

/-- The first eight characters are those of the first byte. -/
theorem dbgCharAt_cons_of_lt (sp : Bool) (b : Byte) (bs : List Byte) {j : Nat} (h : j < 8) :
    dbgCharAt sp (b :: bs) j = if b.getLsbD (7 - j) then 0x31 else 0x30 := by
  have hindex : dbgBitIndex sp j = j := by unfold dbgBitIndex; split <;> omega
  rw [dbgCharAt, if_neg (by omega), hindex, bitFromTop_cons_of_lt b bs h]

/-- With spaces, the rendering goes on nine characters later with the bytes below. -/
theorem dbgCharAt_true_cons_add (b : Byte) (bs : List Byte) (j : Nat) :
    dbgCharAt true (b :: bs) (9 + j) = dbgCharAt true bs j := by
  have hindex : dbgBitIndex true (9 + j) = 8 + dbgBitIndex true j := by
    simp only [dbgBitIndex, if_true]; omega
  rw [dbgCharAt, dbgCharAt, Nat.add_mod_left, hindex, bitFromTop_cons_add]

/-- Without spaces, the rendering goes on eight characters later with the bytes below. -/
theorem dbgCharAt_false_cons_add (b : Byte) (bs : List Byte) (j : Nat) :
    dbgCharAt false (b :: bs) (8 + j) = dbgCharAt false bs j := by
  simp [dbgCharAt, dbgBitIndex, bitFromTop_cons_add]

@[simp] theorem bitChars_length (b : Byte) : (bitChars b).length = 8 := rfl

theorem bitChars_getElem (b : Byte) {j : Nat} (h : j < (bitChars b).length) :
    (bitChars b)[j] = if b.getLsbD (7 - j) then 0x31 else 0x30 := by
  rw [bitChars_length] at h
  interval_cases j <;> rfl

theorem dbgChars_length (sp : Bool) (bs : List Byte) :
    (dbgChars sp bs).length = if sp then 9 * bs.length - 1 else 8 * bs.length := by
  fun_induction dbgChars sp bs with
  | case1 => cases sp <;> rfl
  | case2 b => cases sp <;> rfl
  | case3 b bs hne ih =>
    have hpos : 0 < bs.length := List.length_pos_iff.2 hne
    simp only [List.length_append, bitChars_length, ih, List.length_cons]
    cases sp with
    | false => simp only [Bool.false_eq_true, if_false, List.length_nil]; omega
    | true => simp only [if_true, List.length_singleton]; omega

/-- The characters of a rendering, one by one. -/
theorem dbgChars_getElem (sp : Bool) (bs : List Byte) {j : Nat} (h : j < (dbgChars sp bs).length) :
    (dbgChars sp bs)[j] = dbgCharAt sp bs j := by
  fun_induction dbgChars sp bs generalizing j with
  | case1 => cases h
  | case2 b => rw [bitChars_getElem b h, dbgCharAt_cons_of_lt sp b [] h]
  | case3 b bs _ ih =>
    by_cases hj : j < 8
    · have hfirst : j < (bitChars b).length := hj
      rw [dbgCharAt_cons_of_lt sp b bs hj, List.getElem_append_left (by rw [List.length_append]; omega),
        List.getElem_append_left hfirst, bitChars_getElem]
    · cases sp with
      | false =>
        obtain ⟨k, rfl⟩ := Nat.exists_eq_add_of_le (Nat.le_of_not_lt hj)
        have hk : k < (dbgChars false bs).length := by simpa using h
        rw [dbgCharAt_false_cons_add, ← ih hk, List.getElem_append_right (by simp)]
        simp
      | true =>
        obtain rfl | hj9 : j = 8 ∨ 9 ≤ j := by omega
        · have hspace : 8 < (bitChars b ++ [charSpace]).length := by simp
          exact List.getElem_append_left hspace
        · obtain ⟨k, rfl⟩ := Nat.exists_eq_add_of_le hj9
          have hk : k < (dbgChars true bs).length := by
            simp only [if_true, List.length_append, bitChars_length, List.length_singleton] at h; omega
          rw [dbgCharAt_true_cons_add, ← ih hk, List.getElem_append_right (by simp)]
          simp

/-- `DBG` of a value whose rendering stays within BUF. -/
theorem exec_dbg_of {s : State} {ra : Reg} {sp : Bool} {addr : BitVec 16} {a : IntVal} (ha : s.v.get ra = some a)
    (hr : s.InRange addr.toNat (a.debugText sp).length) : exec (.dbg ra sp addr) s =
      .next ((s.setBuf addr.toNat (a.debugText sp)).setRes (BitVec.ofNat 32 (a.debugText sp).length)).succeed := by
  show execDbg _ _ _ _ = _
  rw [execDbg, State.finish_bind_of_ok (State.operand_of_some ha), State.finish_bind_of_ok (State.store_ok hr)]; rfl

/-! ### The obligations -/

/-- Settles O56: the parser computes the number the text denotes, or raises `InvalidDigit` where it denotes none. -/
theorem parseWritesTheNumber : Obligations.ParseWritesTheNumber := by
  intro s rd u n radix addr len hw hx hr
  have hexec := exec_parse_of hw hx hr rd u
  rw [parse_eq _ u hx.1] at hexec
  obtain ⟨hwidth, -⟩ := hw.div
  cases htext : textValue radix.toNat (s.bufBytes addr.toNat len.toNat) with
  | none => rwa [htext] at hexec
  | some z =>
    rw [htext] at hexec
    refine ⟨IntVal.ofInt (n.toNat / 8) z u, (IntVal.ofInt_width _ _ _).trans hwidth, rfl, ?_, hexec⟩
    rw [IntVal.ofInt_ubits, hwidth]

/-- Settles O57: the digit loop gives the canonical numeral, and the store leaves it in BUF. -/
theorem fmtStoresTheNumeral : Obligations.FmtStoresTheNumeral :=
  fun s _ _ _ _ ha hnb hx hr => ⟨_, s.storedFrom_setBuf _ _ _, exec_fmt_of ha hnb hx hr⟩

/-- Settles O58: the low half of RES holds the whole length of the numeral, so `PARSE` reads the numeral back, and at
the value's own width and flag its number gives the value. -/
theorem parseOfFmtGivesTheValue : Obligations.ParseOfFmtGivesTheValue := by
  intro s ra rd radix addr n a ha hw hn hx hr
  obtain ⟨hwidth, hpos⟩ := hw.div
  have hnb : n.toNat / 8 = a.nb := by rw [hn, IntVal.width]; omega
  refine ⟨_, exec_fmt_of ha (hnb ▸ hpos) hx hr, ?_⟩
  have hlen := toNat_low_half_ofNat (numeral_length_lt_of_width hx.1 hn)
  refine (exec_parse_of ?_ hx ?_ rd a.unsigned).trans ?_
  · exact hw
  · exact hlen.symm ▸ hr
  · rw [State.succeed_res, State.setRes_res, hlen, State.bufBytes_done, State.bufBytes_setBuf,
      parse_numeral _ _ hx.1 hx.2, hnb, a.ofInt_val]
    rfl

/-- Settles O59: the text is the rendering of the bytes, described character by character, and then the marker. -/
theorem dbgStoresTheBits : Obligations.DbgStoresTheBits := by
  intro s ra sp addr a ha body mark hr
  have hbody : (dbgChars sp a.bytes.reverse).length = body := by
    rw [dbgChars_length, List.length_reverse]; rfl
  have htext : a.debugText sp = dbgChars sp a.bytes.reverse ++ mark := rfl
  have hlen : (a.debugText sp).length = body + mark.length := by rw [htext, List.length_append, hbody]
  refine ⟨_, a.debugText sp, hlen, ?_, fun j h hj => ?_, s.storedFrom_setBuf _ _ _, exec_dbg_of ha (hlen ▸ hr)⟩
  · rw [htext, ← hbody, List.drop_left]
  · have hchar : (a.debugText sp)[j] = dbgCharAt sp a.bytes.reverse j := by
      rw [← dbgChars_getElem sp _ (hbody.symm ▸ hj)]
      exact List.getElem_append_left _
    rw [hchar, dbgCharAt]
    split
    · rfl
    · next hspace =>
      rw [a.bitFromTop_reverse (dbgBitIndex_lt hj hspace), dbgBitIndex]

end Sys2Proof.Machine

/-!
The statement about `CLRE`. Its opcode is no other command's and its format uses no field (R210), so one descriptor
spells it, and every other descriptor with its opcode spells nothing.
-/
namespace Sys2Proof

theorem encode_clre : encode .clre = 0x7f := by decide

/-- No other command has the opcode of `CLRE`. -/
theorem eq_clre_of_op {i : Instr} (h : (encodeFields i).op = 0x7f) : i = .clre := by
  cases i with
  | clre => rfl
  | _ => simp [encodeFields] at h

/-- The only descriptor with the opcode of `CLRE` that decodes is that of `CLRE`. -/
theorem eq_of_decode_of_op {d : Descriptor} {i : Instr} (ho : d.extractLsb' 0 8 = 0x7f) (h : decode d = .ok i) :
    d = 0x7f := by
  obtain ⟨-, hfields⟩ := encodeFields_of_decodeFields h
  obtain rfl : i = .clre := eq_clre_of_op (hfields ▸ ho)
  rw [← Fields.toDescriptor_ofDescriptor d, ← hfields]
  exact encode_clre

end Sys2Proof

namespace Sys2Proof.Machine

/-- `CLRE` clears EF, and ERR as after every success. -/
theorem exec_clre (s : State) : exec .clre s = .next s.clearEf.succeed := s.finish_ok s.clearEf

/-- Settles O60: the one write of `CLRE` is to EF, and a descriptor with its opcode that is not its own does not
decode. -/
theorem clreClearsTheErrorFlag : Obligations.ClreClearsTheErrorFlag := by
  refine ⟨exec_clre, encode_clre, fun s d ho hne => ?_⟩
  cases hd : decode d with
  | ok i => exact absurd (eq_of_decode_of_op ho hd) hne
  | error e => exact issue_of_illegal hd s

end Sys2Proof.Machine

/-!
The statements about errors (60_exceptions R221, R224, R226) and about the empty registers (70_reset_and_hazards R240).
An error writes STATUS alone, and no write of a command reads ERR or EF; all follows from what `exec_ends` and
`exec_uniform` say of a command and `transact_cases` of a transaction.
-/
namespace Sys2Proof.Machine

/-! ### What an error leaves -/

/-- The state a legal command ends in: that of one of its errors, or one with `ERR` zero. -/
theorem exec_next_of_wellFormed {i : Instr} {s t : State} (hi : i.wellFormed = true) (h : exec i s = .next t) :
    t.status.err = 0 ∨ ∃ e ∈ mayRaise i, t = s.failed e.code := by
  rcases exec_ends i s hi with ⟨e, hm, he⟩ | ⟨w, -, he⟩ <;> cases h.symm.trans (he s (.refl s))
  · exact .inr ⟨e, hm, s.raise_eq e⟩
  · exact .inl rfl

/-- An issued descriptor that leaves an error code leaves the error state of that code. -/
theorem issue_eq_failed {d : Descriptor} {s t : State} (h : issue d s = .next t) (herr : t.status.err ≠ 0) :
    t = s.failed t.status.err := by
  rcases issue_next h with ⟨e, rfl⟩ | ⟨i, w, -, -, rfl⟩
  · exact s.raise_eq e
  · exact absurd rfl herr

/-! ### No command reads ERR or EF -/

/-- Two states that agree in the registers, RES, RU and BUF. -/
structure SameButErrors (s s' : State) : Prop where
  v   : s'.v = s.v
  res : s'.res = s.res
  buf : s'.buf = s.buf
  ru  : s'.status.ru = s.status.ru

theorem SameButErrors.failed (s : State) (c : BitVec 4) : SameButErrors s (s.failed c) := ⟨rfl, rfl, rfl, rfl⟩

theorem SameButErrors.raise {s s' : State} (h : SameButErrors s s') (e : Error) :
    SameButErrors (s.raise e) (s'.raise e) := ⟨h.v, h.res, h.buf, h.ru⟩

theorem SameButErrors.succeed {s s' : State} (h : SameButErrors s s') : SameButErrors s.succeed s'.succeed :=
  ⟨h.v, h.res, h.buf, h.ru⟩

/-- The writes of a command keep the agreement: none of them is computed from ERR or EF. -/
theorem SameButErrors.apply {s s' : State} (h : SameButErrors s s') (w : Write) :
    SameButErrors (w.apply s) (w.apply s') := by
  obtain ⟨hv, hres, hbuf, hru⟩ := h
  cases w with
  | reg r x => exact ⟨congrArg (·.set r (some x)) hv, hres, hbuf, hru⟩
  | regs q r x y => exact ⟨congrArg (fun v => (v.set q (some x)).set r (some y)) hv, hres, hbuf, hru⟩
  | res w => exact ⟨hv, rfl, hbuf, hru⟩
  | toint w u => exact ⟨hv, rfl, hbuf, rfl⟩
  | buf a bs w => exact ⟨hv, rfl, congrArg (Memory.writeBytes · a bs) hbuf, hru⟩
  | clearEf => exact ⟨hv, hres, hbuf, hru⟩

/-- The state after an error has the inputs of the state before it. -/
theorem Same.of_failed (s : State) (c : BitVec 4) : Same (s.failed c) s := ⟨rfl, rfl, rfl, rfl⟩

/-- After an error a command has the end it has without it, but for EF: that is set, unless `CLRE` succeeds. -/
theorem exec_failed {i : Instr} {s t : State} (c : BitVec 4) (h : exec i s = .next t) :
    ∃ t', exec i (s.failed c) = .next t' ∧ SameButErrors t t' ∧ t'.status.err = t.status.err ∧
      t'.status.ef = (t.status.err != 0 || decide (i ≠ .clre)) := by
  have hsame := SameButErrors.failed s c
  rcases exec_uniform i (s.failed c) with ⟨e, he⟩ | ⟨w, hw, he⟩ <;> cases h.symm.trans (he s (.of_failed s c))
  · refine ⟨_, he _ (.refl _), hsame.raise e, rfl, ?_⟩
    simp [Status.raised]
  · refine ⟨_, he _ (.refl _), (hsame.apply w).succeed, rfl, ?_⟩
    simp [hw.ef]

/-! ### A register that holds a value keeps one -/

theorem State.setV_get_ne_none {s : State} {r : Reg} (h : s.v.get r ≠ none) (q : Reg) (x : IntVal) :
    (s.setV q x).v.get r ≠ none := by
  rw [State.setV_v, get_set]
  split
  · exact Option.some_ne_none x
  · exact h

/-- A command writes values to registers and never empties one. -/
theorem Write.apply_get_ne_none {s : State} {r : Reg} (h : s.v.get r ≠ none) (w : Write) :
    (w.apply s).v.get r ≠ none := by
  cases w with
  | reg q x => exact State.setV_get_ne_none h q x
  | regs p q x y => exact State.setV_get_ne_none (State.setV_get_ne_none h p x) q y
  | _ => exact h

theorem issue_get_ne_none {d : Descriptor} {s t : State} {r : Reg} (h : issue d s = .next t)
    (hr : s.v.get r ≠ none) : t.v.get r ≠ none := by
  rcases issue_next h with ⟨e, rfl⟩ | ⟨i, w, -, -, rfl⟩
  · exact hr
  · exact w.apply_get_ne_none hr

theorem transact_get_ne_none {tr : Transaction} {s t : State} {r : Reg} (h : transact tr s = .next t)
    (htr : tr ≠ .reset) (hr : s.v.get r ≠ none) : t.v.get r ≠ none := by
  rcases transact_cases h with ⟨d, -, hd⟩ | ⟨p, rfl⟩ | ⟨a, b, -, rfl⟩ | ⟨hreset, -⟩
  · exact issue_get_ne_none hd hr
  · exact hr
  · exact hr
  · exact absurd hreset htr

/-! ### The obligations -/

/-- Settles O17: by `exec_ends`, which runs every command along its own checks. -/
theorem errorsByCommand : Obligations.ErrorsByCommand := fun _ _ _ => exec_next_of_wellFormed

/-- Settles O18: an end with an error code is the error state of that code, which differs in ERR and EF alone. -/
theorem errorsArePrecise : Obligations.ErrorsArePrecise := by
  intro d s t h herr
  have ht := issue_eq_failed h herr
  refine ⟨ht, ?_⟩
  rw [ht]
  exact ⟨rfl, rfl, rfl, rfl, fun _ => rfl⟩

/-- Settles O25: a command reads neither ERR nor EF, so the error before it reaches none of its writes. -/
theorem errorsDoNotNest : Obligations.ErrorsDoNotNest := by
  intro i s t c h
  obtain ⟨t', hexec, hsame, herr, hef⟩ := exec_failed c h
  exact ⟨t', hexec, hsame.v, hsame.res, hsame.buf, herr, hsame.ru, hef⟩

/-- Settles O24: a command replaces a register by a value or leaves it, and no other transaction but Reset reaches
one. -/
theorem registersEmptyOnlyByReset : Obligations.RegistersEmptyOnlyByReset := by
  intro s t r h hhead hr
  cases hp : s.pending with
  | nil => exact Host.Outcome.next.inj ((step_idle hp).symm.trans h) ▸ hr
  | cons tr ts =>
    rw [step_pending hp] at h
    exact transact_get_ne_none h (fun htr => hhead (by rw [hp, htr]; rfl)) hr

end Sys2Proof.Machine
